-- ==== Sys2Proof/Word.lean ====
section
/-! DEFINITION. The word types of the block: a 32-bit command, argument, count, tick or target (00_scope.md R13,
30_encoding.md R70), the 64-bit result (10_state.md R32), and a byte of a narrow host bus (20_memory.md R51). -/

namespace Sys2Proof

/-- A 32-bit value: CMD, ARG, a count, a tick count, a target, a duration (R13, R70). -/
abbrev Word := BitVec 32

/-- A 64-bit value: the result register RES (R32). -/
abbrev DWord := BitVec 64

/-- One byte of a narrow host bus (R51). -/
abbrev Byte := BitVec 8

end Sys2Proof
end

