-- ==== Sys2Proof/Config.lean ====
section
/-! DEFINITION. The configuration a model of the block takes as its argument (00_scope.md R6), the reasons for which a
configuration is refused (60_exceptions.md R258), and the free values: what the spec leaves to a draw (R8). -/

namespace Sys2Proof

/-- A digital level: LVL = 0 is low (L), LVL = 1 is high (H) (R71). -/
inductive Level where
  | low
  | high
deriving DecidableEq, Repr

/-- Which time a slot or a DELAY reads: 0 = COUNTS, 1 = TICKS (R12, R71). -/
inductive Base where
  | counts
  | ticks
deriving DecidableEq, Repr

/-- The kind of a deadline slot (R150). -/
inductive SlotKind where
  | periodic
  | deadline
  | vdeadline
deriving DecidableEq, Repr

/-- `SLOT_CFG[i]`: a slot's kind, base and fixed delay; the delay is unused by a VDEADLINE slot (R6, R150). -/
structure SlotCfg where
  kind  : SlotKind
  base  : Base
  delay : Word
deriving DecidableEq, Repr

/-- How the arbiter drives its output (R6, R200). -/
inductive Binding where
  | direct
  | callback
deriving DecidableEq, Repr

/-- `CONV_ROUND`, the rounding of unit conversion (R6, R102). -/
inductive Rounding where
  | nearestTiesUp
  | floor
  | ceil
deriving DecidableEq, Repr

/-- The unit of a duration (R100). -/
inductive TimeUnit where
  | s
  | ms
  | us
deriving DecidableEq, Repr

/-- A real-world duration: a natural number with a unit (R100). -/
structure Duration where
  n    : Nat
  unit : TimeUnit
deriving DecidableEq, Repr

/-- The configuration of R6. It is not state: no step changes it. NUM_SLOTS is the length of `slotCfg`.
The defaults are those R6 gives. -/
structure Config where
  w             : Nat
  p             : Nat
  fCpu          : Nat
  cap           : Nat := 16
  slotCfg       : List SlotCfg
  idleLevel     : Level
  binding       : Binding
  minPulse      : Nat := 1
  latMax        : Nat
  raceWindow    : Nat
  scopeDepthMax : Nat := 8
  convRound     : Rounding := .nearestTiesUp
deriving DecidableEq, Repr

/-- The items of R258, one name each. "More than one ClockBase on one counter, or more than one PulseTx" cannot be
written down here: the model has one of each by construction (R258, D34). -/
inductive ConfigProblem where
  /-- W is not 8 or 16. -/
  | counterWidth
  /-- P is not a power of two. -/
  | prescaler
  /-- F_CPU = 0. -/
  | clockFrequency
  /-- CAP = 0. -/
  | queueCapacity
  /-- NUM_SLOTS > 16. -/
  | slotCount
  /-- A PERIODIC or DEADLINE slot's delay is 2^31 or more. -/
  | slotDelay
  /-- A delay from a duration whose `variant` is REFUSED (R105). -/
  | variantRefused
  /-- MIN_PULSE = 0. -/
  | minPulse
  /-- LAT_MAX is 2^W or more. -/
  | latency
  /-- RACE_WINDOW is above 2^W. -/
  | raceWindow
  /-- SCOPE_DEPTH_MAX = 0. -/
  | scopeDepth
deriving DecidableEq, Repr

/-- The slots of configuration CFG-A (95_test_vectors.md). -/
def Config.slotsA : List SlotCfg :=
  [⟨.periodic, .counts, 1000⟩, ⟨.deadline, .counts, 500⟩, ⟨.vdeadline, .ticks, 0⟩, ⟨.deadline, .ticks, 3⟩]

/-- Configuration CFG-A of 95_test_vectors.md. -/
def Config.cfgA : Config :=
  { w := 8, p := 64, fCpu := 16000000, cap := 4, slotCfg := Config.slotsA, idleLevel := .low, binding := .direct,
    latMax := 0, raceWindow := 0 }

/-- The configuration `State.reset` carries: the defaults of R6 (CAP 16, MIN_PULSE 1, SCOPE_DEPTH_MAX 8,
NEAREST_TIES_UP) and CFG-A's value for every parameter R6 leaves OPEN. DESIGN CHOICE (unsafe): log 1. -/
def Config.standard : Config := { Config.cfgA with cap := 16 }

/-- Free value (R8, R123): does the n-th draw of `read_counts` take the stale pairing? No body, so nothing can be
proved of its values (log 6; safe). -/
opaque Config.freeStale : Nat → Bool

/-- Free value (R56): which of the enabled agents moves, when no turn names one (log 4; safe). -/
opaque Config.freeAgent : Nat → Nat

end Sys2Proof
end

