-- ==== Sys2Proof/Syntax.lean ====
section
/-! DEFINITION. The commands of the block, one constructor per row of spec/opcode_table.json (30_encoding.md R72), and
the transaction that carries one (R70). -/

namespace Sys2Proof

/-- A command with its decoded operands (R74). `slot` is the index SLOT, checked against NUM_SLOTS only when the command
executes. A command that does not use ARG has no ARG here, because it ignores it (R70). -/
inductive Instr where
  /-- TICKS (R125). -/
  | ticks
  /-- COUNTS (R126). -/
  | counts
  /-- MICROS (R127). -/
  | micros
  /-- MILLIS (R128). -/
  | millis
  /-- DELAY with BASE and ARG = the delay (R129). -/
  | delay (base : Base) (d : Word)
  /-- PER.INIT (R152). -/
  | perInit (slot : Nat)
  /-- PER.ISNOW (R153). -/
  | perIsNow (slot : Nat)
  /-- DL.RESET (R154). -/
  | dlReset (slot : Nat)
  /-- VDL.RESET with ARG = the delay (R155). -/
  | vdlReset (slot : Nat) (d : Word)
  /-- DL.ISNOW (R156). -/
  | dlIsNow (slot : Nat)
  /-- TX.SEND with LVL and ARG = the duration (R202). -/
  | txSend (level : Level) (d : Word)
  /-- ATOMIC.ENTER with MASK; bit 0 is OVF, bit 1 is CMP (R230). -/
  | atomicEnter (mask : BitVec 2)
  /-- ATOMIC.EXIT (R231). -/
  | atomicExit
deriving DecidableEq, Repr

/-- One whole transaction's two inputs (R70). -/
structure Command where
  cmd : Word
  arg : Word
deriving DecidableEq, Repr

end Sys2Proof
end

