-- ==== Sys2Proof/WellFormed.lean ====
section
/-! DEFINITION. Which commands can be written in the format of 30_encoding.md R71: the SLOT field has four bits, and the
assembler checks `n < 16` (R78). The other operands' types hold exactly the values their fields hold. -/

namespace Sys2Proof

/-- The check `n < 16` of R78 on the slot index. -/
def slotFits (slot : Nat) : Bool := decide (slot < 16)

/-- Can the command be encoded (R71, R78)? -/
def Instr.wellFormed : Instr → Bool
  | .ticks => true
  | .counts => true
  | .micros => true
  | .millis => true
  | .delay _ _ => true
  | .perInit slot => slotFits slot
  | .perIsNow slot => slotFits slot
  | .dlReset slot => slotFits slot
  | .vdlReset slot _ => slotFits slot
  | .dlIsNow slot => slotFits slot
  | .txSend _ _ => true
  | .atomicEnter _ => true
  | .atomicExit => true

end Sys2Proof
end

