-- ==== Sys2Proof/Decode.lean ====
section
/-! DEFINITION. Decoding, total on every word and every byte string and rejecting by name (30_encoding.md R73, R75, R76;
20_memory.md R51, R52), and the encoder written from the same table (R71, R73, R74). -/

namespace Sys2Proof

/-- The names of the rows of R72. -/
inductive Mnemonic where
  | ticks | counts | micros | millis | delay | perInit | perIsNow | dlReset | vdlReset | dlIsNow | txSend
  | atomicEnter | atomicExit
deriving DecidableEq, Repr

/-- A row of R73: a word `w` selects the row exactly when `w &&& mask = value`. -/
structure Row where
  name  : Mnemonic
  value : Word
  mask  : Word
deriving DecidableEq, Repr

/-- The opcode of a row, the OP field of R72. -/
def Mnemonic.op : Mnemonic → Nat
  | .ticks => 0x01
  | .counts => 0x02
  | .micros => 0x03
  | .millis => 0x04
  | .delay => 0x05
  | .perInit => 0x10
  | .perIsNow => 0x11
  | .dlReset => 0x12
  | .vdlReset => 0x13
  | .dlIsNow => 0x14
  | .txSend => 0x20
  | .atomicEnter => 0x30
  | .atomicExit => 0x31

/-- The table of R73, letter for letter. -/
def rows : List Row :=
  [ ⟨.ticks,       0x00000001#32, 0xFFFFFFFF#32⟩,
    ⟨.counts,      0x00000002#32, 0xFFFFFFFF#32⟩,
    ⟨.micros,      0x00000003#32, 0xFFFFFFFF#32⟩,
    ⟨.millis,      0x00000004#32, 0xFFFFFFFF#32⟩,
    ⟨.delay,       0x00000005#32, 0xFFFFDFFF#32⟩,
    ⟨.perInit,     0x00000010#32, 0xFFFFF0FF#32⟩,
    ⟨.perIsNow,    0x00000011#32, 0xFFFFF0FF#32⟩,
    ⟨.dlReset,     0x00000012#32, 0xFFFFF0FF#32⟩,
    ⟨.vdlReset,    0x00000013#32, 0xFFFFF0FF#32⟩,
    ⟨.dlIsNow,     0x00000014#32, 0xFFFFF0FF#32⟩,
    ⟨.txSend,      0x00000020#32, 0xFFFFEFFF#32⟩,
    ⟨.atomicEnter, 0x00000030#32, 0xFFFF3FFF#32⟩,
    ⟨.atomicExit,  0x00000031#32, 0xFFFFFFFF#32⟩ ]

/-- Does the word select the row (R73)? -/
def Row.selects (r : Row) (w : Word) : Bool := w &&& r.mask == r.value

/-- The SLOT field, bits 11:8, an unsigned index (R71, R74). -/
def fieldSlot (w : Word) : Nat := (w.extractLsb' 8 4).toNat

/-- The LVL field, bit 12 (R71). -/
def fieldLvl (w : Word) : Level := if w.getLsbD 12 then .high else .low

/-- The BASE field, bit 13 (R71). -/
def fieldBase (w : Word) : Base := if w.getLsbD 13 then .ticks else .counts

/-- The MASK field, bits 15:14; CMD bit 14 is bit 0 (OVF), CMD bit 15 is bit 1 (CMP) (R71, R74). -/
def fieldMask (w : Word) : BitVec 2 := w.extractLsb' 14 2

/-- The command a selected row stands for, with its operands (R74). -/
def Mnemonic.build (m : Mnemonic) (cmd arg : Word) : Instr :=
  match m with
  | .ticks => .ticks
  | .counts => .counts
  | .micros => .micros
  | .millis => .millis
  | .delay => .delay (fieldBase cmd) arg
  | .perInit => .perInit (fieldSlot cmd)
  | .perIsNow => .perIsNow (fieldSlot cmd)
  | .dlReset => .dlReset (fieldSlot cmd)
  | .vdlReset => .vdlReset (fieldSlot cmd) arg
  | .dlIsNow => .dlIsNow (fieldSlot cmd)
  | .txSend => .txSend (fieldLvl cmd) arg
  | .atomicEnter => .atomicEnter (fieldMask cmd)
  | .atomicExit => .atomicExit

/-- Why a transaction is no command: the three items of R76 in their order, and a transaction that is not whole (R52). -/
inductive DecodeReject where
  /-- OP is not in R72 (R76 item 1). -/
  | unassignedOp
  /-- Bits 31:16 are not all 0 (R76 item 2). -/
  | reservedBits
  /-- A field the row does not use is not 0 (R76 item 3). -/
  | unusedField
  /-- Not the eight bytes of one CMD and one ARG (R52). -/
  | partialTransaction
deriving DecidableEq, Repr

/-- The item of R76 a word that selects no row falls under. -/
def rejectReason (cmd : Word) : DecodeReject :=
  if !(rows.any fun r => r.name.op == cmd.toNat % 256) then .unassignedOp
  else if cmd.toNat / 65536 != 0 then .reservedBits
  else .unusedField

/-- `decode(w)` of R75, with ARG beside it: the first row the word selects, else ILLEGAL. -/
def decode (cmd arg : Word) : Except DecodeReject Instr :=
  match rows.find? (fun r => r.selects cmd) with
  | some r => .ok (r.name.build cmd arg)
  | none => .error (rejectReason cmd)

/-- A word from four bytes, least significant first (R51). -/
def wordOfBytes (b0 b1 b2 b3 : Byte) : Word := b3 ++ b2 ++ b1 ++ b0

/-- The four bytes of a word, least significant first (R51). -/
def bytesOfWord (w : Word) : List Byte :=
  [w.extractLsb' 0 8, w.extractLsb' 8 8, w.extractLsb' 16 8, w.extractLsb' 24 8]

/-- RES from eight bytes, least significant first (R51). -/
def dwordOfBytes (b0 b1 b2 b3 b4 b5 b6 b7 : Byte) : DWord := wordOfBytes b4 b5 b6 b7 ++ wordOfBytes b0 b1 b2 b3

/-- The eight bytes of RES, least significant first (R51). -/
def bytesOfDWord (v : DWord) : List Byte := bytesOfWord (v.extractLsb' 0 32) ++ bytesOfWord (v.extractLsb' 32 32)

/-- The number bytes stand for, the least significant at the lowest offset (R51). -/
def littleEndian : List Byte → Nat
  | [] => 0
  | b :: bs => b.toNat + 256 * littleEndian bs

/-- Decoding from the bytes of a narrow host bus: CMD's four bytes, then ARG's, each least significant first (R51). That
CMD lies below ARG is a DESIGN CHOICE (safe: log 8). Fewer than eight bytes are a partial access (R52). -/
def decodeBytes : List Byte → Except DecodeReject (Instr × List Byte)
  | c0 :: c1 :: c2 :: c3 :: a0 :: a1 :: a2 :: a3 :: rest =>
    match decode (wordOfBytes c0 c1 c2 c3) (wordOfBytes a0 a1 a2 a3) with
    | .ok i => .ok (i, rest)
    | .error e => .error e
  | _ => .error .partialTransaction

/-- The LVL field's place in CMD (R71). -/
def placeLvl : Level → Word
  | .low => 0
  | .high => 1#32 <<< 12

/-- The BASE field's place in CMD (R71). -/
def placeBase : Base → Word
  | .counts => 0
  | .ticks => 1#32 <<< 13

/-- The SLOT field's place in CMD (R71). -/
def placeSlot (slot : Nat) : Word := BitVec.ofNat 32 slot <<< 8

/-- The MASK field's place in CMD (R71). -/
def placeMask (mask : BitVec 2) : Word := mask.setWidth 32 <<< 14

/-- The CMD and ARG words of a command; ARG is 0 where the command does not use it (R73, R78). -/
def encode : Instr → Command
  | .ticks => ⟨0x00000001#32, 0⟩
  | .counts => ⟨0x00000002#32, 0⟩
  | .micros => ⟨0x00000003#32, 0⟩
  | .millis => ⟨0x00000004#32, 0⟩
  | .delay base d => ⟨0x00000005#32 ||| placeBase base, d⟩
  | .perInit slot => ⟨0x00000010#32 ||| placeSlot slot, 0⟩
  | .perIsNow slot => ⟨0x00000011#32 ||| placeSlot slot, 0⟩
  | .dlReset slot => ⟨0x00000012#32 ||| placeSlot slot, 0⟩
  | .vdlReset slot d => ⟨0x00000013#32 ||| placeSlot slot, d⟩
  | .dlIsNow slot => ⟨0x00000014#32 ||| placeSlot slot, 0⟩
  | .txSend level d => ⟨0x00000020#32 ||| placeLvl level, d⟩
  | .atomicEnter mask => ⟨0x00000030#32 ||| placeMask mask, 0⟩
  | .atomicExit => ⟨0x00000031#32, 0⟩

/-- The row of a command (R72). -/
def Instr.mnemonic : Instr → Mnemonic
  | .ticks => .ticks
  | .counts => .counts
  | .micros => .micros
  | .millis => .millis
  | .delay _ _ => .delay
  | .perInit _ => .perInit
  | .perIsNow _ => .perIsNow
  | .dlReset _ => .dlReset
  | .vdlReset _ _ => .vdlReset
  | .dlIsNow _ => .dlIsNow
  | .txSend _ _ => .txSend
  | .atomicEnter _ => .atomicEnter
  | .atomicExit => .atomicExit

/-- Does the command read ARG (R72)? -/
def Instr.usesArg : Instr → Bool
  | .delay _ _ => true
  | .vdlReset _ _ => true
  | .txSend _ _ => true
  | _ => false

/-- The eight bytes of a command on a narrow bus (R51). -/
def encodeBytes (i : Instr) : List Byte := bytesOfWord (encode i).cmd ++ bytesOfWord (encode i).arg

/-- The transaction whose bits are `w` as spec/opcode_table.json numbers them: CMD is bits 31:0, ARG the word after it;
the bits from `nbits` up are 0. -/
def tableCommand (nbits w : Nat) : Command :=
  ⟨BitVec.ofNat 32 (w % 2 ^ nbits), BitVec.ofNat 32 (w % 2 ^ nbits / 2 ^ 32)⟩

/-- The command the decoder reads from the table's word, laid out in bytes and given to the byte decoder. -/
def decodeTableWord (nbits w : Nat) : Option Instr :=
  let c := tableCommand nbits w
  match decodeBytes (bytesOfWord c.cmd ++ bytesOfWord c.arg) with
  | .ok (i, _) => some i
  | .error _ => none

end Sys2Proof
end

