-- ==== Sys2Proof/Machine/State.lean ====
section
/-! DEFINITION. The state of the block (10_state.md R20 to R36), its fault records (60_exceptions.md R255), the two ways
a step can stop, and the reset state (70_reset_and_hazards.md R281). -/

namespace Sys2Proof.Machine

/-- The clock's items S1 to S4 (R21 to R24). `raw` has W bits; it is held in the 16 bits of the wider counter, and every
step keeps it below 2^W (log 9). -/
structure Clock where
  raw        : BitVec 16
  ticks      : Word
  ovfPending : Bool
  ovfIe      : Bool
deriving DecidableEq, Repr

/-- The latency bookkeeping S5 and S6 (R26). -/
structure Latency where
  ovfAge : Nat
  cmpAge : Nat
deriving DecidableEq, Repr

/-- One deadline slot's items S7 to S9 (R27). -/
structure Slot where
  next    : Word
  elapsed : Bool
  valid   : Bool
deriving DecidableEq, Repr

/-- A slot after reset; `next` is unwritten in the spec. DESIGN CHOICE 0 (unsafe): log 3. -/
def Slot.reset : Slot := ⟨0, false, false⟩

/-- A pulse (R29). -/
structure Pulse where
  level    : Level
  duration : Word
deriving DecidableEq, Repr

/-- The sentinel `EMPTY` (R29). -/
def Pulse.empty : Pulse := ⟨.low, 0⟩

/-- The pulse queue S10 to S12 (R28); `none` is the spec's own "unwritten" entry, which Q_READ writes back (R182). -/
structure Queue where
  buf   : List (Option Pulse)
  head  : Nat
  count : Nat
deriving DecidableEq, Repr

/-- The transmitter's two states (R30). -/
inductive TxState where
  | idle
  | transmitting
deriving DecidableEq, Repr

/-- The transmitter's items S13 to S17 (R30). -/
structure Tx where
  txState    : TxState
  outLevel   : Level
  target     : Word
  cmpArmed   : Bool
  cmpPending : Bool
deriving DecidableEq, Repr

/-- The masking items S18 and S19 (R31); the innermost scope's saved mask is the last element of `scopeStack`. -/
structure Masking where
  imask      : BitVec 2
  scopeStack : List (BitVec 2)
deriving DecidableEq, Repr

/-- The delay in progress, S21 (R33). -/
structure DelayState where
  active : Bool
  start  : Word
  d      : Word
  base   : Base
deriving DecidableEq, Repr

/-- A recorded fault, one constructor per code of R255 with the info the table records. It is state, not a way for the
step function to stop (R256). -/
inductive BlockFault where
  /-- Code 1: decode gave ILLEGAL; info the CMD word. -/
  | illegalCommand (cmd : Word)
  /-- Code 2: SLOT ≥ NUM_SLOTS; info SLOT. -/
  | slotRange (slot : Nat)
  /-- Code 3: the slot's kind is not one the command takes; info SLOT and OP. -/
  | slotKind (slot op : Nat)
  /-- Code 4: ARG ≥ 2^31; info ARG. -/
  | delayRange (arg : Word)
  /-- Code 5: 1 ≤ ARG < MIN_PULSE; info ARG. -/
  | shortPulse (arg : Word)
  /-- Code 6: the slot is not valid; info SLOT. -/
  | slotUninit (slot : Nat)
  /-- Code 7: the scope stack is full; info SCOPE_DEPTH_MAX. -/
  | scopeOverflow (depth : Nat)
  /-- Code 8: the scope stack is empty; info 0. -/
  | scopeUnderflow
  /-- Code 9: the counter wrapped while an overflow was pending; info `ticks`. -/
  | tickLost (ticks : Word)
deriving DecidableEq, Repr

/-- An event of the trace S23 (R35). -/
inductive Event where
  | out (tSched tAct : Word) (level : Level)
  | hook
deriving DecidableEq, Repr

/-- The four agents (20_memory.md R55). -/
inductive Agent where
  | host
  | cnt
  | ovf
  | cmps
deriving DecidableEq, Repr

/-- What the host puts on its interface: a whole transaction (R70), or a partial access (R52) with the bytes it writes, none
for a partial read of RES. -/
inductive HostAccess where
  | command (c : Command)
  | partialAccess (bytes : List Byte)
deriving DecidableEq, Repr

/-- The state: the spec's items (R20), then the model's own inputs, which are the configuration (R6, log 1), the host's
next commands (log 5), the agents asked to move next (log 4) and how many free values were taken (log 6).
DESIGN CHOICE: `hostCmds` is a finite list and a step adds nothing to it; whether the host's commands go on without end is
settled in log 5 (an execution's turns may bring more, `Turn.arrivals`). -/
structure State where
  clock    : Clock
  lat      : Latency
  slots    : List Slot
  queue    : Queue
  tx       : Tx
  mask     : Masking
  res      : DWord
  dly      : DelayState
  fault    : Option BlockFault
  events   : List Event
  cfg      : Config
  hostCmds : List HostAccess
  turns    : List Agent
  draws    : Nat
deriving DecidableEq, Repr

/-- Why the step function stops with a fault. -/
inductive Fault where
  /-- Raised by `step` when a fault is already recorded: no agent is enabled (R56, R256). Safe: the spec's block takes
  no further step either. -/
  | halted (f : BlockFault)
deriving DecidableEq, Repr

/-- Why the step function refuses. -/
inductive Refusal where
  /-- Raised by an arm of `exec` for a command that has no meaning in the model yet; no arm does. Safe. -/
  | notModelled (mnemonic : String)
  /-- Raised by `step` when the configuration is one R258 refuses as a whole. Safe: the spec gives it no meaning. -/
  | illegalConfiguration (p : ConfigProblem)
  /-- Raised by `step` when the host's next access is partial: the spec "gives it no step" (R52). Safe. -/
  | partialAccess (bytes : List Byte)
deriving DecidableEq, Repr

/-- The reset state under a configuration, for each outcome of the two draws of R281 (`raw` and `ovf_pending`). The
items the spec leaves unwritten hold the values log 3 names (DESIGN CHOICE, unsafe); the model's own inputs are empty. -/
def State.resetWith (cfg : Config) (raw : BitVec 16) (ovfPending : Bool) : State :=
  { clock := { raw := raw, ticks := 0, ovfPending := ovfPending, ovfIe := true }
    lat := { ovfAge := 0, cmpAge := 0 }
    slots := List.replicate cfg.slotCfg.length Slot.reset
    queue := { buf := List.replicate cfg.cap none, head := 0, count := 0 }
    tx := { txState := .idle, outLevel := cfg.idleLevel, target := 0, cmpArmed := false, cmpPending := false }
    mask := { imask := 0, scopeStack := [] }
    res := 0
    dly := { active := false, start := 0, d := 0, base := .counts }
    fault := none
    events := []
    cfg := cfg
    hostCmds := []
    turns := []
    draws := 0 }

/-- The reset state of the fixed interface: the standard configuration (log 1) with `raw = 0` and no pending overflow,
one outcome of R281's two draws. DESIGN CHOICE (unsafe): log 2. -/
def State.reset : State := State.resetWith Config.standard 0 false

end Sys2Proof.Machine
end

