-- ==== Sys2Proof/Machine/Configuration.lean ====
section
/-! DEFINITION. Which configurations are refused (60_exceptions.md R258). -/

namespace Sys2Proof

/-- NUM_SLOTS (R6). -/
def Config.numSlots (c : Config) : Nat := c.slotCfg.length

/-- Is `n` a power of two, at least 1 (R6, P)? -/
def isPowerOfTwo (n : Nat) : Bool := n == 2 ^ n.log2

/-- A PERIODIC or DEADLINE slot's delay is below 2^31; a VDEADLINE slot does not use its delay (R150, R258). -/
def SlotCfg.legal (c : SlotCfg) : Bool := c.kind == .vdeadline || decide (c.delay.toNat < 2 ^ 31)

/-- The first item of R258 the configuration breaks, in R258's order. -/
def Config.problem (c : Config) : Option ConfigProblem :=
  if c.w ≠ 8 ∧ c.w ≠ 16 then some .counterWidth
  else if isPowerOfTwo c.p = false then some .prescaler
  else if c.fCpu = 0 then some .clockFrequency
  else if c.cap = 0 then some .queueCapacity
  else if 16 < c.numSlots then some .slotCount
  else if c.slotCfg.all SlotCfg.legal = false then some .slotDelay
  else if c.minPulse = 0 then some .minPulse
  else if 2 ^ c.w ≤ c.latMax then some .latency
  else if 2 ^ c.w < c.raceWindow then some .raceWindow
  else if c.scopeDepthMax = 0 then some .scopeDepth
  else none

/-- Is the configuration one the model gives a meaning to? -/
def Config.legal (c : Config) : Bool := c.problem.isNone

end Sys2Proof
end

