-- ==== Sys2Proof/Machine/Flags.lean ====
section
/-! DEFINITION. The status predicates: the signed delta and "reached or passed" (00_scope.md R9), effective pending
(60_exceptions.md R251), and the queue's empty and full tests (43_queue.md R180). The block has no condition codes
(10_state.md R37). -/

namespace Sys2Proof.Machine

/-- `sdelta(a, b)`: the difference mod 2^32 read as a two's complement number (R7, R9). -/
def sdelta (a b : Word) : Int := (a - b).toInt

/-- "`now` has reached or passed `next`" (R9). -/
def reached (now next : Word) : Bool := decide (0 ≤ sdelta now next)

/-- Is the overflow service masked: `imask` bit 0 (R31)? -/
def State.ovfMasked (s : State) : Bool := s.mask.imask.getLsbD 0

/-- Is the compare-match service masked: `imask` bit 1 (R31)? -/
def State.cmpMasked (s : State) : Bool := s.mask.imask.getLsbD 1

/-- `ovf_eff` (R251). -/
def State.ovfEff (s : State) : Bool := s.clock.ovfPending && s.clock.ovfIe && !s.ovfMasked

/-- `cmp_eff` (R251). -/
def State.cmpEff (s : State) : Bool := s.tx.cmpPending && !s.cmpMasked

/-- The queue is empty (R180). -/
def State.queueEmpty (s : State) : Bool := s.queue.count == 0

/-- The queue is full (R180). -/
def State.queueFull (s : State) : Bool := s.queue.count == s.cfg.cap

/-- An argument of 2^31 or more: out of range for a delay (R129, R155). -/
def delayTooLong (d : Word) : Bool := decide (2 ^ 31 ≤ d.toNat)

end Sys2Proof.Machine
end

