-- ==== Sys2Proof/Machine/Ops.lean ====
section
/-! DEFINITION. The shared operations: raising a fault (60_exceptions.md R256), writing RES (30_encoding.md R80) and
its bytes (20_memory.md R51), the event trace (10_state.md R35), draws (00_scope.md R8), the true count (10_state.md R25), the
read primitives (41_clock.md R122 to R124), the output sink (44_pulsetx.md R201) and the queue (43_queue.md R181, R182). -/

namespace Sys2Proof.Machine

/-! ### Faults -/

/-- The code of a fault (R255). -/
def BlockFault.code : BlockFault → Nat
  | .illegalCommand _ => 1
  | .slotRange _ => 2
  | .slotKind _ _ => 3
  | .delayRange _ => 4
  | .shortPulse _ => 5
  | .slotUninit _ => 6
  | .scopeOverflow _ => 7
  | .scopeUnderflow => 8
  | .tickLost _ => 9

/-- The info a fault records, in the order R255 lists it. -/
def BlockFault.info : BlockFault → List Nat
  | .illegalCommand cmd => [cmd.toNat]
  | .slotRange slot => [slot]
  | .slotKind slot op => [slot, op]
  | .delayRange arg => [arg.toNat]
  | .shortPulse arg => [arg.toNat]
  | .slotUninit slot => [slot]
  | .scopeOverflow depth => [depth]
  | .scopeUnderflow => [0]
  | .tickLost ticks => [ticks.toNat]

/-- `raise F(info)`: the fault is recorded and nothing else of the step takes effect. There is no handler, no vector and
no return (R256, R254). -/
def State.raise (f : BlockFault) (s : State) : State := { s with fault := some f }

/-- A command that raises `f`: the next state holds the fault record (R256). -/
def raised (f : BlockFault) (s : State) : Host.Outcome State Fault Refusal := .next (s.raise f)

/-! ### RES and the event trace -/

/-- `RES <- v` for all 64 bits (R80). -/
def State.writeRes (v : DWord) (s : State) : State := { s with res := v }

/-- `RES <- zext_64(v)` for a 32-bit result (R80). -/
def State.writeResWord (v : Word) (s : State) : State := s.writeRes (v.setWidth 64)

/-- `RES <- 1` or `0` for a Boolean result (R80). -/
def State.writeResBool (b : Bool) (s : State) : State := s.writeRes (if b then 1 else 0)

/-- RES as a narrow host bus carries it: eight bytes, least significant first (20_memory.md R51). They belong to the whole
transaction; reading one of them alone is a partial access (R52). -/
def State.resBytes (s : State) : List Byte := bytesOfDWord s.res

/-- `emit E` (R8, R35). -/
def State.emit (e : Event) (s : State) : State := { s with events := s.events ++ [e] }

/-- One draw of the stale pairing: a free value for each call (R8, R123; log 6). -/
def State.drawStale (s : State) : Bool × State := (Config.freeStale s.draws, { s with draws := s.draws + 1 })

/-! ### Reading the clock -/

/-- `((t << W) mod 2^32) | zext_32(raw)` (R25, R123). -/
def compose (w : Nat) (t : Word) (raw : BitVec 16) : Word := (t <<< w) ||| raw.setWidth 32

/-- A one-bit item as the 32-bit number it adds (R25). -/
def bitWord (b : Bool) : Word := if b then 1 else 0

/-- The true count E, the pending overflow counted in (R25). -/
def State.trueCount (s : State) : Word := compose s.cfg.w (s.clock.ticks + bitWord s.clock.ovfPending) s.clock.raw

/-- 2^W as a 32-bit count: one tick. -/
def State.tickCounts (s : State) : Word := 1#32 <<< s.cfg.w

/-- `read_ticks()` (R122). -/
def State.readTicks (s : State) : Word := s.clock.ticks

/-- Does a read of counts fall in the race window (R123)? -/
def State.inRaceWindow (s : State) : Bool := !s.clock.ovfPending && decide (s.clock.raw.toNat < s.cfg.raceWindow)

/-- `read_counts()`: the composite count, and in the race window a draw between it and the stale pairing (R123). -/
def State.readCounts (s : State) : Word × State :=
  let c := compose s.cfg.w s.clock.ticks s.clock.raw
  if s.inRaceWindow then
    let (stale, s') := s.drawStale
    (if stale then c - s.tickCounts else c, s')
  else (c, s)

/-- `read_base(b)` (R124). -/
def State.readBase (b : Base) (s : State) : Word × State :=
  match b with
  | .counts => s.readCounts
  | .ticks => (s.readTicks, s)

/-! ### The output -/

/-- `set_output(level, t_sched)` (R201). Both bindings write `out_level` and emit the event; what the binding changes is
what the environment sees of them (`State.pin`, `State.callbacks`). -/
def State.setOutput (level : Level) (tSched : Word) (s : State) : State :=
  { s with tx.outLevel := level }.emit (.out tSched s.trueCount level)

/-- The output pin: it equals `out_level` in DIRECT binding, and in CALLBACK binding the block drives no pin (R40). -/
def State.pin (s : State) : Option Level :=
  match s.cfg.binding with
  | .direct => some s.tx.outLevel
  | .callback => none

/-- The level an event passes to the environment's callback, if it is an output event. -/
def Event.level? : Event → Option Level
  | .out _ _ level => some level
  | .hook => none

/-- The calls of the environment's callback so far, oldest first: one for each `set_output` in CALLBACK binding, none in
DIRECT binding (R201; log 10). -/
def State.callbacks (s : State) : List Level :=
  match s.cfg.binding with
  | .direct => []
  | .callback => s.events.filterMap Event.level?

/-! ### The queue -/

/-- The index `(head + k) mod CAP` of the k-th live entry (R28). -/
def State.queueIndex (k : Nat) (s : State) : Nat := (s.queue.head + k) % s.cfg.cap

/-- The k-th live entry, `none` for "unwritten" (R28). -/
def State.queueEntry (k : Nat) (s : State) : Option Pulse := (s.queue.buf[s.queueIndex k]?).join

/-- The live entries, oldest first (R28). -/
def State.liveQueue (s : State) : List (Option Pulse) := (List.range s.queue.count).map fun k => s.queueEntry k

/-- `Q_WRITE(p)`: the result and the state after it (R181). -/
def State.qWrite (p : Pulse) (s : State) : Bool × State :=
  if s.queueFull then (false, s)
  else
    (true, { s with
      queue := { s.queue with
        buf := s.queue.buf.set (s.queueIndex s.queue.count) (some p)
        count := s.queue.count + 1 } })

/-- `Q_READ()`: the pulse read, `EMPTY` from an empty queue, and the state after it (R182). An unwritten live entry, which
no run reaches, reads as EMPTY (log 11). -/
def State.qRead (s : State) : Pulse × State :=
  if s.queueEmpty then (Pulse.empty, s)
  else
    (((s.queue.buf[s.queue.head]?).join).getD Pulse.empty, { s with
      queue := {
        buf := s.queue.buf.set s.queue.head none
        head := (s.queue.head + 1) % s.cfg.cap
        count := s.queue.count - 1 } })

/-! ### The comparator -/

/-- Arming a match at `target` (R202, R204). -/
def State.arm (target : Word) (s : State) : State := { s with tx.target := target, tx.cmpArmed := true }

/-- `match_check()`: equality with all 32 bits of the true count, only while armed (R203). -/
def State.matchCheck (s : State) : State :=
  if s.tx.cmpArmed && s.trueCount == s.tx.target then
    { s with tx.cmpArmed := false, tx.cmpPending := true, lat.cmpAge := 0 }
  else s

end Sys2Proof.Machine
end

