-- ==== Sys2Proof/Machine/Operands.lean ====
section
/-! DEFINITION. The operand checks that stand before a command's effect: the slot check of every slot command
(42_deadline.md R151) in the order of 60_exceptions.md R257, and the accessors of a slot. -/

namespace Sys2Proof.Machine

/-- `slot_check(kinds)`: the slot's configuration, or the fault it raises; the range is checked before the kind (R151,
R257). `op` is the command's OP, which SlotKind records. -/
def State.slotCheck (kinds : List SlotKind) (op slot : Nat) (s : State) : Except BlockFault SlotCfg :=
  match s.cfg.slotCfg[slot]? with
  | none => .error (.slotRange slot)
  | some c => if kinds.contains c.kind then .ok c else .error (.slotKind slot op)

/-- The slot's items (R27). -/
def State.slotAt (slot : Nat) (s : State) : Slot := s.slots.getD slot Slot.reset

/-- Writing the slot's items; a slot that does not exist stays absent. -/
def State.setSlot (slot : Nat) (v : Slot) (s : State) : State := { s with slots := s.slots.set slot v }

/-- The slot's target as PER.INIT, DL.RESET and VDL.RESET compute it: the base now, plus the delay, mod 2^32. -/
def State.slotTarget (c : SlotCfg) (delay : Word) (s : State) : Word := (s.readBase c.base).1 + delay

/-- The state after a read of the slot's base, in which the draw, if one was made, is used up. -/
def State.afterRead (c : SlotCfg) (s : State) : State := (s.readBase c.base).2

end Sys2Proof.Machine
end

