-- ==== Sys2Proof/Machine/Clock.lean ====
section
/-! DEFINITION. The clock: TICKS, COUNTS, MICROS, MILLIS, DELAY's issue and poll steps, the counter step and the overflow
service (41_clock.md R120, R121, R125 to R131). -/

namespace Sys2Proof.Machine

/-- TICKS (R125). -/
def execTicks (s : State) : Host.Outcome State Fault Refusal := .next (s.writeResWord s.readTicks)

/-- COUNTS (R126). -/
def execCounts (s : State) : Host.Outcome State Fault Refusal :=
  let (c, s') := s.readCounts
  .next (s'.writeResWord c)

/-- The elapsed time of `ticks` in units of `1 / perSecond` seconds, the exact floor (R127, R128). -/
def State.elapsedUnits (perSecond : Nat) (s : State) : Nat :=
  s.clock.ticks.toNat * 2 ^ s.cfg.w * s.cfg.p * perSecond / s.cfg.fCpu

/-- MICROS (R127). -/
def execMicros (s : State) : Host.Outcome State Fault Refusal :=
  .next (s.writeRes (BitVec.ofNat 64 (s.elapsedUnits 1000000)))

/-- MILLIS (R128). -/
def execMillis (s : State) : Host.Outcome State Fault Refusal :=
  .next (s.writeRes (BitVec.ofNat 64 (s.elapsedUnits 1000)))

/-- DELAY, the issue step (R129). -/
def execDelay (base : Base) (d : Word) (s : State) : Host.Outcome State Fault Refusal :=
  if delayTooLong d then raised (.delayRange d) s
  else
    let (now, s') := s.readBase base
    .next { s' with dly := { active := true, start := now, d := d, base := base } }

/-- DELAY, the poll step: it completes, or calls the idle hook once (R130, R131). The hook changes no state of the block;
its call is the event. -/
def State.delayPoll (s : State) : State :=
  let (now, s') := s.readBase s.dly.base
  if s.dly.d.toNat ≤ (now - s.dly.start).toNat then { s' with dly.active := false }
  else s'.emit .hook

/-- `(raw + 1) mod 2^W` (R120). -/
def State.nextRaw (s : State) : BitVec 16 := BitVec.ofNat 16 ((s.clock.raw.toNat + 1) % 2 ^ s.cfg.w)

/-- Each pending, unmasked interrupt has waited one counter step more (R120, R26). -/
def State.ageInterrupts (s : State) : State :=
  { s with lat := {
      ovfAge := if s.ovfEff then s.lat.ovfAge + 1 else s.lat.ovfAge
      cmpAge := if s.cmpEff then s.lat.cmpAge + 1 else s.lat.cmpAge } }

/-- `raw` advances to `r`, and a wrap sets the overflow flag with age 0 (R120). -/
def State.advanceRaw (r : BitVec 16) (s : State) : State :=
  if r = 0 then { s with clock.raw := r, clock.ovfPending := true, lat.ovfAge := 0 }
  else { s with clock.raw := r }

/-- The counter step (R120). -/
def State.counterStep (s : State) : State :=
  if s.nextRaw = 0 ∧ s.clock.ovfPending = true then s.raise (.tickLost s.clock.ticks)
  else (s.ageInterrupts.advanceRaw s.nextRaw).matchCheck

/-- The overflow service (R121). -/
def State.overflowService (s : State) : State :=
  { s with
    clock.ticks := s.clock.ticks + 1
    clock.ovfPending := false
    lat.ovfAge := 0 }

end Sys2Proof.Machine
end

