-- ==== Sys2Proof/Machine/Deadline.lean ====
section
/-! DEFINITION. The deadline comparator: PER.INIT, PER.ISNOW, DL.RESET, VDL.RESET and DL.ISNOW (42_deadline.md R152 to
R156). Each is one atomic step (20_memory.md R57). -/

namespace Sys2Proof.Machine

/-- PER.INIT (R152): `next` is now plus the delay and the slot is valid; `elapsed` is not a Periodic's. -/
def execPerInit (slot : Nat) (s : State) : Host.Outcome State Fault Refusal :=
  match s.slotCheck [.periodic] Mnemonic.perInit.op slot with
  | .error f => raised f s
  | .ok c =>
    .next ((s.afterRead c).setSlot slot { s.slotAt slot with next := s.slotTarget c c.delay, valid := true })

/-- PER.ISNOW (R153): a true poll moves `next` on by one delay, measured from `next` itself. -/
def execPerIsNow (slot : Nat) (s : State) : Host.Outcome State Fault Refusal :=
  match s.slotCheck [.periodic] Mnemonic.perIsNow.op slot with
  | .error f => raised f s
  | .ok c =>
    let v := s.slotAt slot
    if v.valid = false then raised (.slotUninit slot) s
    else
      let (now, s') := s.readBase c.base
      if reached now v.next then .next ((s'.setSlot slot { v with next := v.next + c.delay }).writeResBool true)
      else .next (s'.writeResBool false)

/-- DL.RESET (R154). -/
def execDlReset (slot : Nat) (s : State) : Host.Outcome State Fault Refusal :=
  match s.slotCheck [.deadline] Mnemonic.dlReset.op slot with
  | .error f => raised f s
  | .ok c => .next ((s.afterRead c).setSlot slot ⟨s.slotTarget c c.delay, false, true⟩)

/-- VDL.RESET (R155): the delay is ARG, checked after the slot's kind (R257). -/
def execVdlReset (slot : Nat) (d : Word) (s : State) : Host.Outcome State Fault Refusal :=
  match s.slotCheck [.vdeadline] Mnemonic.vdlReset.op slot with
  | .error f => raised f s
  | .ok c =>
    if delayTooLong d then raised (.delayRange d) s
    else .next ((s.afterRead c).setSlot slot ⟨s.slotTarget c d, false, true⟩)

/-- DL.ISNOW (R156): the poll that latches `elapsed` is the only one that answers 1. -/
def execDlIsNow (slot : Nat) (s : State) : Host.Outcome State Fault Refusal :=
  match s.slotCheck [.deadline, .vdeadline] Mnemonic.dlIsNow.op slot with
  | .error f => raised f s
  | .ok c =>
    let v := s.slotAt slot
    if v.valid = false then raised (.slotUninit slot) s
    else if v.elapsed = true then .next (s.writeResBool false)
    else
      let (now, s') := s.readBase c.base
      if reached now v.next then .next ((s'.setSlot slot { v with elapsed := true }).writeResBool true)
      else .next (s'.writeResBool false)

end Sys2Proof.Machine
end

