-- ==== Sys2Proof/Machine/PulseTx.lean ====
section
/-! DEFINITION. The output-compare scheduler: TX.SEND and the compare-match service (44_pulsetx.md R202, R204). -/

namespace Sys2Proof.Machine

/-- TX.SEND from IDLE: the pulse goes straight to the output and the first match is armed at now + duration (R202). -/
def State.startTx (level : Level) (d : Word) (s : State) : State :=
  let (now, s') := s.readCounts
  let s' := (s'.setOutput level now).arm (now + d)
  { s' with tx.cmpPending := false, tx.txState := .transmitting }

/-- TX.SEND (R202): the zero-duration rejection comes before the ShortPulse check (R257). -/
def execTxSend (level : Level) (d : Word) (s : State) : Host.Outcome State Fault Refusal :=
  if d = 0 then .next (s.writeResBool false)
  else if d.toNat < s.cfg.minPulse then raised (.shortPulse d) s
  else
    match s.tx.txState with
    | .idle => .next ((s.startTx level d).writeResBool true)
    | .transmitting =>
      let (ok, s') := s.qWrite ⟨level, d⟩
      .next (s'.writeResBool ok)

/-- The compare-match service, the arbiter (R204): the next pulse, counted from the previous target, or back to idle. -/
def State.matchService (s : State) : State :=
  let t := s.tx.target
  let (p, s') := s.qRead
  let s' :=
    if p.duration ≠ 0 then (s'.setOutput p.level t).arm (t + p.duration)
    else { s'.setOutput s.cfg.idleLevel t with tx.txState := .idle, tx.cmpArmed := false }
  { s' with tx.cmpPending := false, lat.cmpAge := 0 }

end Sys2Proof.Machine
end

