-- ==== Sys2Proof/Machine/Scope.lean ====
section
/-! DEFINITION. Interrupt-excluded scopes: ATOMIC.ENTER and ATOMIC.EXIT (45_scope.md R230, R231). -/

namespace Sys2Proof.Machine

/-- ATOMIC.ENTER (R230): the mask in force is saved and MASK is or-ed in, bit for bit (R74). -/
def execAtomicEnter (m : BitVec 2) (s : State) : Host.Outcome State Fault Refusal :=
  if s.mask.scopeStack.length = s.cfg.scopeDepthMax then raised (.scopeOverflow s.cfg.scopeDepthMax) s
  else .next { s with mask := ⟨s.mask.imask ||| m, s.mask.scopeStack ++ [s.mask.imask]⟩ }

/-- ATOMIC.EXIT (R231): the mask saved at the matching ENTER is restored. -/
def execAtomicExit (s : State) : Host.Outcome State Fault Refusal :=
  match s.mask.scopeStack.getLast? with
  | none => raised .scopeUnderflow s
  | some m => .next { s with mask := ⟨m, s.mask.scopeStack.dropLast⟩ }

end Sys2Proof.Machine
end

