-- ==== Sys2Proof/Machine/Dispatch.lean ====
section
/-! DEFINITION. One arm per command (30_encoding.md R72): the command's own meaning. -/

namespace Sys2Proof.Machine

/-- The effect of a decoded command, one atomic step (20_memory.md R53); DELAY's is its issue step. -/
def exec (i : Instr) (s : State) : Host.Outcome State Fault Refusal :=
  match i with
  | .ticks => Sys2Proof.Machine.execTicks s
  | .counts => Sys2Proof.Machine.execCounts s
  | .micros => Sys2Proof.Machine.execMicros s
  | .millis => Sys2Proof.Machine.execMillis s
  | .delay base d => Sys2Proof.Machine.execDelay base d s
  | .perInit slot => Sys2Proof.Machine.execPerInit slot s
  | .perIsNow slot => Sys2Proof.Machine.execPerIsNow slot s
  | .dlReset slot => Sys2Proof.Machine.execDlReset slot s
  | .vdlReset slot d => Sys2Proof.Machine.execVdlReset slot d s
  | .dlIsNow slot => Sys2Proof.Machine.execDlIsNow slot s
  | .txSend level d => Sys2Proof.Machine.execTxSend level d s
  | .atomicEnter m => Sys2Proof.Machine.execAtomicEnter m s
  | .atomicExit => Sys2Proof.Machine.execAtomicExit s

end Sys2Proof.Machine
end

