-- ==== Sys2Proof/Machine/Agents.lean ====
section
/-! DEFINITION. The agents: which are enabled (20_memory.md R56), which one moves (log 4), and what its step does: a host
command or a DELAY poll (30_encoding.md R75, 41_clock.md R130), a counter step, a service. -/

namespace Sys2Proof.Machine

/-- Has the host something to do: a next command, or a DELAY in progress (R56)? DESIGN CHOICE: a partial access, which R52
says is no command, counts as the host's next command here, so the host is enabled and its turn is refused (log 19: safe for
runs, unsafe for a claim that such a host is enabled). -/
def State.hostHasWork (s : State) : Bool := !s.hostCmds.isEmpty || s.dly.active

/-- An unmasked pending interrupt has waited LAT_MAX counter steps (R56). -/
def State.latencyReached (s : State) : Bool :=
  (s.ovfEff && s.lat.ovfAge == s.cfg.latMax) || (s.cmpEff && s.lat.cmpAge == s.cfg.latMax)

/-- Enabledness, line by line as in R56. -/
def State.enabled (s : State) : Agent → Bool
  | .host => s.fault.isNone && !s.ovfEff && !s.cmpEff && s.hostHasWork
  | .cnt => s.fault.isNone && !s.latencyReached
  | .ovf => s.fault.isNone && s.ovfEff
  | .cmps => s.fault.isNone && s.cmpEff

/-- The enabled agents. -/
def State.enabledAgents (s : State) : List Agent := [Agent.host, .cnt, .ovf, .cmps].filter s.enabled

/-- A free choice among the enabled agents (R56: "chosen freely"). Some agent is enabled whenever no fault is recorded. -/
def State.freeTurn (s : State) : Agent × State :=
  (s.enabledAgents.getD (Config.freeAgent s.draws % s.enabledAgents.length) .cnt, { s with draws := s.draws + 1 })

/-- The agent that moves: the one the next turn names, once it is enabled; until then, and when no turn is left, a free
choice among the enabled agents (log 4). -/
def State.takeTurn (s : State) : Agent × State :=
  match s.turns with
  | a :: rest => if s.enabled a then (a, { s with turns := rest }) else s.freeTurn
  | [] => s.freeTurn

/-- A whole transaction: decode, then execute in the same step; an ILLEGAL word raises IllegalCommand and changes nothing
else (R75). -/
def issue (c : Command) (s : State) : Host.Outcome State Fault Refusal :=
  match decode c.cmd c.arg with
  | .error _ => raised (.illegalCommand c.cmd) s
  | .ok i => exec i s

/-- A step of the HOST: a poll while a DELAY is in progress, else the next command, which is consumed (R130, R75). A partial
access is refused (R52). -/
def hostStep (s : State) : Host.Outcome State Fault Refusal :=
  if s.dly.active then .next s.delayPoll
  else
    match s.hostCmds with
    | [] => .next s
    | .command c :: rest => issue c { s with hostCmds := rest }
    | .partialAccess bytes :: _ => .refused (.partialAccess bytes)

/-- The step of the agent that moves (R55). -/
def agentStep (a : Agent) (s : State) : Host.Outcome State Fault Refusal :=
  match a with
  | .host => hostStep s
  | .cnt => .next s.counterStep
  | .ovf => .next s.overflowService
  | .cmps => .next s.matchService

/-- Placing a command so that the host's is the next turn and the command the next one it issues. -/
def State.placeCommand (c : Command) (s : State) : State :=
  { s with hostCmds := .command c :: s.hostCmds, turns := .host :: s.turns }

end Sys2Proof.Machine
end

