-- ==== Sys2Proof/Machine/Step.lean ====
section
/-! DEFINITION. One step of the block: a refused configuration and a recorded fault stop it, else exactly one agent moves
(20_memory.md R55, R56). -/

namespace Sys2Proof.Machine

/-- One step. A configuration of R258 is refused as a whole; once a fault is recorded no agent is enabled (R56, R256;
logs 16 and 17). -/
def step (s : State) : Host.Outcome State Fault Refusal :=
  match s.cfg.problem with
  | some p => .refused (.illegalConfiguration p)
  | none =>
    match s.fault with
    | some f => .fault (.halted f)
    | none => agentStep s.takeTurn.1 s.takeTurn.2

/-- The table's word as the host's next command, and the host's turn next (log 7). -/
def State.withFetchWord (s : State) (nbits w : Nat) : State := s.placeCommand (tableCommand nbits w)

end Sys2Proof.Machine
end

