-- ==== Sys2Proof/Machine/Convert.lean ====
section
/-! DEFINITION. Unit conversion, evaluated before the block runs and by no step of it (40_conversion.md R100 to R107).
The arithmetic is exact, on unbounded rationals (00_scope.md R7). -/

namespace Sys2Proof

/-- How many of the unit make one second (R100). -/
def TimeUnit.perSecond : TimeUnit → Nat
  | .s => 1
  | .ms => 1000
  | .us => 1000000

/-- `dur_s`: the duration's exact value in seconds (R100). -/
def Duration.seconds (d : Duration) : Rat := (d.n : Rat) / (d.unit.perSecond : Rat)

/-- `round` of R102. -/
def Rounding.apply (r : Rounding) (x : Rat) : Int :=
  match r with
  | .nearestTiesUp => (x + 1 / 2).floor
  | .floor => x.floor
  | .ceil => x.ceil

/-- `count_exact` (R101). -/
def Config.countExact (c : Config) (d : Duration) : Rat := d.seconds * (c.fCpu : Rat) / (c.p : Rat)

/-- `conv_counts` (R102). -/
def Config.convCounts (c : Config) (d : Duration) : Nat := (c.convRound.apply (c.countExact d)).toNat

/-- `conv_ticks` (R103). -/
def Config.convTicks (c : Config) (d : Duration) : Nat :=
  (c.convRound.apply (c.countExact d / ((2 ^ c.w : Nat) : Rat))).toNat

/-- `count_overflow` (R104). -/
def Config.countOverflow (c : Config) (d : Duration) : Bool := decide (2 ^ 32 ≤ c.convCounts d)

/-- `variant`, with the delay it selects; `none` is REFUSED (R105). -/
def Config.variant (c : Config) (d : Duration) : Option (Base × Nat) :=
  if c.convCounts d < 2 ^ 31 then some (.counts, c.convCounts d)
  else if c.convTicks d < 2 ^ 31 then some (.ticks, c.convTicks d)
  else none

/-- A slot's configuration from a duration: the base is the variant's (R105, R150); REFUSED refuses the configuration
(R258). -/
def Config.slotOfDuration (c : Config) (kind : SlotKind) (d : Duration) : Except ConfigProblem SlotCfg :=
  match c.variant d with
  | some (base, delay) => .ok ⟨kind, base, BitVec.ofNat 32 delay⟩
  | none => .error .variantRefused

end Sys2Proof
end

