-- ==== Sys2Proof/Machine/Assembler.lean ====
section
/-! DEFINITION. The assembler: a source line, its checks and its expansion (30_encoding.md R78, R79), and the line's text
(R78's syntax; what the spec leaves open of it is log 15). It runs before the block does. -/

namespace Sys2Proof

/-- A source line: the syntax column of R78, then the pseudo-instructions of R79. -/
inductive AsmLine where
  | ticks
  | counts
  | micros
  | millis
  | delayC (d : Nat)
  | delayT (d : Nat)
  | perInit (n : Nat)
  | perIsNow (n : Nat)
  | dlReset (n : Nat)
  | vdlReset (n d : Nat)
  | dlIsNow (n : Nat)
  | txSend (level : Level) (d : Nat)
  | atomicEnter (mask : BitVec 2)
  | atomicExit
  | txHigh (d : Nat)
  | txLow (d : Nat)
  | txHighDur (dur : Duration)
  | txLowDur (dur : Duration)
  | delayDur (dur : Duration)
  | atomicAll
deriving DecidableEq, Repr

/-- Why a line is refused (R78, R79). -/
inductive AsmProblem where
  /-- `d < 2^31` fails. -/
  | delayRange
  /-- `d < 2^32` fails. -/
  | durationRange
  /-- `n < 16` fails. -/
  | slotField
  /-- The slot is not below NUM_SLOTS. -/
  | slotRange
  /-- The slot has the wrong kind for the command. -/
  | slotKind
  /-- A pulse duration that converts to 0, or to 2^32 or more. -/
  | pulseDuration
  /-- `variant` is REFUSED. -/
  | variantRefused
deriving DecidableEq, Repr

/-- The checks of a slot line: `n < 16`, below NUM_SLOTS, a kind the command takes (R78). -/
def Config.asmSlot (c : Config) (kinds : List SlotKind) (n : Nat) (i : Instr) : Except AsmProblem Instr :=
  if slotFits n = false then .error .slotField
  else
    match c.slotCfg[n]? with
    | none => .error .slotRange
    | some sc => if kinds.contains sc.kind then .ok i else .error .slotKind

/-- The check `d < 2^31` of R78. -/
def asmDelay (d : Nat) (i : Word → Except AsmProblem Instr) : Except AsmProblem Instr :=
  if d < 2 ^ 31 then i (BitVec.ofNat 32 d) else .error .delayRange

/-- `TX.SEND` with the check `d < 2^32` of R78. -/
def asmSend (level : Level) (d : Nat) : Except AsmProblem Instr :=
  if d < 2 ^ 32 then .ok (.txSend level (BitVec.ofNat 32 d)) else .error .durationRange

/-- `TX.HIGH.DUR` and `TX.LOW.DUR` (R79). -/
def Config.asmSendDur (c : Config) (level : Level) (dur : Duration) : Except AsmProblem Instr :=
  if c.convCounts dur = 0 ∨ 2 ^ 32 ≤ c.convCounts dur then .error .pulseDuration
  else .ok (.txSend level (BitVec.ofNat 32 (c.convCounts dur)))

/-- The command a line stands for, or why the assembler refuses it (R78, R79). -/
def Config.assembleInstr (c : Config) : AsmLine → Except AsmProblem Instr
  | .ticks => .ok .ticks
  | .counts => .ok .counts
  | .micros => .ok .micros
  | .millis => .ok .millis
  | .delayC d => asmDelay d fun v => .ok (.delay .counts v)
  | .delayT d => asmDelay d fun v => .ok (.delay .ticks v)
  | .perInit n => c.asmSlot [.periodic] n (.perInit n)
  | .perIsNow n => c.asmSlot [.periodic] n (.perIsNow n)
  | .dlReset n => c.asmSlot [.deadline] n (.dlReset n)
  | .vdlReset n d => asmDelay d fun v => c.asmSlot [.vdeadline] n (.vdlReset n v)
  | .dlIsNow n => c.asmSlot [.deadline, .vdeadline] n (.dlIsNow n)
  | .txSend level d => asmSend level d
  | .atomicEnter mask => .ok (.atomicEnter mask)
  | .atomicExit => .ok .atomicExit
  | .txHigh d => asmSend .high d
  | .txLow d => asmSend .low d
  | .txHighDur dur => c.asmSendDur .high dur
  | .txLowDur dur => c.asmSendDur .low dur
  | .delayDur dur =>
    match c.variant dur with
    | some (base, d) => .ok (.delay base (BitVec.ofNat 32 d))
    | none => .error .variantRefused
  | .atomicAll => .ok (.atomicEnter 3)

/-- The pair (CMD, ARG) a line assembles to (R78). -/
def Config.assemble (c : Config) (l : AsmLine) : Except AsmProblem Command :=
  (c.assembleInstr l).map encode

/-! ### The text of a line -/

/-- The value of a digit in base 16; letters of either case. -/
def digitValue (ch : Char) : Option Nat :=
  if '0' ≤ ch ∧ ch ≤ '9' then some (ch.toNat - '0'.toNat)
  else if 'a' ≤ ch ∧ ch ≤ 'f' then some (ch.toNat - 'a'.toNat + 10)
  else if 'A' ≤ ch ∧ ch ≤ 'F' then some (ch.toNat - 'A'.toNat + 10)
  else none

/-- The digits of a number in the given base, most significant first, onto `acc`. -/
def digitsValue (radix : Nat) (acc : Nat) : List Char → Option Nat
  | [] => some acc
  | ch :: rest =>
    match digitValue ch with
    | some v => if v < radix then digitsValue radix (acc * radix + v) rest else none
    | none => none

/-- A number, decimal or `0x` hexadecimal (R78). -/
def parseNumber : List Char → Option Nat
  | [] => none
  | '0' :: 'x' :: [] => none
  | '0' :: 'x' :: ds => digitsValue 16 0 ds
  | ds => digitsValue 10 0 ds

/-- `s<n>`, the name of slot n (R78). -/
def parseSlot : List Char → Option Nat
  | 's' :: ds => parseNumber ds
  | _ => none

/-- The unit names of R79. -/
def parseUnit (cs : List Char) : Option TimeUnit :=
  if cs = ['s'] then some .s
  else if cs = ['m', 's'] then some .ms
  else if cs = ['u', 's'] then some .us
  else none

/-- `<dur>`: a natural number with a unit, written together or as two words (R79; log 15). -/
def parseDuration : List (List Char) → Option Duration
  | [w] => do
    let n ← parseNumber (w.takeWhile fun ch => decide ('0' ≤ ch ∧ ch ≤ '9'))
    let u ← parseUnit (w.dropWhile fun ch => decide ('0' ≤ ch ∧ ch ≤ '9'))
    some ⟨n, u⟩
  | [w, u] => do
    let n ← parseNumber w
    let u ← parseUnit u
    some ⟨n, u⟩
  | _ => none

/-- The words of a line: split at spaces and tabs, a comma a word of its own. `word` is the word being read, reversed. -/
def splitWords (word : List Char) : List Char → List (List Char)
  | [] => if word.isEmpty then [] else [word.reverse]
  | ch :: rest =>
    if ch = ' ' ∨ ch = '\t' then
      if word.isEmpty then splitWords [] rest else word.reverse :: splitWords [] rest
    else if ch = ',' then
      if word.isEmpty then [','] :: splitWords [] rest else word.reverse :: [','] :: splitWords [] rest
    else splitWords (ch :: word) rest

/-- The words of a line without its comment, which starts with `;` (R78). -/
def lineWords (text : String) : List (List Char) :=
  splitWords [] (text.toList.takeWhile fun ch => decide (ch ≠ ';'))

/-- The level names of R78. -/
def parseLevel (cs : List Char) : Option Level :=
  if cs = ['H'] then some .high else if cs = ['L'] then some .low else none

/-- The mask names of R78; `OVF+CMP` is both. -/
def parseMask (cs : List Char) : Option (BitVec 2) :=
  if cs = "NONE".toList then some 0
  else if cs = "OVF".toList then some 1
  else if cs = "CMP".toList then some 2
  else if cs = "OVF+CMP".toList then some 3
  else none

/-- The line of an operation without operands. -/
def plainLine (op : String) : Option AsmLine :=
  match op with
  | "TICKS" => some .ticks
  | "COUNTS" => some .counts
  | "MICROS" => some .micros
  | "MILLIS" => some .millis
  | "ATOMIC.EXIT" => some .atomicExit
  | "ATOMIC.ALL" => some .atomicAll
  | _ => none

/-- The line of an operation whose operand is a duration with a unit. -/
def durationLine (op : String) (dur : Duration) : Option AsmLine :=
  match op with
  | "TX.HIGH.DUR" => some (.txHighDur dur)
  | "TX.LOW.DUR" => some (.txLowDur dur)
  | "DELAY.DUR" => some (.delayDur dur)
  | _ => none

/-- The line of an operation with one operand. -/
def oneOperandLine (op : String) (x : List Char) : Option AsmLine :=
  match op with
  | "DELAY.C" => (parseNumber x).map .delayC
  | "DELAY.T" => (parseNumber x).map .delayT
  | "PER.INIT" => (parseSlot x).map .perInit
  | "PER.ISNOW" => (parseSlot x).map .perIsNow
  | "DL.RESET" => (parseSlot x).map .dlReset
  | "DL.ISNOW" => (parseSlot x).map .dlIsNow
  | "TX.HIGH" => (parseNumber x).map .txHigh
  | "TX.LOW" => (parseNumber x).map .txLow
  | "ATOMIC.ENTER" => (parseMask x).map .atomicEnter
  | _ => (parseDuration [x]).bind (durationLine op)

/-- The line of an operation with two operands, a comma between them. -/
def twoOperandLine (op : String) (x y : List Char) : Option AsmLine :=
  match op with
  | "VDL.RESET" => do some (.vdlReset (← parseSlot x) (← parseNumber y))
  | "TX.SEND" => do some (.txSend (← parseLevel x) (← parseNumber y))
  | _ => none

/-- The line a text stands for; `none` where it is not of R78's or R79's syntax. -/
def parseLine (text : String) : Option AsmLine :=
  match lineWords text with
  | [op] => plainLine (String.ofList op)
  | [op, x] => oneOperandLine (String.ofList op) x
  | [op, n, u] => (parseDuration [n, u]).bind (durationLine (String.ofList op))
  | [op, x, [','], y] => twoOperandLine (String.ofList op) x y
  | _ => none

end Sys2Proof
end

