-- ==== Sys2Proof/Safety.lean ====
section
/-! DEFINITION. What counts as a sound state and as a completed run: the invariants of 10_state.md R39 with the ranges of
R21 to R31, the two named points of 20_memory.md R64, runs and executions, and the fairness of R58. -/

namespace Sys2Proof.Machine

/-- The queue is sound: its indices are in range, the live entries are pulses of non-zero duration and every other entry
is unwritten (R28, R29; R39 d, e). -/
structure State.QueueSound (s : State) : Prop where
  length : s.queue.buf.length = s.cfg.cap
  head   : s.queue.head < s.cfg.cap
  count  : s.queue.count ≤ s.cfg.cap
  live   : ∀ k, k < s.queue.count → ∃ p, s.queueEntry k = some p ∧ p.duration ≠ 0
  free   : ∀ k, s.queue.count ≤ k → k < s.cfg.cap → s.queueEntry k = none

/-- The transmitter is sound (R39 a, b, c), and while it is IDLE the output holds the idle level (R30, R208). -/
structure State.TxSound (s : State) : Prop where
  idle         : s.tx.txState = .idle →
    s.queue.count = 0 ∧ s.tx.cmpArmed = false ∧ s.tx.cmpPending = false ∧ s.tx.outLevel = s.cfg.idleLevel
  transmitting : s.tx.txState = .transmitting → s.tx.cmpArmed = !s.tx.cmpPending

/-- The invariant of the block: R39, and the ranges the state items have (R21, R24, R26, R27, R31). -/
structure State.Inv (s : State) : Prop where
  legal   : s.cfg.legal = true
  raw     : s.clock.raw.toNat < 2 ^ s.cfg.w
  ovfIe   : s.clock.ovfIe = true
  ovfAge  : s.lat.ovfAge ≤ s.cfg.latMax
  cmpAge  : s.lat.cmpAge ≤ s.cfg.latMax
  slots   : s.slots.length = s.cfg.numSlots
  queue   : s.QueueSound
  tx      : s.TxSound
  scopes  : s.mask.scopeStack.length ≤ s.cfg.scopeDepthMax

/-- `Faulted`: a fault is recorded; such a state is never final (R64, R256). -/
def State.Faulted (s : State) : Prop := s.fault ≠ none

/-- `HostDone` (R64). A partial access still to come counts as a next command, so it is false then (DESIGN CHOICE, safe
here: log 19). -/
def State.HostDone (s : State) : Prop := s.hostCmds = [] ∧ s.dly.active = false ∧ s.fault = none

/-- `TxDrained` (R64). -/
def State.TxDrained (s : State) : Prop := s.HostDone ∧ s.tx.txState = .idle

/-! ### Runs and fairness -/

/-- An endless run of the block's step function. Its host has the commands of `hostCmds` to issue and no more: a step adds
none, so in an endless run the host issues finitely many (DESIGN CHOICE, unsafe for a claim about endless runs of a host that
issues commands for ever: log 5). Such a host has its executions, `IsExecution`. -/
def IsRun (r : Nat → State) : Prop := ∀ n, step (r n) = .next (r (n + 1))

/-- One turn of an execution: the agent that steps, the commands the host comes up with, and what the step finds of the
model's own inputs (logs 4 to 6). -/
structure Turn where
  agent    : Agent
  arrivals : List HostAccess
  turns    : List Agent
  draws    : Nat
deriving DecidableEq, Repr

/-- The state an agent steps from on a turn: the block's, with the turn's inputs; the host's new commands come behind those
it has not issued yet. DESIGN CHOICE (safe): the host program is an input of the step relation (R20), and the spec does not
say whether it ends, so any commands may come on any turn, and a host may issue commands for ever or stop (log 5). -/
def State.onTurn (tn : Turn) (s : State) : State :=
  { s with hostCmds := s.hostCmds ++ tn.arrivals, turns := tn.turns, draws := tn.draws }

/-- An endless execution of the block under a schedule: on each turn one enabled agent, whichever the schedule names, makes
its step (R55, R56: "chosen freely"). Every `IsRun` is one, `IsRun.isExecution`, with no commands to come. -/
def IsExecution (r : Nat → State) (sched : Nat → Turn) : Prop :=
  ∀ n, (r n).cfg.legal = true ∧ ((r n).onTurn (sched n)).enabled (sched n).agent = true ∧
    agentStep (sched n).agent ((r n).onTurn (sched n)) = .next (r (n + 1))

/-- An agent moves on a turn. -/
def Moves (a : Agent) (sched : Nat → Turn) (n : Nat) : Prop := (sched n).agent = a

/-- Is an agent enabled but for the services that R56 puts before it, and whose wait R56 itself bounds? HOST then waits for
nothing but pending interrupts, CNT for nothing but one whose latency is reached. A host has work by the commands it holds
before the turn's own arrivals (DESIGN CHOICE, safe: log 18). -/
def State.ready (s : State) : Agent → Bool
  | .host => s.fault.isNone && s.hostHasWork
  | .cnt => s.fault.isNone
  | .ovf => s.enabled .ovf
  | .cmps => s.enabled .cmps

/-- The weak fairness of R58: CNT and HOST each move again and again while they stay enabled. The waits for a service, which
"is bounded by rule R56 instead", do not break an agent's being continuously enabled: each overflow that is not masked takes
such a wait, and R58 says that DELAY completes under this fairness (DESIGN CHOICE, unsafe where taken as a premise: log 18).
A premise a claim may take; the step function does not enforce it (log 12). It puts no bound on the counter steps between
two host steps. -/
def WeaklyFair (r : Nat → State) (sched : Nat → Turn) : Prop :=
  ∀ a, a = Agent.cnt ∨ a = Agent.host → ∀ n, (∀ m, n ≤ m → (r m).ready a = true) → ∃ m, n ≤ m ∧ Moves a sched m

/-- What a poll on this turn reads of the DELAY's base (R130). -/
def pollNow (r : Nat → State) (sched : Nat → Turn) (n : Nat) : Word :=
  (((r n).onTurn (sched n)).readBase (r n).dly.base).1

/-- "The base it reads advances" (R58), of the DELAY in progress on turn `n`: each poll's read has reached or passed every
earlier poll's (R9), and the reads never stand still for good (DEDUCED: log 18).
Polls so far apart that the base runs through half its range between them (70_reset_and_hazards.md R292) do not see it
advance, nor do reads of `ticks` while OVF is masked (R285). -/
structure BaseAdvances (r : Nat → State) (sched : Nat → Turn) (n : Nat) : Prop where
  forward : ∀ i j, n ≤ i → i ≤ j → Moves .host sched i → Moves .host sched j →
    (∀ m, n ≤ m → m ≤ j → (r m).dly.active = true) → reached (pollNow r sched j) (pollNow r sched i) = true
  moving : ∀ i w, n ≤ i → ¬ ∀ j, i ≤ j → (r j).dly.active = true ∧ (Moves .host sched j → pollNow r sched j = w)

/-! ### Sequences a claim speaks of -/

/-- `k` polls of a Periodic slot with no other step between them, and their results, oldest first. -/
def periodicPolls (slot : Nat) : Nat → State → Option (List DWord × State)
  | 0, s => some ([], s)
  | k + 1, s =>
    match exec (.perIsNow slot) s with
    | .next t => (periodicPolls slot k t).map fun (rs, u) => (t.res :: rs, u)
    | _ => none

/-- A queue operation: a write of a pulse, or a read. -/
inductive QueueOp where
  | write (p : Pulse)
  | read
deriving DecidableEq, Repr

/-- The pulses a sequence of queue operations accepted, and those it read (EMPTY results left out), each oldest first,
with the state after it. -/
def runQueue : List QueueOp → State → List Pulse × List Pulse × State
  | [], s => ([], [], s)
  | .write p :: ops, s =>
    let (ok, s') := s.qWrite p
    let (ins, outs, t) := runQueue ops s'
    (if ok then p :: ins else ins, outs, t)
  | .read :: ops, s =>
    let (p, s') := s.qRead
    let (ins, outs, t) := runQueue ops s'
    (ins, if s.queue.count = 0 then outs else p :: outs, t)

end Sys2Proof.Machine
end

