-- ==== Sys2Proof/Certificates/Slice0/Obligations.lean ====
section
/-! DEFINITION. The statements for the provers. Each docstring names the rule of spec/ the statement rests on. -/

open Sys2Proof Sys2Proof.Machine

/-! ### Encoding -/

/-- 30_encoding.md R73 to R75, 20_memory.md R51: no bit of a well-formed command is lost, in words and in the bytes of a
narrow bus, which are little-endian. That CMD's bytes come before ARG's is the model's choice (log 8). -/
def Obligations.DecodeOfEncode : Prop :=
  ∀ (i : Instr) (rest : List Byte), i.wellFormed = true →
    decode (encode i).cmd (encode i).arg = .ok i ∧ decodeBytes (encodeBytes i ++ rest) = .ok (i, rest) ∧
    littleEndian (encodeBytes i) = (encode i).cmd.toNat + 2 ^ 32 * (encode i).arg.toNat

/-- 30_encoding.md R73, R75, R76: a word that decodes is the word its command encodes to, so each command has one CMD
word; ARG is kept wherever the command uses it. -/
def Obligations.EncodeOfDecode : Prop :=
  ∀ (cmd arg : Word) (i : Instr), decode cmd arg = .ok i →
    i.wellFormed = true ∧ (encode i).cmd = cmd ∧ (i.usesArg = true → (encode i).arg = arg)

/-- 30_encoding.md R73: no word selects two rows. -/
def Obligations.RowsNeverOverlap : Prop :=
  ∀ r₁ ∈ rows, ∀ r₂ ∈ rows, ∀ w : Word, r₁.selects w = true → r₂.selects w = true → r₁ = r₂

/-- 30_encoding.md R76: the three items, each with the reason the decoder gives. -/
def Obligations.IllegalWordsRejected : Prop :=
  ∀ cmd arg : Word,
    ((∀ r ∈ rows, r.name.op ≠ cmd.toNat % 256) → decode cmd arg = .error .unassignedOp) ∧
    ((∃ r ∈ rows, r.name.op = cmd.toNat % 256) → cmd.toNat / 65536 ≠ 0 → decode cmd arg = .error .reservedBits) ∧
    (∀ r ∈ rows, r.name.op = cmd.toNat % 256 → cmd.toNat / 65536 = 0 → cmd &&& r.mask ≠ r.value →
      decode cmd arg = .error .unusedField) ∧
    (∀ r ∈ rows, r.name.op = cmd.toNat % 256 → cmd &&& r.mask = r.value → ∃ i, decode cmd arg = .ok i ∧ i.mnemonic = r.name)

/-- Words written out from 30_encoding.md R73 and the decode vectors of 95_test_vectors.md. -/
def Obligations.SpecWordsDecode : Prop :=
  decode 0x00000001#32 0 = .ok .ticks ∧ decode 0x00002005#32 7 = .ok (.delay .ticks 7) ∧
  decode 0x00000111#32 0 = .ok (.perIsNow 1) ∧ decode 0x00000213#32 3 = .ok (.vdlReset 2 3) ∧
  decode 0x00000F14#32 0 = .ok (.dlIsNow 15) ∧ decode 0x00001020#32 100 = .ok (.txSend .high 100) ∧
  decode 0x0000C030#32 0 = .ok (.atomicEnter 3) ∧ decode 0x00000031#32 0 = .ok .atomicExit ∧
  decode 0x00004031#32 0 = .error .unusedField

/-! ### A step -/

/-- 30_encoding.md R75, 20_memory.md R55: the host's turn with a whole transaction runs exactly the decoded command on the
state with that turn and that transaction used up (both are the model's own inputs: logs 4 and 5). -/
def Obligations.StepRunsDecodedCommand : Prop :=
  ∀ (s : State) (c : Command) (i : Instr) (more : List HostAccess) (rest : List Agent),
    s.cfg.legal = true → s.fault = none → s.ovfEff = false → s.cmpEff = false → s.dly.active = false →
    s.hostCmds = .command c :: more → s.turns = .host :: rest → decode c.cmd c.arg = .ok i →
      step s = exec i { s with hostCmds := more, turns := rest }

/-- The same through the fixed interface: a table word placed in a state in which the host may move is the next command
run (log 7). -/
def Obligations.PlacedWordRuns : Prop :=
  ∀ (s : State) (nbits w : Nat) (i : Instr),
    s.cfg.legal = true → s.fault = none → s.ovfEff = false → s.cmpEff = false → s.dly.active = false →
    decodeTableWord nbits w = some i → step (s.withFetchWord nbits w) = exec i s

/-- 30_encoding.md R75, R76: an illegal word records IllegalCommand with the word and makes no other change to the block.
20_memory.md R52: a partial access is refused, and the host gets no step; that it takes the host's turn is the model's choice
(log 19). `turns` and `hostCmds` are the model's own inputs (logs 4 and 5). -/
def Obligations.AccessesThatAreNoCommand : Prop :=
  ∀ (s : State) (more : List HostAccess) (rest : List Agent),
    s.cfg.legal = true → s.fault = none → s.ovfEff = false → s.cmpEff = false → s.dly.active = false →
    s.turns = .host :: rest →
    (∀ (c : Command) (e : DecodeReject), s.hostCmds = .command c :: more → decode c.cmd c.arg = .error e →
      step s = .next { s with fault := some (.illegalCommand c.cmd), hostCmds := more, turns := rest }) ∧
    (∀ bytes, s.hostCmds = .partialAccess bytes :: more → step s = .refused (.partialAccess bytes))

/-- 20_memory.md R56: HOST, CNT, OVF and CMPS are enabled exactly as its four lines say. That a partial
access counts as the host's next command is the model's choice (log 19).
`turns` and `hostCmds` are the model's own inputs (logs 4 and 5). -/
def Obligations.EnablednessOfAgents : Prop :=
  ∀ s : State,
    (s.enabled .host = true ↔ s.fault = none ∧ ¬ s.ovfEff = true ∧ ¬ s.cmpEff = true ∧
      (s.hostCmds ≠ [] ∨ s.dly.active = true)) ∧
    (s.enabled .cnt = true ↔ s.fault = none ∧ ¬ (s.ovfEff = true ∧ s.lat.ovfAge = s.cfg.latMax) ∧
      ¬ (s.cmpEff = true ∧ s.lat.cmpAge = s.cfg.latMax)) ∧
    (s.enabled .ovf = true ↔ s.fault = none ∧ s.ovfEff = true) ∧
    (s.enabled .cmps = true ↔ s.fault = none ∧ s.cmpEff = true)

/-- 20_memory.md R55, R56: every step is the step of one agent, that agent is enabled whatever the free choice, and every
enabled agent can be the one that moves ("chosen freely").
`draws` counts free values: the model's choice (log 6). `turns` and `hostCmds` are the model's own inputs (logs 4 and 5). -/
def Obligations.EnabledAgentsMove : Prop :=
  ∀ s : State, s.cfg.legal = true → s.fault = none →
    s.enabled s.takeTurn.1 = true ∧ step s = agentStep s.takeTurn.1 s.takeTurn.2 ∧
    (∃ (rest : List Agent) (n : Nat), s.takeTurn.2 = { s with turns := rest, draws := n }) ∧
    (∀ a, s.enabled a = true → step { s with turns := a :: s.turns } = agentStep a s)

/-- 20_memory.md R56, R64 and R52: without a recorded fault the block goes on; the only thing that can stop it is a host
that makes a partial access, whose turn is refused (the model's choice: log 19).
`turns` and `hostCmds` are the model's own inputs (logs 4 and 5). -/
def Obligations.UnfaultedBlockGoesOn : Prop :=
  ∀ s : State, s.cfg.legal = true → s.fault = none →
    (∀ bytes more, s.hostCmds ≠ .partialAccess bytes :: more) → ∃ t, step s = .next t

/-- 60_exceptions.md R258: exactly the configurations it lists are refused, and a refused one has no step. "A delay from
a duration whose variant is REFUSED" is `VariantFitsItsUnit`'s, and two owners of one unit cannot be written down. -/
def Obligations.RefusedConfigurations : Prop :=
  ∀ s : State,
    (s.cfg.legal = true ↔
      (s.cfg.w = 8 ∨ s.cfg.w = 16) ∧ (∃ k, s.cfg.p = 2 ^ k) ∧ s.cfg.fCpu ≠ 0 ∧ s.cfg.cap ≠ 0 ∧ s.cfg.numSlots ≤ 16 ∧
      (∀ c ∈ s.cfg.slotCfg, c.kind ≠ .vdeadline → c.delay.toNat < 2 ^ 31) ∧ s.cfg.minPulse ≠ 0 ∧
      s.cfg.latMax < 2 ^ s.cfg.w ∧ s.cfg.raceWindow ≤ 2 ^ s.cfg.w ∧ s.cfg.scopeDepthMax ≠ 0) ∧
    (s.cfg.legal = false → ∃ p, step s = .refused (.illegalConfiguration p))

/-! ### Faults and interrupts -/

/-- 60_exceptions.md R255, R256: raising a fault records its code and info and changes nothing else. -/
def Obligations.RaiseRecordsCodeAndInfo : Prop :=
  ∀ (s : State) (f : BlockFault) (w : Word) (n k : Nat),
    raised f s = .next { s with fault := some f } ∧
    (BlockFault.illegalCommand w).code = 1 ∧ (BlockFault.illegalCommand w).info = [w.toNat] ∧
    (BlockFault.slotRange n).code = 2 ∧ (BlockFault.slotRange n).info = [n] ∧
    (BlockFault.slotKind n k).code = 3 ∧ (BlockFault.slotKind n k).info = [n, k] ∧
    (BlockFault.delayRange w).code = 4 ∧ (BlockFault.delayRange w).info = [w.toNat] ∧
    (BlockFault.shortPulse w).code = 5 ∧ (BlockFault.shortPulse w).info = [w.toNat] ∧
    (BlockFault.slotUninit n).code = 6 ∧ (BlockFault.slotUninit n).info = [n] ∧
    (BlockFault.scopeOverflow n).code = 7 ∧ (BlockFault.scopeOverflow n).info = [n] ∧
    BlockFault.scopeUnderflow.code = 8 ∧ BlockFault.scopeUnderflow.info = [0] ∧
    (BlockFault.tickLost w).code = 9 ∧ (BlockFault.tickLost w).info = [w.toNat]

/-- 60_exceptions.md R256: a step that records a fault leaves every item of the block, RES among them, as it was (the host's
command and the turn, the model's own inputs, are used up: logs 4 and 5); then no agent is enabled, and step answers
Fault.halted (log 16).
`draws` counts free values: the model's choice (log 6). -/
def Obligations.FaultIsPreciseAndSticky : Prop :=
  (∀ (s t : State) (f : BlockFault), step s = .next t → t.fault = some f →
    t = { s with fault := some f, hostCmds := t.hostCmds, turns := t.turns, draws := t.draws }) ∧
  (∀ (s : State) (f : BlockFault), s.cfg.legal = true → s.fault = some f →
    (∀ a, s.enabled a = false) ∧ step s = .fault (.halted f))

/-- 60_exceptions.md R251: the two predicates, and an interrupt reaches its service exactly when it is effectively
pending and no fault is recorded; a masked pending interrupt stays pending, and lifting the mask makes it reach its service. -/
def Obligations.EffectivePending : Prop :=
  (∀ s : State,
    (s.ovfEff = true ↔ s.clock.ovfPending = true ∧ s.clock.ovfIe = true ∧ s.mask.imask.getLsbD 0 = false) ∧
    (s.cmpEff = true ↔ s.tx.cmpPending = true ∧ s.mask.imask.getLsbD 1 = false) ∧
    (s.enabled .ovf = true ↔ s.ovfEff = true ∧ s.fault = none) ∧
    (s.enabled .cmps = true ↔ s.cmpEff = true ∧ s.fault = none)) ∧
  (∀ s t : State, s.Inv → step s = .next t →
    (s.clock.ovfPending = true → s.mask.imask.getLsbD 0 = true → t.clock.ovfPending = true) ∧
    (s.tx.cmpPending = true → s.mask.imask.getLsbD 1 = true → t.tx.cmpPending = true)) ∧
  (∀ s : State, s.Inv → s.fault = none →
    (s.clock.ovfPending = true → s.mask.imask.getLsbD 0 = false → s.enabled .ovf = true) ∧
    (s.tx.cmpPending = true → s.mask.imask.getLsbD 1 = false → s.enabled .cmps = true))

/-- 60_exceptions.md R252: when both sources are effectively pending, the two orders of their services reach the same
state and the same events. -/
def Obligations.ServicesCommute : Prop :=
  ∀ s : State, s.ovfEff = true → s.cmpEff = true → s.overflowService.matchService = s.matchService.overflowService

/-- 60_exceptions.md R257: the order of a command's checks: range before kind, kind before the argument, the argument
before the slot's state, zero duration before the short pulse. -/
def Obligations.FirstFailingCheckIsReported : Prop :=
  ∀ (s : State) (slot : Nat) (d : Word) (kinds : List SlotKind) (op : Nat),
    (s.cfg.numSlots ≤ slot → s.slotCheck kinds op slot = .error (.slotRange slot)) ∧
    (∀ c, s.cfg.slotCfg[slot]? = some c →
      s.slotCheck kinds op slot = if c.kind ∈ kinds then .ok c else .error (.slotKind slot op)) ∧
    (∀ f, s.slotCheck [.periodic] 0x10 slot = .error f → exec (.perInit slot) s = .next { s with fault := some f }) ∧
    (∀ f, s.slotCheck [.periodic] 0x11 slot = .error f → exec (.perIsNow slot) s = .next { s with fault := some f }) ∧
    (∀ f, s.slotCheck [.deadline] 0x12 slot = .error f → exec (.dlReset slot) s = .next { s with fault := some f }) ∧
    (∀ f, s.slotCheck [.vdeadline] 0x13 slot = .error f → exec (.vdlReset slot d) s = .next { s with fault := some f }) ∧
    (∀ f, s.slotCheck [.deadline, .vdeadline] 0x14 slot = .error f →
      exec (.dlIsNow slot) s = .next { s with fault := some f }) ∧
    (∀ c, s.slotCheck [.vdeadline] 0x13 slot = .ok c → 2 ^ 31 ≤ d.toNat →
      exec (.vdlReset slot d) s = .next { s with fault := some (.delayRange d) }) ∧
    (∀ c, s.slotCheck [.periodic] 0x11 slot = .ok c → (s.slotAt slot).valid = false →
      exec (.perIsNow slot) s = .next { s with fault := some (.slotUninit slot) }) ∧
    (∀ c, s.slotCheck [.deadline, .vdeadline] 0x14 slot = .ok c → (s.slotAt slot).valid = false →
      exec (.dlIsNow slot) s = .next { s with fault := some (.slotUninit slot) }) ∧
    (d ≠ 0 → d.toNat < s.cfg.minPulse → ∀ level,
      exec (.txSend level d) s = .next { s with fault := some (.shortPulse d) })

/-! ### The clock -/

/-- 00_scope.md R9: the signed delta, and the test "has reached or passed". -/
def Obligations.SignedDelta : Prop :=
  ∀ a b : Word,
    sdelta a b = (if (a - b).toNat < 2 ^ 31 then ((a - b).toNat : Int) else ((a - b).toNat : Int) - 2 ^ 32) ∧
    (reached a b = true ↔ 0 ≤ sdelta a b) ∧ (reached a b = true ↔ (a - b).toNat < 2 ^ 31)

/-- 10_state.md R25: what E is, in numbers; each counter step adds exactly 1 to it, and a service leaves it unchanged. -/
def Obligations.TrueCountAdvancesByOne : Prop :=
  ∀ s : State, s.Inv →
    s.trueCount.toNat =
      ((s.clock.ticks.toNat + if s.clock.ovfPending then 1 else 0) * 2 ^ s.cfg.w + s.clock.raw.toNat) % 2 ^ 32 ∧
    (s.fault = none → s.counterStep.fault = none → s.counterStep.trueCount = s.trueCount + 1) ∧
    (s.enabled .ovf = true → s.overflowService.trueCount = s.trueCount) ∧
    (s.enabled .cmps = true → s.matchService.trueCount = s.trueCount)

/-- 41_clock.md R133: every read of counts is E or E - 2^W; the stale value only with a pending overflow or in the race
window; with no window and OVF not masked a host step reads E.
`draws` counts free values: the model's choice (log 6). -/
def Obligations.CountsErrorBound : Prop :=
  ∀ s : State, s.Inv →
    (s.readCounts.1 = s.trueCount ∨ s.readCounts.1 = s.trueCount - s.tickCounts) ∧
    (s.readCounts.1 ≠ s.trueCount →
      s.clock.ovfPending = true ∨ (s.clock.raw.toNat < s.cfg.raceWindow ∧ Config.freeStale s.draws = true)) ∧
    (s.cfg.raceWindow = 0 → s.mask.imask.getLsbD 0 = false → s.enabled .host = true → s.readCounts.1 = s.trueCount)

/-- 41_clock.md R125: TICKS completes in every state with `ticks` zero-extended in RES and nothing else changed. -/
def Obligations.TicksResult : Prop :=
  ∀ s : State, exec .ticks s = .next { s with res := s.clock.ticks.setWidth 64 }

/-- 41_clock.md R123, R126: COUNTS completes in every state; RES is the composite count, or in the race window 2^W less;
nothing of the block changes but RES.
`draws` counts free values: the model's choice (log 6). -/
def Obligations.CountsResult : Prop :=
  ∀ s : State, ∃ (v : Word) (n : Nat), exec .counts s = .next { s with res := v.setWidth 64, draws := n } ∧
    (v = (s.clock.ticks <<< s.cfg.w) ||| s.clock.raw.setWidth 32 ∨
      (s.clock.ovfPending = false ∧ s.clock.raw.toNat < s.cfg.raceWindow ∧
        v = ((s.clock.ticks <<< s.cfg.w) ||| s.clock.raw.setWidth 32) - BitVec.ofNat 32 (2 ^ s.cfg.w)))

/-- 41_clock.md R127, R128: MICROS and MILLIS complete in every state with the exact floor, mod 2^64, in RES. -/
def Obligations.MicrosAndMillisResult : Prop :=
  ∀ s : State,
    exec .micros s =
      .next { s with res := BitVec.ofNat 64 (s.clock.ticks.toNat * 2 ^ s.cfg.w * s.cfg.p * 1000000 / s.cfg.fCpu) } ∧
    exec .millis s =
      .next { s with res := BitVec.ofNat 64 (s.clock.ticks.toNat * 2 ^ s.cfg.w * s.cfg.p * 1000 / s.cfg.fCpu) }

/-- 41_clock.md R128 (corner cases): for the same state MILLIS is floor(MICROS / 1000) whenever MICROS has not wrapped. -/
def Obligations.MillisIsMicrosOverThousand : Prop :=
  ∀ s t u : State, s.clock.ticks.toNat * 2 ^ s.cfg.w * s.cfg.p * 1000000 / s.cfg.fCpu < 2 ^ 64 →
    exec .micros s = .next t → exec .millis s = .next u → u.res.toNat = t.res.toNat / 1000

/-- 41_clock.md R129: DELAY's issue: the base now, the delay and the base are held and the delay is active; a delay of
2^31 or more raises DelayRange.
`draws` counts free values: the model's choice (log 6). -/
def Obligations.DelayIssue : Prop :=
  ∀ (s : State) (base : Base) (d : Word),
    (d.toNat < 2 ^ 31 → exec (.delay base d) s =
      .next { s with dly := ⟨true, (s.readBase base).1, d, base⟩, draws := (s.readBase base).2.draws }) ∧
    (2 ^ 31 ≤ d.toNat → exec (.delay base d) s = .next { s with fault := some (.delayRange d) })

/-- 41_clock.md R130, R131: a host step while a DELAY is in progress is a poll: it completes exactly when the unsigned
difference has reached the delay, and otherwise calls the hook once, which changes nothing else.
`draws` counts free values: the model's choice (log 6). -/
def Obligations.DelayPoll : Prop :=
  ∀ s : State, s.dly.active = true →
    hostStep s = .next (if s.dly.d.toNat ≤ ((s.readBase s.dly.base).1.toNat + 2 ^ 32 - s.dly.start.toNat) % 2 ^ 32
      then { s with dly.active := false, draws := (s.readBase s.dly.base).2.draws }
      else { s with events := s.events ++ [.hook], draws := (s.readBase s.dly.base).2.draws })

/-- 41_clock.md R120: the counter step: `raw` adds one mod 2^W; a wrap sets the overflow flag; a wrap with the flag set
raises TickLost and changes nothing else. -/
def Obligations.CounterStepResult : Prop :=
  ∀ s : State, s.Inv →
    (s.clock.raw.toNat = 2 ^ s.cfg.w - 1 → s.clock.ovfPending = true →
      s.counterStep = { s with fault := some (.tickLost s.clock.ticks) }) ∧
    (s.clock.raw.toNat = 2 ^ s.cfg.w - 1 → s.clock.ovfPending = false →
      s.counterStep.clock = { s.clock with raw := 0, ovfPending := true } ∧ s.counterStep.lat.ovfAge = 0) ∧
    (s.clock.raw.toNat < 2 ^ s.cfg.w - 1 →
      s.counterStep.clock = { s.clock with raw := s.clock.raw + 1 } ∧
      s.counterStep.lat.ovfAge = if s.ovfEff then s.lat.ovfAge + 1 else s.lat.ovfAge)

/-- 41_clock.md R121: the overflow service: its guard; one tick more mod 2^32, the flag and its age cleared, nothing else
changed, no fault; and E unchanged. -/
def Obligations.OverflowServiceResult : Prop :=
  ∀ s : State,
    (s.enabled .ovf = true ↔ s.fault = none ∧ s.ovfEff = true) ∧
    s.overflowService = { s with
      clock := ⟨s.clock.raw, BitVec.ofNat 32 ((s.clock.ticks.toNat + 1) % 2 ^ 32), false, s.clock.ovfIe⟩
      lat := ⟨0, s.lat.cmpAge⟩ } ∧
    (s.enabled .ovf = true → s.overflowService.trueCount = s.trueCount)

/-- 41_clock.md R132, 10_state.md R22: `ticks` changes only in the overflow service, and only by +1. -/
def Obligations.TicksChangeOnlyInOverflowService : Prop :=
  ∀ s t : State, step s = .next t →
    t.clock.ticks = s.clock.ticks ∨
      (s.takeTurn.1 = .ovf ∧ s.enabled .ovf = true ∧ t.clock.ticks = s.clock.ticks + 1)

/-- 45_scope.md R232: while OVF is masked no step changes `ticks`; while CMP is masked no step but the host's changes the
transmitter's state, its output or the queue. -/
def Obligations.MaskedServicesCannotRun : Prop :=
  ∀ s t : State, step s = .next t →
    (s.mask.imask.getLsbD 0 = true → t.clock.ticks = s.clock.ticks) ∧
    (s.mask.imask.getLsbD 1 = true → s.takeTurn.1 ≠ .host →
      t.tx.txState = s.tx.txState ∧ t.tx.outLevel = s.tx.outLevel ∧ t.tx.target = s.tx.target ∧ t.queue = s.queue)

/-! ### Deadline slots -/

/-- 42_deadline.md R152: PER.INIT on a PERIODIC slot.
`draws` counts free values: the model's choice (log 6). -/
def Obligations.PerInitResult : Prop :=
  ∀ (s : State) (slot : Nat) (c : SlotCfg), s.cfg.slotCfg[slot]? = some c → c.kind = .periodic →
    exec (.perInit slot) s = .next { s with
      slots := s.slots.set slot ⟨(s.readBase c.base).1 + c.delay, (s.slotAt slot).elapsed, true⟩
      draws := (s.readBase c.base).2.draws }

/-- 42_deadline.md R153: PER.ISNOW on a valid PERIODIC slot: due, RES 1 and `next` on by one delay from itself; not due,
RES 0 and the slot unchanged.
`draws` counts free values: the model's choice (log 6). -/
def Obligations.PerIsNowResult : Prop :=
  ∀ (s : State) (slot : Nat) (c : SlotCfg), s.cfg.slotCfg[slot]? = some c → c.kind = .periodic →
    (s.slotAt slot).valid = true →
    (0 ≤ sdelta (s.readBase c.base).1 (s.slotAt slot).next → exec (.perIsNow slot) s = .next { s with
      slots := s.slots.set slot ⟨(s.slotAt slot).next + c.delay, (s.slotAt slot).elapsed, true⟩
      res := 1, draws := (s.readBase c.base).2.draws }) ∧
    (sdelta (s.readBase c.base).1 (s.slotAt slot).next < 0 →
      exec (.perIsNow slot) s = .next { s with res := 0, draws := (s.readBase c.base).2.draws })

/-- 42_deadline.md R154: DL.RESET on a DEADLINE slot.
`draws` counts free values: the model's choice (log 6). -/
def Obligations.DlResetResult : Prop :=
  ∀ (s : State) (slot : Nat) (c : SlotCfg), s.cfg.slotCfg[slot]? = some c → c.kind = .deadline →
    exec (.dlReset slot) s = .next { s with
      slots := s.slots.set slot ⟨(s.readBase c.base).1 + c.delay, false, true⟩
      draws := (s.readBase c.base).2.draws }

/-- 42_deadline.md R155: VDL.RESET on a VDEADLINE slot with ARG below 2^31.
`draws` counts free values: the model's choice (log 6). -/
def Obligations.VdlResetResult : Prop :=
  ∀ (s : State) (slot : Nat) (d : Word) (c : SlotCfg), s.cfg.slotCfg[slot]? = some c → c.kind = .vdeadline →
    d.toNat < 2 ^ 31 →
    exec (.vdlReset slot d) s = .next { s with
      slots := s.slots.set slot ⟨(s.readBase c.base).1 + d, false, true⟩
      draws := (s.readBase c.base).2.draws }

/-- 42_deadline.md R156: DL.ISNOW on a valid DEADLINE or VDEADLINE slot: 1 exactly once, at the poll that latches.
`draws` counts free values: the model's choice (log 6). -/
def Obligations.DlIsNowResult : Prop :=
  ∀ (s : State) (slot : Nat) (c : SlotCfg), s.cfg.slotCfg[slot]? = some c →
    c.kind = .deadline ∨ c.kind = .vdeadline → (s.slotAt slot).valid = true →
    ((s.slotAt slot).elapsed = true → exec (.dlIsNow slot) s = .next { s with res := 0 }) ∧
    ((s.slotAt slot).elapsed = false → 0 ≤ sdelta (s.readBase c.base).1 (s.slotAt slot).next →
      exec (.dlIsNow slot) s = .next { s with
        slots := s.slots.set slot ⟨(s.slotAt slot).next, true, true⟩
        res := 1, draws := (s.readBase c.base).2.draws }) ∧
    ((s.slotAt slot).elapsed = false → sdelta (s.readBase c.base).1 (s.slotAt slot).next < 0 →
      exec (.dlIsNow slot) s = .next { s with res := 0, draws := (s.readBase c.base).2.draws })

/-- 42_deadline.md R157: a slot armed at `a` with delay `d` below 2^31 is due at `now` exactly when now - a lies in
[d, d + 2^31). -/
def Obligations.FiringWindow : Prop :=
  ∀ a d now : Word, d.toNat < 2 ^ 31 →
    (reached now (a + d) = true ↔ d.toNat ≤ (now - a).toNat ∧ (now - a).toNat < d.toNat + 2 ^ 31)

/-- 42_deadline.md R158: a Periodic found k whole periods past `next`, while `now` stays fixed, answers 1 at k + 1 polls and
then 0, and `next` moves by whole delays from its own value (the phase is kept). The premise that `now` stays fixed is that each
of the k + 2 polls reads the same value: always so with base TICKS, with base COUNTS outside the race window, and inside it
exactly when the polls' draws agree (R123). `draws` counts free values: the model's choice (log 6). -/
def Obligations.PeriodicCatchUp : Prop :=
  ∀ (s : State) (slot k r : Nat) (b : Base) (d : Word), s.cfg.slotCfg[slot]? = some ⟨.periodic, b, d⟩ →
    (∀ j, j ≤ k + 1 → (State.readBase b { s with draws := s.draws + j }).1 = (s.readBase b).1) →
    slot < s.slots.length → (s.slotAt slot).valid = true → r < d.toNat →
    ((s.readBase b).1 - (s.slotAt slot).next).toNat = k * d.toNat + r → k * d.toNat + r < 2 ^ 31 →
    d.toNat < 2 ^ 31 →
    ∃ t, periodicPolls slot (k + 2) s = some (List.replicate (k + 1) 1 ++ [0], t) ∧
      (t.slotAt slot).next = (s.slotAt slot).next + BitVec.ofNat 32 ((k + 1) * d.toNat) ∧
      ∀ j, j ≤ k + 1 → ∃ rs u, periodicPolls slot j s = some (rs, u) ∧
        (u.slotAt slot).next = (s.slotAt slot).next + BitVec.ofNat 32 (j * d.toNat)

/-- 42_deadline.md R156 (corner cases), 10_state.md R27: a latched deadline stays latched until its own reset command.
`turns` and `hostCmds` are the model's own inputs (logs 4 and 5). -/
def Obligations.LatchClearedOnlyByReset : Prop :=
  ∀ (s t : State) (slot : Nat), step s = .next t → (s.slotAt slot).elapsed = true → (t.slotAt slot).elapsed = false →
    ∃ (c : Command) (more : List HostAccess), s.takeTurn.1 = .host ∧ s.hostCmds = .command c :: more ∧
      (decode c.cmd c.arg = .ok (.dlReset slot) ∨ ∃ d, decode c.cmd c.arg = .ok (.vdlReset slot d))

/-! ### The queue and the transmitter -/

/-- 43_queue.md R181: Q_WRITE on a full queue changes nothing and answers 0; otherwise the pulse goes behind the live
entries, one more is held, the other entries stay, and it answers 1. -/
def Obligations.QueueWriteResult : Prop :=
  ∀ (s : State) (p : Pulse), s.Inv →
    (s.queue.count = s.cfg.cap → s.qWrite p = (false, s)) ∧
    (s.queue.count ≠ s.cfg.cap → ∃ t, s.qWrite p = (true, t) ∧ t = { s with queue := t.queue } ∧
      t.queue.head = s.queue.head ∧ t.queue.count = s.queue.count + 1 ∧
      t.queue.buf[(s.queue.head + s.queue.count) % s.cfg.cap]? = some (some p) ∧
      (∀ j, j ≠ (s.queue.head + s.queue.count) % s.cfg.cap → t.queue.buf[j]? = s.queue.buf[j]?) ∧
      t.liveQueue = s.liveQueue ++ [some p])

/-- 43_queue.md R182: Q_READ from an empty queue answers EMPTY and changes nothing; otherwise it answers the oldest
pulse, which leaves the queue and its entry unwritten. -/
def Obligations.QueueReadResult : Prop :=
  ∀ s : State, s.Inv →
    (s.queue.count = 0 → s.qRead = (⟨.low, 0⟩, s)) ∧
    (s.queue.count ≠ 0 → ∃ p t, s.qRead = (p, t) ∧ t = { s with queue := t.queue } ∧
      s.queue.buf[s.queue.head]? = some (some p) ∧ t.queue.buf = s.queue.buf.set s.queue.head none ∧
      t.queue.head = (s.queue.head + 1) % s.cfg.cap ∧ t.queue.count = s.queue.count - 1 ∧
      s.liveQueue = some p :: t.liveQueue)

/-- 43_queue.md R185: first in, first out: from an empty queue, for every sequence of operations, the pulses read are a
prefix of the pulses accepted, in order, and what is left in the queue is the rest; a read from an empty queue is EMPTY. -/
def Obligations.QueueIsFirstInFirstOut : Prop :=
  (∀ s : State, s.queue.count = 0 → s.qRead = (Pulse.empty, s)) ∧
  ∀ (s : State) (ops : List QueueOp), s.Inv → s.queue.count = 0 →
    (∀ p, QueueOp.write p ∈ ops → p.duration ≠ 0) →
    (runQueue ops s).1.map some = (runQueue ops s).2.1.map some ++ (runQueue ops s).2.2.liveQueue

/-- 44_pulsetx.md R202: TX.SEND with duration 0 answers 0; from IDLE it drives the output and arms the first match; while
TRANSMITTING it enqueues, or answers 0 when the queue is full.
`draws` counts free values: the model's choice (log 6). -/
def Obligations.TxSendResult : Prop :=
  ∀ (s : State) (level : Level) (d : Word),
    (d = 0 → exec (.txSend level d) s = .next { s with res := 0 }) ∧
    (d ≠ 0 → s.cfg.minPulse ≤ d.toNat → s.tx.txState = .idle →
      exec (.txSend level d) s = .next { s with
        tx := ⟨.transmitting, level, s.readCounts.1 + d, true, false⟩
        res := 1
        events := s.events ++ [.out s.readCounts.1 s.trueCount level]
        draws := s.readCounts.2.draws }) ∧
    (d ≠ 0 → s.cfg.minPulse ≤ d.toNat → s.tx.txState = .transmitting →
      exec (.txSend level d) s = .next { s with
        queue := (s.qWrite ⟨level, d⟩).2.queue
        res := if s.queue.count = s.cfg.cap then 0 else 1 })

/-- 44_pulsetx.md R203, 41_clock.md R120: a counter step without a fault flags a match exactly when a match is armed and
the count it reaches equals the target in all 32 bits. -/
def Obligations.CounterStepMatches : Prop :=
  ∀ s : State, s.Inv → s.fault = none → s.counterStep.fault = none →
    (s.tx.cmpArmed = true → s.trueCount + 1 = s.tx.target →
      s.counterStep.tx = { s.tx with cmpArmed := false, cmpPending := true } ∧ s.counterStep.lat.cmpAge = 0) ∧
    (s.tx.cmpArmed = false ∨ s.trueCount + 1 ≠ s.tx.target →
      s.counterStep.tx = s.tx ∧ s.counterStep.lat.cmpAge = if s.cmpEff then s.lat.cmpAge + 1 else s.lat.cmpAge)

/-- 44_pulsetx.md R204: the compare-match service: its guard; with a pulse queued, the output takes its level and the next match is
its duration after the previous target; with none, the output goes to the idle level and nothing is armed. -/
def Obligations.MatchServiceResult : Prop :=
  ∀ s : State, s.Inv →
    (s.enabled .cmps = true ↔ s.fault = none ∧ s.cmpEff = true) ∧
    (∀ p rest, s.liveQueue = some p :: rest →
      s.matchService = { s with
        queue := s.qRead.2.queue
        tx := ⟨s.tx.txState, p.level, s.tx.target + p.duration, true, false⟩
        lat := ⟨s.lat.ovfAge, 0⟩
        events := s.events ++ [.out s.tx.target s.trueCount p.level] } ∧
      s.matchService.liveQueue = rest) ∧
    (s.liveQueue = [] →
      s.matchService = { s with
        tx := ⟨.idle, s.cfg.idleLevel, s.tx.target, false, false⟩
        lat := ⟨s.lat.ovfAge, 0⟩
        events := s.events ++ [.out s.tx.target s.trueCount s.cfg.idleLevel] })

/-- 10_state.md R28, 43_queue.md R184: the queue is written only by the host's TX.SEND and read only by the compare-match
service.
`turns` and `hostCmds` are the model's own inputs (logs 4 and 5). -/
def Obligations.QueueOwnership : Prop :=
  ∀ s t : State, step s = .next t → t.queue ≠ s.queue →
    s.takeTurn.1 = .cmps ∨
      (s.takeTurn.1 = .host ∧ s.tx.txState = .transmitting ∧ ∃ (c : Command) (more : List HostAccess) (level : Level) (d : Word),
        s.hostCmds = .command c :: more ∧ decode c.cmd c.arg = .ok (.txSend level d))

/-! ### Scopes -/

/-- 45_scope.md R230: ATOMIC.ENTER saves the mask in force and ors MASK in; it unmasks nothing; at the greatest depth it
raises ScopeOverflow. -/
def Obligations.AtomicEnterResult : Prop :=
  ∀ (s : State) (m : BitVec 2),
    (s.mask.scopeStack.length = s.cfg.scopeDepthMax →
      exec (.atomicEnter m) s = .next { s with fault := some (.scopeOverflow s.cfg.scopeDepthMax) }) ∧
    (s.mask.scopeStack.length ≠ s.cfg.scopeDepthMax →
      exec (.atomicEnter m) s =
        .next { s with mask := ⟨s.mask.imask ||| m, s.mask.scopeStack ++ [s.mask.imask]⟩ }) ∧
    (∀ j, s.mask.imask.getLsbD j = true → (s.mask.imask ||| m).getLsbD j = true)

/-- 45_scope.md R231: ATOMIC.EXIT restores the mask in force at the matching ENTER; with no open scope it raises
ScopeUnderflow; so a scope closed right after it was opened leaves the block as it was; and an interrupt left pending and
unmasked by it keeps the host out until it is serviced. -/
def Obligations.AtomicExitResult : Prop :=
  ∀ s : State,
    (s.mask.scopeStack = [] → exec .atomicExit s = .next { s with fault := some .scopeUnderflow }) ∧
    (∀ (saved : BitVec 2) (outer : List (BitVec 2)), s.mask.scopeStack = outer ++ [saved] →
      exec .atomicExit s = .next { s with mask := ⟨saved, outer⟩ }) ∧
    (∀ (m : BitVec 2) (t : State), s.mask.scopeStack.length < s.cfg.scopeDepthMax → exec (.atomicEnter m) s = .next t →
      exec .atomicExit t = .next s) ∧
    (∀ t : State, exec .atomicExit s = .next t → t.ovfEff = true ∨ t.cmpEff = true → t.enabled .host = false)

/-! ### Frames -/

/-- The four reading commands change RES and nothing else of the block (20_memory.md R53, 10_state.md R37).
`draws` counts free values: the model's choice (log 6). -/
def Obligations.ReadCommandsFrame : Prop :=
  ∀ (i : Instr) (s t : State), i ∈ [Instr.ticks, .counts, .micros, .millis] → exec i s = .next t →
    t = { s with res := t.res, draws := t.draws }

/-- The slot commands change their own slot, RES where they have a result, and the fault record (20_memory.md R53,
30_encoding.md R80); a Periodic's commands leave `elapsed` alone (10_state.md R27).
`draws` counts free values: the model's choice (log 6). -/
def Obligations.SlotCommandsFrame : Prop :=
  ∀ (i : Instr) (s t : State) (slot : Nat) (d : Word),
    i ∈ [Instr.perInit slot, .perIsNow slot, .dlReset slot, .vdlReset slot d, .dlIsNow slot] → exec i s = .next t →
    t = { s with slots := t.slots, res := t.res, fault := t.fault, draws := t.draws } ∧
    t.slots.length = s.slots.length ∧ (∀ j, j ≠ slot → t.slotAt j = s.slotAt j) ∧
    (i ∈ [Instr.perInit slot, .dlReset slot, .vdlReset slot d] → t.res = s.res) ∧
    (i ∈ [Instr.perInit slot, .perIsNow slot] → (t.slotAt slot).elapsed = (s.slotAt slot).elapsed) ∧
    (i = .dlIsNow slot → (t.slotAt slot).next = (s.slotAt slot).next ∧ (t.slotAt slot).valid = (s.slotAt slot).valid)

/-- DELAY changes the delay state and the fault record; TX.SEND the transmitter, the queue, RES, the events and the fault
record; the scope commands the mask, its stack and the fault record (20_memory.md R53, 30_encoding.md R80).
`draws` counts free values: the model's choice (log 6). -/
def Obligations.OtherCommandsFrame : Prop :=
  ∀ s t : State,
    (∀ base d, exec (.delay base d) s = .next t → t = { s with dly := t.dly, fault := t.fault, draws := t.draws }) ∧
    (∀ level d, exec (.txSend level d) s = .next t →
      t = { s with tx := t.tx, queue := t.queue, res := t.res, events := t.events, fault := t.fault, draws := t.draws } ∧
      t.queue.head = s.queue.head ∧ (s.tx.txState = .idle → t.queue = s.queue) ∧
      (s.tx.txState = .transmitting → t.tx = s.tx ∧ t.events = s.events) ∧
      ∀ j, j ≠ (s.queue.head + s.queue.count) % s.cfg.cap → t.queue.buf[j]? = s.queue.buf[j]?) ∧
    (∀ m, exec (.atomicEnter m) s = .next t ∨ exec .atomicExit s = .next t →
      t = { s with mask := t.mask, fault := t.fault })

/-- What the counter step and the two services leave alone (10_state.md R36, the columns CNT, OVF and CMPS). -/
def Obligations.AgentStepsFrame : Prop :=
  ∀ s : State,
    s.counterStep = { s with
      clock := ⟨s.counterStep.clock.raw, s.clock.ticks, s.counterStep.clock.ovfPending, s.clock.ovfIe⟩
      lat := s.counterStep.lat
      tx := ⟨s.tx.txState, s.tx.outLevel, s.tx.target, s.counterStep.tx.cmpArmed, s.counterStep.tx.cmpPending⟩
      fault := s.counterStep.fault } ∧
    s.overflowService = { s with
      clock := ⟨s.clock.raw, s.overflowService.clock.ticks, false, s.clock.ovfIe⟩
      lat := ⟨0, s.lat.cmpAge⟩ } ∧
    s.matchService = { s with
      queue := s.matchService.queue, tx := s.matchService.tx, lat := ⟨s.lat.ovfAge, 0⟩, events := s.matchService.events }

/-- 30_encoding.md R80: how RES is written, command by command; a command that raises a fault does not write it.
20_memory.md R51: on a narrow bus RES is eight bytes, least significant first. -/
def Obligations.ResultEncoding : Prop :=
  ∀ s t : State,
    (exec .ticks s = .next t → t.res.toNat = s.clock.ticks.toNat) ∧
    (exec .counts s = .next t → t.res.toNat = s.readCounts.1.toNat) ∧
    (∀ i, exec i s = .next t → t.fault ≠ s.fault → t.res = s.res) ∧
    (∀ i slot level d, i ∈ [Instr.perIsNow slot, .dlIsNow slot, .txSend level d] → exec i s = .next t →
      t.res = 0 ∨ t.res = 1 ∨ (t.res = s.res ∧ ∃ f, t = s.raise f)) ∧
    (∀ i base slot d m, i ∈ [Instr.delay base d, .perInit slot, .dlReset slot, .vdlReset slot d, .atomicEnter m, .atomicExit] →
      exec i s = .next t → t.res = s.res) ∧
    (exec .micros s = .next t → t.res.toNat =
      s.clock.ticks.toNat * 2 ^ s.cfg.w * s.cfg.p * 1000000 / s.cfg.fCpu % 2 ^ 64) ∧
    (exec .millis s = .next t → t.res.toNat =
      s.clock.ticks.toNat * 2 ^ s.cfg.w * s.cfg.p * 1000 / s.cfg.fCpu % 2 ^ 64) ∧
    s.resBytes.length = 8 ∧ littleEndian s.resBytes = s.res.toNat

/-! ### Reset and invariants -/

/-- 70_reset_and_hazards.md R281: the reset state, for every legal outcome of its two draws. The items the spec leaves
unwritten, whose values are the model's choice (log 3), are not in it, but for the queue's entries. -/
def Obligations.ResetValues : Prop :=
  ∀ (cfg : Config) (raw : BitVec 16) (pending : Bool), raw.toNat < 2 ^ cfg.w →
    let s := State.resetWith cfg raw pending
    s.clock = ⟨raw, 0, pending, true⟩ ∧ s.lat = ⟨0, 0⟩ ∧ s.slots.length = cfg.numSlots ∧
    (∀ i, (s.slotAt i).elapsed = false ∧ (s.slotAt i).valid = false) ∧
    s.queue.buf.length = cfg.cap ∧ (∀ e ∈ s.queue.buf, e = none) ∧ s.queue.head = 0 ∧ s.queue.count = 0 ∧
    s.tx.txState = .idle ∧ s.tx.outLevel = cfg.idleLevel ∧ s.tx.cmpArmed = false ∧ s.tx.cmpPending = false ∧
    s.mask = ⟨0, []⟩ ∧ s.dly.active = false ∧ s.fault = none ∧ s.events = [] ∧ s.cfg = cfg ∧
    (pending = true → s.enabled .host = false ∧ s.enabled .ovf = true ∧ s.overflowService.clock.ticks = 1)

/-- 10_state.md R39: the invariant holds after reset, for every legal configuration and outcome of the draws. -/
def Obligations.InvAtReset : Prop :=
  ∀ (cfg : Config) (raw : BitVec 16) (pending : Bool), cfg.legal = true → raw.toNat < 2 ^ cfg.w →
    (State.resetWith cfg raw pending).Inv

/-- 10_state.md R39 with the ranges of R21 to R31: every step keeps the invariant, from every state that meets it. -/
def Obligations.StepKeepsInv : Prop :=
  ∀ s t : State, s.Inv → step s = .next t → t.Inv

/-- 00_scope.md R6, 10_state.md R35: no step changes the configuration, and the event trace only grows. -/
def Obligations.ConfigurationFixedAndTraceGrows : Prop :=
  ∀ s t : State, step s = .next t → t.cfg = s.cfg ∧ ∃ new, t.events = s.events ++ new ∧ new.length ≤ 1

/-- 70_reset_and_hazards.md R286: while OVF is not masked, no step loses a tick, from every state in which the age of a
pending overflow is the counter's distance from its wrap, and every step keeps that. The reset draw of a pending overflow
with a later counter value is not such a state (log 13). -/
def Obligations.UnmaskedOverflowLosesNoTick : Prop :=
  ∀ s t : State, s.Inv → s.mask.imask.getLsbD 0 = false → (s.clock.ovfPending = true → s.clock.raw.toNat = s.lat.ovfAge) →
    step s = .next t →
    (∀ k, t.fault ≠ some (.tickLost k)) ∧ (t.clock.ovfPending = true → t.clock.raw.toNat = t.lat.ovfAge)

/-! ### Unit conversion and the assembler -/

/-- 40_conversion.md R101 to R103: under the default rounding, conversion is rounding to nearest with ties up in whole
numbers; and FLOOR and CEIL are the two named alternatives. -/
def Obligations.ConversionInWholeNumbers : Prop :=
  ∀ (c : Config) (d : Duration), c.legal = true →
    let num := d.n * c.fCpu
    let den := d.unit.perSecond * c.p
    (c.convRound = .nearestTiesUp → c.convCounts d = (2 * num + den) / (2 * den) ∧
      c.convTicks d = (2 * num + den * 2 ^ c.w) / (2 * (den * 2 ^ c.w))) ∧
    (c.convRound = .floor → c.convCounts d = num / den ∧ c.convTicks d = num / (den * 2 ^ c.w)) ∧
    (c.convRound = .ceil → c.convCounts d = (num + den - 1) / den ∧
      c.convTicks d = (num + den * 2 ^ c.w - 1) / (den * 2 ^ c.w))

/-- 40_conversion.md R105, 42_deadline.md R150: the delay a duration gives a slot is below 2^31 in its unit, COUNTS is
taken whenever it can be, and otherwise the configuration is refused. -/
def Obligations.VariantFitsItsUnit : Prop :=
  ∀ (c : Config) (kind : SlotKind) (d : Duration),
    (∀ sc, c.slotOfDuration kind d = .ok sc →
      sc.kind = kind ∧ sc.delay.toNat < 2 ^ 31 ∧
      (sc.base = .counts → sc.delay.toNat = c.convCounts d) ∧
      (sc.base = .ticks → 2 ^ 31 ≤ c.convCounts d ∧ sc.delay.toNat = c.convTicks d)) ∧
    (c.slotOfDuration kind d = .error .variantRefused ↔ 2 ^ 31 ≤ c.convCounts d ∧ 2 ^ 31 ≤ c.convTicks d)

/-- 30_encoding.md R78, R79: a line the assembler accepts decodes to the command it stands for, and that command raises
no SlotRange, SlotKind or DelayRange under the same configuration. -/
def Obligations.AssembledLinesPassTheirChecks : Prop :=
  ∀ (l : AsmLine) (s : State) (cmd : Command), s.fault = none → s.cfg.assemble l = .ok cmd →
    ∃ i t, s.cfg.assembleInstr l = .ok i ∧ decode cmd.cmd cmd.arg = .ok i ∧ exec i s = .next t ∧
      (∀ n k w, t.fault ≠ some (.slotRange n) ∧ t.fault ≠ some (.slotKind n k) ∧ t.fault ≠ some (.delayRange w))
end

