-- ==== Sys2Proof/Laws/State.lean ====
section
/-! SUPPORT. One lemma per field per named update: what each shared operation leaves of every field of the state. Proofs cite
these (they are simp lemmas) and never unfold a record update. -/

namespace Sys2Proof.Machine

variable (s : State)


/-! ### raise -/

@[simp] theorem State.raise_clock (f : BlockFault) : (s.raise f).clock = s.clock := rfl
@[simp] theorem State.raise_lat (f : BlockFault) : (s.raise f).lat = s.lat := rfl
@[simp] theorem State.raise_slots (f : BlockFault) : (s.raise f).slots = s.slots := rfl
@[simp] theorem State.raise_queue (f : BlockFault) : (s.raise f).queue = s.queue := rfl
@[simp] theorem State.raise_tx (f : BlockFault) : (s.raise f).tx = s.tx := rfl
@[simp] theorem State.raise_mask (f : BlockFault) : (s.raise f).mask = s.mask := rfl
@[simp] theorem State.raise_res (f : BlockFault) : (s.raise f).res = s.res := rfl
@[simp] theorem State.raise_dly (f : BlockFault) : (s.raise f).dly = s.dly := rfl
@[simp] theorem State.raise_fault (f : BlockFault) : (s.raise f).fault = some f := rfl
@[simp] theorem State.raise_events (f : BlockFault) : (s.raise f).events = s.events := rfl
@[simp] theorem State.raise_cfg (f : BlockFault) : (s.raise f).cfg = s.cfg := rfl
@[simp] theorem State.raise_hostCmds (f : BlockFault) : (s.raise f).hostCmds = s.hostCmds := rfl
@[simp] theorem State.raise_turns (f : BlockFault) : (s.raise f).turns = s.turns := rfl
@[simp] theorem State.raise_draws (f : BlockFault) : (s.raise f).draws = s.draws := rfl

/-! ### writeRes -/

@[simp] theorem State.writeRes_clock (v : DWord) : (s.writeRes v).clock = s.clock := rfl
@[simp] theorem State.writeRes_lat (v : DWord) : (s.writeRes v).lat = s.lat := rfl
@[simp] theorem State.writeRes_slots (v : DWord) : (s.writeRes v).slots = s.slots := rfl
@[simp] theorem State.writeRes_queue (v : DWord) : (s.writeRes v).queue = s.queue := rfl
@[simp] theorem State.writeRes_tx (v : DWord) : (s.writeRes v).tx = s.tx := rfl
@[simp] theorem State.writeRes_mask (v : DWord) : (s.writeRes v).mask = s.mask := rfl
@[simp] theorem State.writeRes_res (v : DWord) : (s.writeRes v).res = v := rfl
@[simp] theorem State.writeRes_dly (v : DWord) : (s.writeRes v).dly = s.dly := rfl
@[simp] theorem State.writeRes_fault (v : DWord) : (s.writeRes v).fault = s.fault := rfl
@[simp] theorem State.writeRes_events (v : DWord) : (s.writeRes v).events = s.events := rfl
@[simp] theorem State.writeRes_cfg (v : DWord) : (s.writeRes v).cfg = s.cfg := rfl
@[simp] theorem State.writeRes_hostCmds (v : DWord) : (s.writeRes v).hostCmds = s.hostCmds := rfl
@[simp] theorem State.writeRes_turns (v : DWord) : (s.writeRes v).turns = s.turns := rfl
@[simp] theorem State.writeRes_draws (v : DWord) : (s.writeRes v).draws = s.draws := rfl

/-! ### writeResWord -/

@[simp] theorem State.writeResWord_clock (v : Word) : (s.writeResWord v).clock = s.clock := rfl
@[simp] theorem State.writeResWord_lat (v : Word) : (s.writeResWord v).lat = s.lat := rfl
@[simp] theorem State.writeResWord_slots (v : Word) : (s.writeResWord v).slots = s.slots := rfl
@[simp] theorem State.writeResWord_queue (v : Word) : (s.writeResWord v).queue = s.queue := rfl
@[simp] theorem State.writeResWord_tx (v : Word) : (s.writeResWord v).tx = s.tx := rfl
@[simp] theorem State.writeResWord_mask (v : Word) : (s.writeResWord v).mask = s.mask := rfl
@[simp] theorem State.writeResWord_res (v : Word) : (s.writeResWord v).res = v.setWidth 64 := rfl
@[simp] theorem State.writeResWord_dly (v : Word) : (s.writeResWord v).dly = s.dly := rfl
@[simp] theorem State.writeResWord_fault (v : Word) : (s.writeResWord v).fault = s.fault := rfl
@[simp] theorem State.writeResWord_events (v : Word) : (s.writeResWord v).events = s.events := rfl
@[simp] theorem State.writeResWord_cfg (v : Word) : (s.writeResWord v).cfg = s.cfg := rfl
@[simp] theorem State.writeResWord_hostCmds (v : Word) : (s.writeResWord v).hostCmds = s.hostCmds := rfl
@[simp] theorem State.writeResWord_turns (v : Word) : (s.writeResWord v).turns = s.turns := rfl
@[simp] theorem State.writeResWord_draws (v : Word) : (s.writeResWord v).draws = s.draws := rfl

/-! ### writeResBool -/

@[simp] theorem State.writeResBool_clock (b : Bool) : (s.writeResBool b).clock = s.clock := rfl
@[simp] theorem State.writeResBool_lat (b : Bool) : (s.writeResBool b).lat = s.lat := rfl
@[simp] theorem State.writeResBool_slots (b : Bool) : (s.writeResBool b).slots = s.slots := rfl
@[simp] theorem State.writeResBool_queue (b : Bool) : (s.writeResBool b).queue = s.queue := rfl
@[simp] theorem State.writeResBool_tx (b : Bool) : (s.writeResBool b).tx = s.tx := rfl
@[simp] theorem State.writeResBool_mask (b : Bool) : (s.writeResBool b).mask = s.mask := rfl
@[simp] theorem State.writeResBool_res (b : Bool) : (s.writeResBool b).res = if b then 1 else 0 := rfl
@[simp] theorem State.writeResBool_dly (b : Bool) : (s.writeResBool b).dly = s.dly := rfl
@[simp] theorem State.writeResBool_fault (b : Bool) : (s.writeResBool b).fault = s.fault := rfl
@[simp] theorem State.writeResBool_events (b : Bool) : (s.writeResBool b).events = s.events := rfl
@[simp] theorem State.writeResBool_cfg (b : Bool) : (s.writeResBool b).cfg = s.cfg := rfl
@[simp] theorem State.writeResBool_hostCmds (b : Bool) : (s.writeResBool b).hostCmds = s.hostCmds := rfl
@[simp] theorem State.writeResBool_turns (b : Bool) : (s.writeResBool b).turns = s.turns := rfl
@[simp] theorem State.writeResBool_draws (b : Bool) : (s.writeResBool b).draws = s.draws := rfl

/-! ### emit -/

@[simp] theorem State.emit_clock (e : Event) : (s.emit e).clock = s.clock := rfl
@[simp] theorem State.emit_lat (e : Event) : (s.emit e).lat = s.lat := rfl
@[simp] theorem State.emit_slots (e : Event) : (s.emit e).slots = s.slots := rfl
@[simp] theorem State.emit_queue (e : Event) : (s.emit e).queue = s.queue := rfl
@[simp] theorem State.emit_tx (e : Event) : (s.emit e).tx = s.tx := rfl
@[simp] theorem State.emit_mask (e : Event) : (s.emit e).mask = s.mask := rfl
@[simp] theorem State.emit_res (e : Event) : (s.emit e).res = s.res := rfl
@[simp] theorem State.emit_dly (e : Event) : (s.emit e).dly = s.dly := rfl
@[simp] theorem State.emit_fault (e : Event) : (s.emit e).fault = s.fault := rfl
@[simp] theorem State.emit_events (e : Event) : (s.emit e).events = s.events ++ [e] := rfl
@[simp] theorem State.emit_cfg (e : Event) : (s.emit e).cfg = s.cfg := rfl
@[simp] theorem State.emit_hostCmds (e : Event) : (s.emit e).hostCmds = s.hostCmds := rfl
@[simp] theorem State.emit_turns (e : Event) : (s.emit e).turns = s.turns := rfl
@[simp] theorem State.emit_draws (e : Event) : (s.emit e).draws = s.draws := rfl

/-! ### setOutput -/

@[simp] theorem State.setOutput_clock (l : Level) (t : Word) : (s.setOutput l t).clock = s.clock := rfl
@[simp] theorem State.setOutput_lat (l : Level) (t : Word) : (s.setOutput l t).lat = s.lat := rfl
@[simp] theorem State.setOutput_slots (l : Level) (t : Word) : (s.setOutput l t).slots = s.slots := rfl
@[simp] theorem State.setOutput_queue (l : Level) (t : Word) : (s.setOutput l t).queue = s.queue := rfl
@[simp] theorem State.setOutput_tx (l : Level) (t : Word) : (s.setOutput l t).tx = { s.tx with outLevel := l } := rfl
@[simp] theorem State.setOutput_mask (l : Level) (t : Word) : (s.setOutput l t).mask = s.mask := rfl
@[simp] theorem State.setOutput_res (l : Level) (t : Word) : (s.setOutput l t).res = s.res := rfl
@[simp] theorem State.setOutput_dly (l : Level) (t : Word) : (s.setOutput l t).dly = s.dly := rfl
@[simp] theorem State.setOutput_fault (l : Level) (t : Word) : (s.setOutput l t).fault = s.fault := rfl
@[simp] theorem State.setOutput_events (l : Level) (t : Word) : (s.setOutput l t).events = s.events ++ [.out t s.trueCount l] := rfl
@[simp] theorem State.setOutput_cfg (l : Level) (t : Word) : (s.setOutput l t).cfg = s.cfg := rfl
@[simp] theorem State.setOutput_hostCmds (l : Level) (t : Word) : (s.setOutput l t).hostCmds = s.hostCmds := rfl
@[simp] theorem State.setOutput_turns (l : Level) (t : Word) : (s.setOutput l t).turns = s.turns := rfl
@[simp] theorem State.setOutput_draws (l : Level) (t : Word) : (s.setOutput l t).draws = s.draws := rfl

/-! ### setSlot -/

@[simp] theorem State.setSlot_clock (i : Nat) (v : Slot) : (s.setSlot i v).clock = s.clock := rfl
@[simp] theorem State.setSlot_lat (i : Nat) (v : Slot) : (s.setSlot i v).lat = s.lat := rfl
@[simp] theorem State.setSlot_slots (i : Nat) (v : Slot) : (s.setSlot i v).slots = s.slots.set i v := rfl
@[simp] theorem State.setSlot_queue (i : Nat) (v : Slot) : (s.setSlot i v).queue = s.queue := rfl
@[simp] theorem State.setSlot_tx (i : Nat) (v : Slot) : (s.setSlot i v).tx = s.tx := rfl
@[simp] theorem State.setSlot_mask (i : Nat) (v : Slot) : (s.setSlot i v).mask = s.mask := rfl
@[simp] theorem State.setSlot_res (i : Nat) (v : Slot) : (s.setSlot i v).res = s.res := rfl
@[simp] theorem State.setSlot_dly (i : Nat) (v : Slot) : (s.setSlot i v).dly = s.dly := rfl
@[simp] theorem State.setSlot_fault (i : Nat) (v : Slot) : (s.setSlot i v).fault = s.fault := rfl
@[simp] theorem State.setSlot_events (i : Nat) (v : Slot) : (s.setSlot i v).events = s.events := rfl
@[simp] theorem State.setSlot_cfg (i : Nat) (v : Slot) : (s.setSlot i v).cfg = s.cfg := rfl
@[simp] theorem State.setSlot_hostCmds (i : Nat) (v : Slot) : (s.setSlot i v).hostCmds = s.hostCmds := rfl
@[simp] theorem State.setSlot_turns (i : Nat) (v : Slot) : (s.setSlot i v).turns = s.turns := rfl
@[simp] theorem State.setSlot_draws (i : Nat) (v : Slot) : (s.setSlot i v).draws = s.draws := rfl

/-! ### arm -/

@[simp] theorem State.arm_clock (t : Word) : (s.arm t).clock = s.clock := rfl
@[simp] theorem State.arm_lat (t : Word) : (s.arm t).lat = s.lat := rfl
@[simp] theorem State.arm_slots (t : Word) : (s.arm t).slots = s.slots := rfl
@[simp] theorem State.arm_queue (t : Word) : (s.arm t).queue = s.queue := rfl
@[simp] theorem State.arm_tx (t : Word) : (s.arm t).tx = { s.tx with target := t, cmpArmed := true } := rfl
@[simp] theorem State.arm_mask (t : Word) : (s.arm t).mask = s.mask := rfl
@[simp] theorem State.arm_res (t : Word) : (s.arm t).res = s.res := rfl
@[simp] theorem State.arm_dly (t : Word) : (s.arm t).dly = s.dly := rfl
@[simp] theorem State.arm_fault (t : Word) : (s.arm t).fault = s.fault := rfl
@[simp] theorem State.arm_events (t : Word) : (s.arm t).events = s.events := rfl
@[simp] theorem State.arm_cfg (t : Word) : (s.arm t).cfg = s.cfg := rfl
@[simp] theorem State.arm_hostCmds (t : Word) : (s.arm t).hostCmds = s.hostCmds := rfl
@[simp] theorem State.arm_turns (t : Word) : (s.arm t).turns = s.turns := rfl
@[simp] theorem State.arm_draws (t : Word) : (s.arm t).draws = s.draws := rfl

/-! ### drawStale -/

@[simp] theorem State.drawStale_clock : (s.drawStale.2).clock = s.clock := rfl
@[simp] theorem State.drawStale_lat : (s.drawStale.2).lat = s.lat := rfl
@[simp] theorem State.drawStale_slots : (s.drawStale.2).slots = s.slots := rfl
@[simp] theorem State.drawStale_queue : (s.drawStale.2).queue = s.queue := rfl
@[simp] theorem State.drawStale_tx : (s.drawStale.2).tx = s.tx := rfl
@[simp] theorem State.drawStale_mask : (s.drawStale.2).mask = s.mask := rfl
@[simp] theorem State.drawStale_res : (s.drawStale.2).res = s.res := rfl
@[simp] theorem State.drawStale_dly : (s.drawStale.2).dly = s.dly := rfl
@[simp] theorem State.drawStale_fault : (s.drawStale.2).fault = s.fault := rfl
@[simp] theorem State.drawStale_events : (s.drawStale.2).events = s.events := rfl
@[simp] theorem State.drawStale_cfg : (s.drawStale.2).cfg = s.cfg := rfl
@[simp] theorem State.drawStale_hostCmds : (s.drawStale.2).hostCmds = s.hostCmds := rfl
@[simp] theorem State.drawStale_turns : (s.drawStale.2).turns = s.turns := rfl
@[simp] theorem State.drawStale_draws : (s.drawStale.2).draws = s.draws + 1 := rfl

/-! ### readCounts -/

@[simp] theorem State.readCounts_clock : (s.readCounts.2).clock = s.clock := by unfold State.readCounts; split <;> rfl
@[simp] theorem State.readCounts_lat : (s.readCounts.2).lat = s.lat := by unfold State.readCounts; split <;> rfl
@[simp] theorem State.readCounts_slots : (s.readCounts.2).slots = s.slots := by unfold State.readCounts; split <;> rfl
@[simp] theorem State.readCounts_queue : (s.readCounts.2).queue = s.queue := by unfold State.readCounts; split <;> rfl
@[simp] theorem State.readCounts_tx : (s.readCounts.2).tx = s.tx := by unfold State.readCounts; split <;> rfl
@[simp] theorem State.readCounts_mask : (s.readCounts.2).mask = s.mask := by unfold State.readCounts; split <;> rfl
@[simp] theorem State.readCounts_res : (s.readCounts.2).res = s.res := by unfold State.readCounts; split <;> rfl
@[simp] theorem State.readCounts_dly : (s.readCounts.2).dly = s.dly := by unfold State.readCounts; split <;> rfl
@[simp] theorem State.readCounts_fault : (s.readCounts.2).fault = s.fault := by unfold State.readCounts; split <;> rfl
@[simp] theorem State.readCounts_events : (s.readCounts.2).events = s.events := by unfold State.readCounts; split <;> rfl
@[simp] theorem State.readCounts_cfg : (s.readCounts.2).cfg = s.cfg := by unfold State.readCounts; split <;> rfl
@[simp] theorem State.readCounts_hostCmds : (s.readCounts.2).hostCmds = s.hostCmds := by unfold State.readCounts; split <;> rfl
@[simp] theorem State.readCounts_turns : (s.readCounts.2).turns = s.turns := by unfold State.readCounts; split <;> rfl

/-! ### readBase -/

@[simp] theorem State.readBase_clock (b : Base) : ((s.readBase b).2).clock = s.clock := by cases b <;> simp [State.readBase]
@[simp] theorem State.readBase_lat (b : Base) : ((s.readBase b).2).lat = s.lat := by cases b <;> simp [State.readBase]
@[simp] theorem State.readBase_slots (b : Base) : ((s.readBase b).2).slots = s.slots := by cases b <;> simp [State.readBase]
@[simp] theorem State.readBase_queue (b : Base) : ((s.readBase b).2).queue = s.queue := by cases b <;> simp [State.readBase]
@[simp] theorem State.readBase_tx (b : Base) : ((s.readBase b).2).tx = s.tx := by cases b <;> simp [State.readBase]
@[simp] theorem State.readBase_mask (b : Base) : ((s.readBase b).2).mask = s.mask := by cases b <;> simp [State.readBase]
@[simp] theorem State.readBase_res (b : Base) : ((s.readBase b).2).res = s.res := by cases b <;> simp [State.readBase]
@[simp] theorem State.readBase_dly (b : Base) : ((s.readBase b).2).dly = s.dly := by cases b <;> simp [State.readBase]
@[simp] theorem State.readBase_fault (b : Base) : ((s.readBase b).2).fault = s.fault := by cases b <;> simp [State.readBase]
@[simp] theorem State.readBase_events (b : Base) : ((s.readBase b).2).events = s.events := by cases b <;> simp [State.readBase]
@[simp] theorem State.readBase_cfg (b : Base) : ((s.readBase b).2).cfg = s.cfg := by cases b <;> simp [State.readBase]
@[simp] theorem State.readBase_hostCmds (b : Base) : ((s.readBase b).2).hostCmds = s.hostCmds := by cases b <;> simp [State.readBase]
@[simp] theorem State.readBase_turns (b : Base) : ((s.readBase b).2).turns = s.turns := by cases b <;> simp [State.readBase]

/-! ### afterRead -/

@[simp] theorem State.afterRead_clock (c : SlotCfg) : (s.afterRead c).clock = s.clock := by simp [State.afterRead]
@[simp] theorem State.afterRead_lat (c : SlotCfg) : (s.afterRead c).lat = s.lat := by simp [State.afterRead]
@[simp] theorem State.afterRead_slots (c : SlotCfg) : (s.afterRead c).slots = s.slots := by simp [State.afterRead]
@[simp] theorem State.afterRead_queue (c : SlotCfg) : (s.afterRead c).queue = s.queue := by simp [State.afterRead]
@[simp] theorem State.afterRead_tx (c : SlotCfg) : (s.afterRead c).tx = s.tx := by simp [State.afterRead]
@[simp] theorem State.afterRead_mask (c : SlotCfg) : (s.afterRead c).mask = s.mask := by simp [State.afterRead]
@[simp] theorem State.afterRead_res (c : SlotCfg) : (s.afterRead c).res = s.res := by simp [State.afterRead]
@[simp] theorem State.afterRead_dly (c : SlotCfg) : (s.afterRead c).dly = s.dly := by simp [State.afterRead]
@[simp] theorem State.afterRead_fault (c : SlotCfg) : (s.afterRead c).fault = s.fault := by simp [State.afterRead]
@[simp] theorem State.afterRead_events (c : SlotCfg) : (s.afterRead c).events = s.events := by simp [State.afterRead]
@[simp] theorem State.afterRead_cfg (c : SlotCfg) : (s.afterRead c).cfg = s.cfg := by simp [State.afterRead]
@[simp] theorem State.afterRead_hostCmds (c : SlotCfg) : (s.afterRead c).hostCmds = s.hostCmds := by simp [State.afterRead]
@[simp] theorem State.afterRead_turns (c : SlotCfg) : (s.afterRead c).turns = s.turns := by simp [State.afterRead]

/-! ### qWrite -/

@[simp] theorem State.qWrite_clock (p : Pulse) : ((s.qWrite p).2).clock = s.clock := by unfold State.qWrite; split <;> rfl
@[simp] theorem State.qWrite_lat (p : Pulse) : ((s.qWrite p).2).lat = s.lat := by unfold State.qWrite; split <;> rfl
@[simp] theorem State.qWrite_slots (p : Pulse) : ((s.qWrite p).2).slots = s.slots := by unfold State.qWrite; split <;> rfl
@[simp] theorem State.qWrite_tx (p : Pulse) : ((s.qWrite p).2).tx = s.tx := by unfold State.qWrite; split <;> rfl
@[simp] theorem State.qWrite_mask (p : Pulse) : ((s.qWrite p).2).mask = s.mask := by unfold State.qWrite; split <;> rfl
@[simp] theorem State.qWrite_res (p : Pulse) : ((s.qWrite p).2).res = s.res := by unfold State.qWrite; split <;> rfl
@[simp] theorem State.qWrite_dly (p : Pulse) : ((s.qWrite p).2).dly = s.dly := by unfold State.qWrite; split <;> rfl
@[simp] theorem State.qWrite_fault (p : Pulse) : ((s.qWrite p).2).fault = s.fault := by unfold State.qWrite; split <;> rfl
@[simp] theorem State.qWrite_events (p : Pulse) : ((s.qWrite p).2).events = s.events := by unfold State.qWrite; split <;> rfl
@[simp] theorem State.qWrite_cfg (p : Pulse) : ((s.qWrite p).2).cfg = s.cfg := by unfold State.qWrite; split <;> rfl
@[simp] theorem State.qWrite_hostCmds (p : Pulse) : ((s.qWrite p).2).hostCmds = s.hostCmds := by unfold State.qWrite; split <;> rfl
@[simp] theorem State.qWrite_turns (p : Pulse) : ((s.qWrite p).2).turns = s.turns := by unfold State.qWrite; split <;> rfl
@[simp] theorem State.qWrite_draws (p : Pulse) : ((s.qWrite p).2).draws = s.draws := by unfold State.qWrite; split <;> rfl

/-! ### qRead -/

@[simp] theorem State.qRead_clock : (s.qRead.2).clock = s.clock := by unfold State.qRead; split <;> rfl
@[simp] theorem State.qRead_lat : (s.qRead.2).lat = s.lat := by unfold State.qRead; split <;> rfl
@[simp] theorem State.qRead_slots : (s.qRead.2).slots = s.slots := by unfold State.qRead; split <;> rfl
@[simp] theorem State.qRead_tx : (s.qRead.2).tx = s.tx := by unfold State.qRead; split <;> rfl
@[simp] theorem State.qRead_mask : (s.qRead.2).mask = s.mask := by unfold State.qRead; split <;> rfl
@[simp] theorem State.qRead_res : (s.qRead.2).res = s.res := by unfold State.qRead; split <;> rfl
@[simp] theorem State.qRead_dly : (s.qRead.2).dly = s.dly := by unfold State.qRead; split <;> rfl
@[simp] theorem State.qRead_fault : (s.qRead.2).fault = s.fault := by unfold State.qRead; split <;> rfl
@[simp] theorem State.qRead_events : (s.qRead.2).events = s.events := by unfold State.qRead; split <;> rfl
@[simp] theorem State.qRead_cfg : (s.qRead.2).cfg = s.cfg := by unfold State.qRead; split <;> rfl
@[simp] theorem State.qRead_hostCmds : (s.qRead.2).hostCmds = s.hostCmds := by unfold State.qRead; split <;> rfl
@[simp] theorem State.qRead_turns : (s.qRead.2).turns = s.turns := by unfold State.qRead; split <;> rfl
@[simp] theorem State.qRead_draws : (s.qRead.2).draws = s.draws := by unfold State.qRead; split <;> rfl

/-! ### matchCheck -/

@[simp] theorem State.matchCheck_clock : (s.matchCheck).clock = s.clock := by unfold State.matchCheck; split <;> rfl
@[simp] theorem State.matchCheck_slots : (s.matchCheck).slots = s.slots := by unfold State.matchCheck; split <;> rfl
@[simp] theorem State.matchCheck_queue : (s.matchCheck).queue = s.queue := by unfold State.matchCheck; split <;> rfl
@[simp] theorem State.matchCheck_mask : (s.matchCheck).mask = s.mask := by unfold State.matchCheck; split <;> rfl
@[simp] theorem State.matchCheck_res : (s.matchCheck).res = s.res := by unfold State.matchCheck; split <;> rfl
@[simp] theorem State.matchCheck_dly : (s.matchCheck).dly = s.dly := by unfold State.matchCheck; split <;> rfl
@[simp] theorem State.matchCheck_fault : (s.matchCheck).fault = s.fault := by unfold State.matchCheck; split <;> rfl
@[simp] theorem State.matchCheck_events : (s.matchCheck).events = s.events := by unfold State.matchCheck; split <;> rfl
@[simp] theorem State.matchCheck_cfg : (s.matchCheck).cfg = s.cfg := by unfold State.matchCheck; split <;> rfl
@[simp] theorem State.matchCheck_hostCmds : (s.matchCheck).hostCmds = s.hostCmds := by unfold State.matchCheck; split <;> rfl
@[simp] theorem State.matchCheck_turns : (s.matchCheck).turns = s.turns := by unfold State.matchCheck; split <;> rfl
@[simp] theorem State.matchCheck_draws : (s.matchCheck).draws = s.draws := by unfold State.matchCheck; split <;> rfl

/-! ### startTx -/

@[simp] theorem State.startTx_clock (l : Level) (d : Word) : (s.startTx l d).clock = s.clock := by simp [State.startTx]
@[simp] theorem State.startTx_lat (l : Level) (d : Word) : (s.startTx l d).lat = s.lat := by simp [State.startTx]
@[simp] theorem State.startTx_slots (l : Level) (d : Word) : (s.startTx l d).slots = s.slots := by simp [State.startTx]
@[simp] theorem State.startTx_queue (l : Level) (d : Word) : (s.startTx l d).queue = s.queue := by simp [State.startTx]
@[simp] theorem State.startTx_tx (l : Level) (d : Word) : (s.startTx l d).tx = ⟨.transmitting, l, s.readCounts.1 + d, true, false⟩ := by simp [State.startTx]
@[simp] theorem State.startTx_mask (l : Level) (d : Word) : (s.startTx l d).mask = s.mask := by simp [State.startTx]
@[simp] theorem State.startTx_res (l : Level) (d : Word) : (s.startTx l d).res = s.res := by simp [State.startTx]
@[simp] theorem State.startTx_dly (l : Level) (d : Word) : (s.startTx l d).dly = s.dly := by simp [State.startTx]
@[simp] theorem State.startTx_fault (l : Level) (d : Word) : (s.startTx l d).fault = s.fault := by simp [State.startTx]
@[simp] theorem State.startTx_cfg (l : Level) (d : Word) : (s.startTx l d).cfg = s.cfg := by simp [State.startTx]
@[simp] theorem State.startTx_hostCmds (l : Level) (d : Word) : (s.startTx l d).hostCmds = s.hostCmds := by simp [State.startTx]
@[simp] theorem State.startTx_turns (l : Level) (d : Word) : (s.startTx l d).turns = s.turns := by simp [State.startTx]
@[simp] theorem State.startTx_draws (l : Level) (d : Word) : (s.startTx l d).draws = s.readCounts.2.draws := by simp [State.startTx]

/-! ### delayPoll -/

@[simp] theorem State.delayPoll_clock : (s.delayPoll).clock = s.clock := by simp only [State.delayPoll]; split <;> simp
@[simp] theorem State.delayPoll_lat : (s.delayPoll).lat = s.lat := by simp only [State.delayPoll]; split <;> simp
@[simp] theorem State.delayPoll_slots : (s.delayPoll).slots = s.slots := by simp only [State.delayPoll]; split <;> simp
@[simp] theorem State.delayPoll_queue : (s.delayPoll).queue = s.queue := by simp only [State.delayPoll]; split <;> simp
@[simp] theorem State.delayPoll_tx : (s.delayPoll).tx = s.tx := by simp only [State.delayPoll]; split <;> simp
@[simp] theorem State.delayPoll_mask : (s.delayPoll).mask = s.mask := by simp only [State.delayPoll]; split <;> simp
@[simp] theorem State.delayPoll_res : (s.delayPoll).res = s.res := by simp only [State.delayPoll]; split <;> simp
@[simp] theorem State.delayPoll_fault : (s.delayPoll).fault = s.fault := by simp only [State.delayPoll]; split <;> simp
@[simp] theorem State.delayPoll_cfg : (s.delayPoll).cfg = s.cfg := by simp only [State.delayPoll]; split <;> simp
@[simp] theorem State.delayPoll_hostCmds : (s.delayPoll).hostCmds = s.hostCmds := by simp only [State.delayPoll]; split <;> simp
@[simp] theorem State.delayPoll_turns : (s.delayPoll).turns = s.turns := by simp only [State.delayPoll]; split <;> simp

/-! ### ageInterrupts -/

@[simp] theorem State.ageInterrupts_clock : (s.ageInterrupts).clock = s.clock := rfl
@[simp] theorem State.ageInterrupts_slots : (s.ageInterrupts).slots = s.slots := rfl
@[simp] theorem State.ageInterrupts_queue : (s.ageInterrupts).queue = s.queue := rfl
@[simp] theorem State.ageInterrupts_tx : (s.ageInterrupts).tx = s.tx := rfl
@[simp] theorem State.ageInterrupts_mask : (s.ageInterrupts).mask = s.mask := rfl
@[simp] theorem State.ageInterrupts_res : (s.ageInterrupts).res = s.res := rfl
@[simp] theorem State.ageInterrupts_dly : (s.ageInterrupts).dly = s.dly := rfl
@[simp] theorem State.ageInterrupts_fault : (s.ageInterrupts).fault = s.fault := rfl
@[simp] theorem State.ageInterrupts_events : (s.ageInterrupts).events = s.events := rfl
@[simp] theorem State.ageInterrupts_cfg : (s.ageInterrupts).cfg = s.cfg := rfl
@[simp] theorem State.ageInterrupts_hostCmds : (s.ageInterrupts).hostCmds = s.hostCmds := rfl
@[simp] theorem State.ageInterrupts_turns : (s.ageInterrupts).turns = s.turns := rfl
@[simp] theorem State.ageInterrupts_draws : (s.ageInterrupts).draws = s.draws := rfl

/-! ### advanceRaw -/

@[simp] theorem State.advanceRaw_slots (r : BitVec 16) : (s.advanceRaw r).slots = s.slots := by unfold State.advanceRaw; split <;> rfl
@[simp] theorem State.advanceRaw_queue (r : BitVec 16) : (s.advanceRaw r).queue = s.queue := by unfold State.advanceRaw; split <;> rfl
@[simp] theorem State.advanceRaw_tx (r : BitVec 16) : (s.advanceRaw r).tx = s.tx := by unfold State.advanceRaw; split <;> rfl
@[simp] theorem State.advanceRaw_mask (r : BitVec 16) : (s.advanceRaw r).mask = s.mask := by unfold State.advanceRaw; split <;> rfl
@[simp] theorem State.advanceRaw_res (r : BitVec 16) : (s.advanceRaw r).res = s.res := by unfold State.advanceRaw; split <;> rfl
@[simp] theorem State.advanceRaw_dly (r : BitVec 16) : (s.advanceRaw r).dly = s.dly := by unfold State.advanceRaw; split <;> rfl
@[simp] theorem State.advanceRaw_fault (r : BitVec 16) : (s.advanceRaw r).fault = s.fault := by unfold State.advanceRaw; split <;> rfl
@[simp] theorem State.advanceRaw_events (r : BitVec 16) : (s.advanceRaw r).events = s.events := by unfold State.advanceRaw; split <;> rfl
@[simp] theorem State.advanceRaw_cfg (r : BitVec 16) : (s.advanceRaw r).cfg = s.cfg := by unfold State.advanceRaw; split <;> rfl
@[simp] theorem State.advanceRaw_hostCmds (r : BitVec 16) : (s.advanceRaw r).hostCmds = s.hostCmds := by unfold State.advanceRaw; split <;> rfl
@[simp] theorem State.advanceRaw_turns (r : BitVec 16) : (s.advanceRaw r).turns = s.turns := by unfold State.advanceRaw; split <;> rfl
@[simp] theorem State.advanceRaw_draws (r : BitVec 16) : (s.advanceRaw r).draws = s.draws := by unfold State.advanceRaw; split <;> rfl

/-! ### counterStep -/

@[simp] theorem State.counterStep_slots : (s.counterStep).slots = s.slots := by unfold State.counterStep; split <;> simp
@[simp] theorem State.counterStep_queue : (s.counterStep).queue = s.queue := by unfold State.counterStep; split <;> simp
@[simp] theorem State.counterStep_mask : (s.counterStep).mask = s.mask := by unfold State.counterStep; split <;> simp
@[simp] theorem State.counterStep_res : (s.counterStep).res = s.res := by unfold State.counterStep; split <;> simp
@[simp] theorem State.counterStep_dly : (s.counterStep).dly = s.dly := by unfold State.counterStep; split <;> simp
@[simp] theorem State.counterStep_events : (s.counterStep).events = s.events := by unfold State.counterStep; split <;> simp
@[simp] theorem State.counterStep_cfg : (s.counterStep).cfg = s.cfg := by unfold State.counterStep; split <;> simp
@[simp] theorem State.counterStep_hostCmds : (s.counterStep).hostCmds = s.hostCmds := by unfold State.counterStep; split <;> simp
@[simp] theorem State.counterStep_turns : (s.counterStep).turns = s.turns := by unfold State.counterStep; split <;> simp
@[simp] theorem State.counterStep_draws : (s.counterStep).draws = s.draws := by unfold State.counterStep; split <;> simp

/-! ### overflowService -/

@[simp] theorem State.overflowService_clock : (s.overflowService).clock = ⟨s.clock.raw, s.clock.ticks + 1, false, s.clock.ovfIe⟩ := rfl
@[simp] theorem State.overflowService_lat : (s.overflowService).lat = ⟨0, s.lat.cmpAge⟩ := rfl
@[simp] theorem State.overflowService_slots : (s.overflowService).slots = s.slots := rfl
@[simp] theorem State.overflowService_queue : (s.overflowService).queue = s.queue := rfl
@[simp] theorem State.overflowService_tx : (s.overflowService).tx = s.tx := rfl
@[simp] theorem State.overflowService_mask : (s.overflowService).mask = s.mask := rfl
@[simp] theorem State.overflowService_res : (s.overflowService).res = s.res := rfl
@[simp] theorem State.overflowService_dly : (s.overflowService).dly = s.dly := rfl
@[simp] theorem State.overflowService_fault : (s.overflowService).fault = s.fault := rfl
@[simp] theorem State.overflowService_events : (s.overflowService).events = s.events := rfl
@[simp] theorem State.overflowService_cfg : (s.overflowService).cfg = s.cfg := rfl
@[simp] theorem State.overflowService_hostCmds : (s.overflowService).hostCmds = s.hostCmds := rfl
@[simp] theorem State.overflowService_turns : (s.overflowService).turns = s.turns := rfl
@[simp] theorem State.overflowService_draws : (s.overflowService).draws = s.draws := rfl

/-! ### matchService -/

@[simp] theorem State.matchService_clock : (s.matchService).clock = s.clock := by simp only [State.matchService]; split <;> simp
@[simp] theorem State.matchService_lat : (s.matchService).lat = ⟨s.lat.ovfAge, 0⟩ := by simp only [State.matchService]; split <;> simp
@[simp] theorem State.matchService_slots : (s.matchService).slots = s.slots := by simp only [State.matchService]; split <;> simp
@[simp] theorem State.matchService_queue : (s.matchService).queue = s.qRead.2.queue := by simp only [State.matchService]; split <;> simp
@[simp] theorem State.matchService_mask : (s.matchService).mask = s.mask := by simp only [State.matchService]; split <;> simp
@[simp] theorem State.matchService_res : (s.matchService).res = s.res := by simp only [State.matchService]; split <;> simp
@[simp] theorem State.matchService_dly : (s.matchService).dly = s.dly := by simp only [State.matchService]; split <;> simp
@[simp] theorem State.matchService_fault : (s.matchService).fault = s.fault := by simp only [State.matchService]; split <;> simp
@[simp] theorem State.matchService_cfg : (s.matchService).cfg = s.cfg := by simp only [State.matchService]; split <;> simp
@[simp] theorem State.matchService_hostCmds : (s.matchService).hostCmds = s.hostCmds := by simp only [State.matchService]; split <;> simp
@[simp] theorem State.matchService_turns : (s.matchService).turns = s.turns := by simp only [State.matchService]; split <;> simp
@[simp] theorem State.matchService_draws : (s.matchService).draws = s.draws := by simp only [State.matchService]; split <;> simp

/-! ### freeTurn -/

@[simp] theorem State.freeTurn_clock : (s.freeTurn.2).clock = s.clock := rfl
@[simp] theorem State.freeTurn_lat : (s.freeTurn.2).lat = s.lat := rfl
@[simp] theorem State.freeTurn_slots : (s.freeTurn.2).slots = s.slots := rfl
@[simp] theorem State.freeTurn_queue : (s.freeTurn.2).queue = s.queue := rfl
@[simp] theorem State.freeTurn_tx : (s.freeTurn.2).tx = s.tx := rfl
@[simp] theorem State.freeTurn_mask : (s.freeTurn.2).mask = s.mask := rfl
@[simp] theorem State.freeTurn_res : (s.freeTurn.2).res = s.res := rfl
@[simp] theorem State.freeTurn_dly : (s.freeTurn.2).dly = s.dly := rfl
@[simp] theorem State.freeTurn_fault : (s.freeTurn.2).fault = s.fault := rfl
@[simp] theorem State.freeTurn_events : (s.freeTurn.2).events = s.events := rfl
@[simp] theorem State.freeTurn_cfg : (s.freeTurn.2).cfg = s.cfg := rfl
@[simp] theorem State.freeTurn_hostCmds : (s.freeTurn.2).hostCmds = s.hostCmds := rfl
@[simp] theorem State.freeTurn_turns : (s.freeTurn.2).turns = s.turns := rfl

/-! ### takeTurn -/

@[simp] theorem State.takeTurn_clock : (s.takeTurn.2).clock = s.clock := by unfold State.takeTurn; split <;> (try split) <;> rfl
@[simp] theorem State.takeTurn_lat : (s.takeTurn.2).lat = s.lat := by unfold State.takeTurn; split <;> (try split) <;> rfl
@[simp] theorem State.takeTurn_slots : (s.takeTurn.2).slots = s.slots := by unfold State.takeTurn; split <;> (try split) <;> rfl
@[simp] theorem State.takeTurn_queue : (s.takeTurn.2).queue = s.queue := by unfold State.takeTurn; split <;> (try split) <;> rfl
@[simp] theorem State.takeTurn_tx : (s.takeTurn.2).tx = s.tx := by unfold State.takeTurn; split <;> (try split) <;> rfl
@[simp] theorem State.takeTurn_mask : (s.takeTurn.2).mask = s.mask := by unfold State.takeTurn; split <;> (try split) <;> rfl
@[simp] theorem State.takeTurn_res : (s.takeTurn.2).res = s.res := by unfold State.takeTurn; split <;> (try split) <;> rfl
@[simp] theorem State.takeTurn_dly : (s.takeTurn.2).dly = s.dly := by unfold State.takeTurn; split <;> (try split) <;> rfl
@[simp] theorem State.takeTurn_fault : (s.takeTurn.2).fault = s.fault := by unfold State.takeTurn; split <;> (try split) <;> rfl
@[simp] theorem State.takeTurn_events : (s.takeTurn.2).events = s.events := by unfold State.takeTurn; split <;> (try split) <;> rfl
@[simp] theorem State.takeTurn_cfg : (s.takeTurn.2).cfg = s.cfg := by unfold State.takeTurn; split <;> (try split) <;> rfl
@[simp] theorem State.takeTurn_hostCmds : (s.takeTurn.2).hostCmds = s.hostCmds := by unfold State.takeTurn; split <;> (try split) <;> rfl

/-! ### placeCommand -/

@[simp] theorem State.placeCommand_clock (c : Command) : (s.placeCommand c).clock = s.clock := rfl
@[simp] theorem State.placeCommand_lat (c : Command) : (s.placeCommand c).lat = s.lat := rfl
@[simp] theorem State.placeCommand_slots (c : Command) : (s.placeCommand c).slots = s.slots := rfl
@[simp] theorem State.placeCommand_queue (c : Command) : (s.placeCommand c).queue = s.queue := rfl
@[simp] theorem State.placeCommand_tx (c : Command) : (s.placeCommand c).tx = s.tx := rfl
@[simp] theorem State.placeCommand_mask (c : Command) : (s.placeCommand c).mask = s.mask := rfl
@[simp] theorem State.placeCommand_res (c : Command) : (s.placeCommand c).res = s.res := rfl
@[simp] theorem State.placeCommand_dly (c : Command) : (s.placeCommand c).dly = s.dly := rfl
@[simp] theorem State.placeCommand_fault (c : Command) : (s.placeCommand c).fault = s.fault := rfl
@[simp] theorem State.placeCommand_events (c : Command) : (s.placeCommand c).events = s.events := rfl
@[simp] theorem State.placeCommand_cfg (c : Command) : (s.placeCommand c).cfg = s.cfg := rfl
@[simp] theorem State.placeCommand_hostCmds (c : Command) : (s.placeCommand c).hostCmds = .command c :: s.hostCmds := rfl
@[simp] theorem State.placeCommand_turns (c : Command) : (s.placeCommand c).turns = .host :: s.turns := rfl
@[simp] theorem State.placeCommand_draws (c : Command) : (s.placeCommand c).draws = s.draws := rfl

end Sys2Proof.Machine
end

