-- ==== Sys2Proof/Laws/Bytes.lean ====
section
/-! SUPPORT. The bytes of a narrow host bus (20_memory.md R51): a value and its bytes give each other back, and the bytes stand
for the value with the least significant first. -/

namespace Sys2Proof

theorem littleEndian_append (as bs : List Byte) :
    littleEndian (as ++ bs) = littleEndian as + 256 ^ as.length * littleEndian bs := by
  induction as with
  | nil => simp [littleEndian]
  | cons a as ih => simp only [List.cons_append, littleEndian, List.length_cons, ih]; ring

@[simp] theorem bytesOfWord_length (w : Word) : (bytesOfWord w).length = 4 := rfl

@[simp] theorem bytesOfDWord_length (v : DWord) : (bytesOfDWord v).length = 8 := rfl

/-- CMD and ARG in bytes (R51). -/
theorem littleEndian_bytesOfWord (w : Word) : littleEndian (bytesOfWord w) = w.toNat := by
  have := w.isLt
  simp only [bytesOfWord, littleEndian, BitVec.extractLsb'_toNat, Nat.shiftRight_eq_div_pow]
  omega

/-- Two words in bytes, the low one first (R51). -/
theorem littleEndian_two_words (lo hi : Word) :
    littleEndian (bytesOfWord lo ++ bytesOfWord hi) = lo.toNat + 2 ^ 32 * hi.toNat := by
  rw [littleEndian_append, littleEndian_bytesOfWord, littleEndian_bytesOfWord, bytesOfWord_length]
  norm_num

/-- RES in bytes (R51). -/
theorem littleEndian_bytesOfDWord (v : DWord) : littleEndian (bytesOfDWord v) = v.toNat := by
  have := v.isLt
  rw [bytesOfDWord, littleEndian_two_words]
  simp only [BitVec.extractLsb'_toNat, Nat.shiftRight_eq_div_pow]
  omega

/-- A word read back from its bytes (R51). -/
theorem wordOfBytes_bytesOfWord (w : Word) :
    wordOfBytes (w.extractLsb' 0 8) (w.extractLsb' 8 8) (w.extractLsb' 16 8) (w.extractLsb' 24 8) = w := by
  have := w.isLt
  apply BitVec.eq_of_toNat_eq
  simp only [wordOfBytes, BitVec.toNat_append, BitVec.extractLsb'_toNat, Nat.shiftRight_eq_div_pow]
  rw [← Nat.shiftLeft_add_eq_or_of_lt (by omega), ← Nat.shiftLeft_add_eq_or_of_lt (by omega),
    ← Nat.shiftLeft_add_eq_or_of_lt (by omega)]
  simp only [Nat.shiftLeft_eq]
  omega

/-- The bytes of two words, the low one first, read back as one value of 64 bits (R51). -/
theorem dwordOfBytes_append (lo hi : Word) :
    dwordOfBytes (lo.extractLsb' 0 8) (lo.extractLsb' 8 8) (lo.extractLsb' 16 8) (lo.extractLsb' 24 8)
      (hi.extractLsb' 0 8) (hi.extractLsb' 8 8) (hi.extractLsb' 16 8) (hi.extractLsb' 24 8) = hi ++ lo := by
  rw [dwordOfBytes, wordOfBytes_bytesOfWord, wordOfBytes_bytesOfWord]

/-- RES read back from the bytes the bus carries (R51). -/
theorem Machine.State.resBytes_dwordOfBytes (s : Machine.State) :
    ∃ b0 b1 b2 b3 b4 b5 b6 b7, s.resBytes = [b0, b1, b2, b3, b4, b5, b6, b7] ∧
      dwordOfBytes b0 b1 b2 b3 b4 b5 b6 b7 = s.res := by
  refine ⟨_, _, _, _, _, _, _, _, rfl, ?_⟩
  rw [dwordOfBytes_append]
  apply BitVec.eq_of_toNat_eq
  have := s.res.isLt
  simp only [BitVec.toNat_append, BitVec.extractLsb'_toNat, Nat.shiftRight_eq_div_pow]
  rw [← Nat.shiftLeft_add_eq_or_of_lt (by omega), Nat.shiftLeft_eq]
  omega

end Sys2Proof
end

