-- ==== Sys2Proof/Laws/Ops.lean ====
section
/-! SUPPORT. What each shared operation can do, said once (00_scope.md R9; 10_state.md R25; 41_clock.md R120 to R130;
42_deadline.md R151; 43_queue.md R181, R182; 44_pulsetx.md R203, R204). Proofs cite these and do not unfold the operation. -/

namespace Sys2Proof.Machine

/-! ### Tests and counts -/

theorem reached_iff (a b : Word) : reached a b = true ↔ (a - b).toNat < 2 ^ 31 := by
  unfold reached sdelta
  rw [decide_eq_true_iff, BitVec.toInt_eq_toNat_cond]
  have := (a - b).isLt
  split <;> omega

theorem delayTooLong_iff (d : Word) : delayTooLong d = true ↔ 2 ^ 31 ≤ d.toNat := decide_eq_true_iff

theorem delayTooLong_false_iff (d : Word) : delayTooLong d = false ↔ d.toNat < 2 ^ 31 := by
  simp [delayTooLong]

/-- The composite count in numbers, for a `raw` of W bits (R25). -/
theorem compose_toNat (w : Nat) (t : Word) (raw : BitVec 16) (hw : w ≤ 16) (hr : raw.toNat < 2 ^ w) :
    (compose w t raw).toNat = (t.toNat * 2 ^ w + raw.toNat) % 2 ^ 32 := by
  have h16 : 2 ^ w ≤ 2 ^ 16 := Nat.pow_le_pow_right (by decide) hw
  have hsplit : 2 ^ 32 = 2 ^ w * 2 ^ (32 - w) := by rw [← Nat.pow_add]; congr 1; omega
  unfold compose
  rw [BitVec.toNat_or, BitVec.toNat_shiftLeft, BitVec.toNat_setWidth, Nat.mod_eq_of_lt (by omega : raw.toNat < 2 ^ 32),
    Nat.shiftLeft_eq]
  have hdvd : t.toNat * 2 ^ w % 2 ^ 32 = 2 ^ w * (t.toNat % 2 ^ (32 - w)) := by
    rw [hsplit, Nat.mul_comm t.toNat, Nat.mul_mod_mul_left]
  rw [hdvd, ← Nat.two_pow_add_eq_or_of_lt hr]
  have hlt : 2 ^ w * (t.toNat % 2 ^ (32 - w)) + raw.toNat < 2 ^ 32 := by
    have := Nat.mod_lt t.toNat (Nat.two_pow_pos (32 - w))
    calc _ < 2 ^ w * (t.toNat % 2 ^ (32 - w)) + 2 ^ w := by omega
      _ = 2 ^ w * (t.toNat % 2 ^ (32 - w) + 1) := by ring
      _ ≤ 2 ^ w * 2 ^ (32 - w) := Nat.mul_le_mul_left _ this
      _ = 2 ^ 32 := hsplit.symm
  rw [Nat.add_mod, hdvd]
  rw [Nat.mod_eq_of_lt (by omega : raw.toNat < 2 ^ 32), Nat.mod_eq_of_lt hlt]

@[simp] theorem bitWord_true : bitWord true = 1 := rfl

@[simp] theorem bitWord_false : bitWord false = 0 := rfl

/-- E depends on the clock and the configuration alone (R25). -/
theorem State.trueCount_congr {s t : State} (hc : t.clock = s.clock) (hg : t.cfg = s.cfg) : t.trueCount = s.trueCount := by
  simp [State.trueCount, hc, hg]

/-- The overflow service moves the pending overflow into `ticks`, so E stays (R121). -/
theorem State.overflowService_trueCount_of_pending (s : State) (h : s.clock.ovfPending = true) :
    s.overflowService.trueCount = s.trueCount := by
  simp [State.trueCount, h]

/-! ### Reads of the base -/

/-- What a read of counts can answer (R123). -/
theorem State.readCounts_cases (s : State) :
    (s.readCounts = (compose s.cfg.w s.clock.ticks s.clock.raw, s)) ∨
    (s.inRaceWindow = true ∧ s.readCounts =
      (if Config.freeStale s.draws then compose s.cfg.w s.clock.ticks s.clock.raw - s.tickCounts
        else compose s.cfg.w s.clock.ticks s.clock.raw, { s with draws := s.draws + 1 })) := by
  unfold State.readCounts
  by_cases h : s.inRaceWindow = true
  · right; exact ⟨h, by rw [if_pos h]; rfl⟩
  · left; rw [if_neg h]

/-- A read of the base changes nothing but the count of draws (R53). -/
theorem State.readBase_state (s : State) (b : Base) : (s.readBase b).2 = { s with draws := (s.readBase b).2.draws } := by
  cases b
  · rcases s.readCounts_cases with h | ⟨-, h⟩ <;> simp [State.readBase, h]
  · rfl

theorem State.readCounts_state (s : State) : s.readCounts.2 = { s with draws := s.readCounts.2.draws } :=
  s.readBase_state .counts

theorem State.readBase_ticks (s : State) : s.readBase .ticks = (s.clock.ticks, s) := rfl

/-! ### The slot check -/

/-- When the slot check passes (R151). -/
theorem State.slotCheck_ok_iff (s : State) (kinds : List SlotKind) (op slot : Nat) (c : SlotCfg) :
    s.slotCheck kinds op slot = .ok c ↔ s.cfg.slotCfg[slot]? = some c ∧ c.kind ∈ kinds := by
  unfold State.slotCheck
  cases h : s.cfg.slotCfg[slot]? with
  | none => simp
  | some c' =>
    simp only [List.contains_eq_mem, decide_eq_true_eq, Option.some.injEq]
    split
    · constructor
      · intro e; cases e; exact ⟨rfl, ‹_›⟩
      · rintro ⟨rfl, -⟩; rfl
    · constructor
      · intro e; cases e
      · rintro ⟨rfl, h'⟩; exact absurd h' ‹_›

/-- The faults the slot check raises (R151). -/
theorem State.slotCheck_error (s : State) (kinds : List SlotKind) (op slot : Nat) (f : BlockFault)
    (h : s.slotCheck kinds op slot = .error f) : f = .slotRange slot ∨ f = .slotKind slot op := by
  unfold State.slotCheck at h
  split at h
  · cases h; exact .inl rfl
  · split at h
    · cases h
    · cases h; exact .inr rfl

theorem State.slotAt_setSlot_ne (s : State) (i j : Nat) (v : Slot) (h : j ≠ i) : (s.setSlot i v).slotAt j = s.slotAt j := by
  simp [State.slotAt, List.getD_eq_getElem?_getD, List.getElem?_set_ne (Ne.symm h)]

theorem State.slotAt_setSlot_self (s : State) (i : Nat) (v : Slot) (h : i < s.slots.length) :
    (s.setSlot i v).slotAt i = v := by
  simp [State.slotAt, List.getD_eq_getElem?_getD, h]

theorem State.slotAt_congr {s t : State} (h : t.slots = s.slots) (i : Nat) : t.slotAt i = s.slotAt i := by
  simp [State.slotAt, h]

/-! ### The queue -/

/-- A write to the queue: nothing, or the entry behind the live ones and one more held (R181). -/
theorem State.qWrite_cases (s : State) (p : Pulse) :
    (s.queue.count = s.cfg.cap ∧ s.qWrite p = (false, s)) ∨
    (s.queue.count ≠ s.cfg.cap ∧ s.qWrite p = (true, { s with queue :=
      ⟨s.queue.buf.set (s.queueIndex s.queue.count) (some p), s.queue.head, s.queue.count + 1⟩ })) := by
  unfold State.qWrite State.queueFull
  by_cases h : s.queue.count = s.cfg.cap <;> simp [h]

/-- A read from the queue: EMPTY, or the oldest entry taken out (R182). -/
theorem State.qRead_cases (s : State) :
    (s.queue.count = 0 ∧ s.qRead = (Pulse.empty, s)) ∨
    (s.queue.count ≠ 0 ∧ s.qRead = (((s.queue.buf[s.queue.head]?).join).getD Pulse.empty, { s with queue :=
      ⟨s.queue.buf.set s.queue.head none, (s.queue.head + 1) % s.cfg.cap, s.queue.count - 1⟩ })) := by
  unfold State.qRead State.queueEmpty
  by_cases h : s.queue.count = 0 <;> simp [h]

/-! ### Agent steps -/

/-- The comparator flags a match or leaves the block alone (R203). -/
theorem State.matchCheck_cases (s : State) :
    (s.tx.cmpArmed = true ∧ s.trueCount = s.tx.target ∧ s.matchCheck =
      { s with tx.cmpArmed := false, tx.cmpPending := true, lat.cmpAge := 0 }) ∨
    ((s.tx.cmpArmed = false ∨ s.trueCount ≠ s.tx.target) ∧ s.matchCheck = s) := by
  unfold State.matchCheck
  by_cases ha : s.tx.cmpArmed = true <;> by_cases he : s.trueCount = s.tx.target <;> simp [ha, he]

/-- The counter step: TickLost, or the ages, the counter and the comparator in that order (R120). -/
theorem State.counterStep_cases (s : State) :
    (s.nextRaw = 0 ∧ s.clock.ovfPending = true ∧ s.counterStep = s.raise (.tickLost s.clock.ticks)) ∨
    (¬ (s.nextRaw = 0 ∧ s.clock.ovfPending = true) ∧
      s.counterStep = (s.ageInterrupts.advanceRaw s.nextRaw).matchCheck) := by
  unfold State.counterStep
  split
  · exact .inl ⟨‹_ ∧ _›.1, ‹_ ∧ _›.2, rfl⟩
  · exact .inr ⟨‹_›, rfl⟩

/-- A poll of a DELAY: it completes, or calls the hook (R130, R131). -/
theorem State.delayPoll_cases (s : State) :
    (s.dly.d.toNat ≤ ((s.readBase s.dly.base).1 - s.dly.start).toNat ∧
      s.delayPoll = { s with dly.active := false, draws := (s.readBase s.dly.base).2.draws }) ∨
    (((s.readBase s.dly.base).1 - s.dly.start).toNat < s.dly.d.toNat ∧
      s.delayPoll = { s with events := s.events ++ [.hook], draws := (s.readBase s.dly.base).2.draws }) := by
  unfold State.delayPoll
  dsimp only
  split
  · refine .inl ⟨‹_›, ?_⟩
    conv_lhs => rw [State.readBase_state]
  · refine .inr ⟨by omega, ?_⟩
    conv_lhs => rw [State.readBase_state]
    rfl

/-- `raw` advances by one mod 2^W (R120), in numbers. -/
theorem State.nextRaw_toNat (s : State) (hw : s.cfg.w ≤ 16) :
    s.nextRaw.toNat = (s.clock.raw.toNat + 1) % 2 ^ s.cfg.w := by
  have h16 : 2 ^ s.cfg.w ≤ 2 ^ 16 := Nat.pow_le_pow_right (by decide) hw
  have := Nat.mod_lt (s.clock.raw.toNat + 1) (Nat.two_pow_pos s.cfg.w)
  unfold State.nextRaw
  rw [BitVec.toNat_ofNat]
  exact Nat.mod_eq_of_lt (by omega)

end Sys2Proof.Machine
end

