-- ==== Sys2Proof/Laws/Commands.lean ====
section
/-! SUPPORT. One inversion lemma per command: every way its meaning can answer (41_clock.md R125 to R129; 42_deadline.md R152
to R156; 44_pulsetx.md R202; 45_scope.md R230, R231), and the two facts about all of them: every command answers a next
state, and a next state records a fault or keeps the record. -/

namespace Sys2Proof.Machine

/-- TICKS (R125). -/
theorem execTicks_eq (s : State) : execTicks s = .next { s with res := s.clock.ticks.setWidth 64 } := rfl

/-- MICROS (R127). Rewrite with this before `cases`, so that the kernel does not unfold the quotient. -/
theorem execMicros_eq (s : State) :
    execMicros s = .next { s with res := BitVec.ofNat 64 (s.elapsedUnits 1000000) } := rfl

/-- MILLIS (R128). -/
theorem execMillis_eq (s : State) : execMillis s = .next { s with res := BitVec.ofNat 64 (s.elapsedUnits 1000) } := rfl

/-- COUNTS (R126). -/
theorem execCounts_eq (s : State) :
    execCounts s = .next { s with res := s.readCounts.1.setWidth 64, draws := s.readCounts.2.draws } := by
  unfold execCounts
  dsimp only
  conv_lhs => rw [State.readCounts_state]
  rfl

/-- DELAY (R129). -/
theorem execDelay_cases (base : Base) (d : Word) (s : State) :
    (2 ^ 31 ≤ d.toNat ∧ execDelay base d s = .next (s.raise (.delayRange d))) ∨
    (d.toNat < 2 ^ 31 ∧ execDelay base d s =
      .next { s with dly := ⟨true, (s.readBase base).1, d, base⟩, draws := (s.readBase base).2.draws }) := by
  unfold execDelay
  by_cases h : delayTooLong d = true
  · exact .inl ⟨(delayTooLong_iff d).1 h, by rw [if_pos h]; rfl⟩
  · refine .inr ⟨(delayTooLong_false_iff d).1 (by simpa using h), ?_⟩
    rw [if_neg h]
    dsimp only
    conv_lhs => rw [State.readBase_state]

/-- PER.INIT (R152). -/
theorem execPerInit_cases (slot : Nat) (s : State) :
    (∃ f, s.slotCheck [.periodic] Mnemonic.perInit.op slot = .error f ∧ execPerInit slot s = .next (s.raise f)) ∨
    (∃ c, s.slotCheck [.periodic] Mnemonic.perInit.op slot = .ok c ∧ execPerInit slot s = .next { s with
      slots := s.slots.set slot ⟨(s.readBase c.base).1 + c.delay, (s.slotAt slot).elapsed, true⟩
      draws := (s.readBase c.base).2.draws }) := by
  unfold execPerInit
  cases h : s.slotCheck [.periodic] Mnemonic.perInit.op slot with
  | error f => exact .inl ⟨f, rfl, rfl⟩
  | ok c =>
    refine .inr ⟨c, rfl, ?_⟩
    dsimp only
    rw [State.afterRead, State.readBase_state]
    rfl

/-- PER.ISNOW (R153). -/
theorem execPerIsNow_cases (slot : Nat) (s : State) :
    (∃ f, s.slotCheck [.periodic] Mnemonic.perIsNow.op slot = .error f ∧ execPerIsNow slot s = .next (s.raise f)) ∨
    (∃ c, s.slotCheck [.periodic] Mnemonic.perIsNow.op slot = .ok c ∧
      (((s.slotAt slot).valid = false ∧ execPerIsNow slot s = .next (s.raise (.slotUninit slot))) ∨
       ((s.slotAt slot).valid = true ∧ reached (s.readBase c.base).1 (s.slotAt slot).next = true ∧
        execPerIsNow slot s = .next { s with
          slots := s.slots.set slot ⟨(s.slotAt slot).next + c.delay, (s.slotAt slot).elapsed, true⟩
          res := 1, draws := (s.readBase c.base).2.draws }) ∨
       ((s.slotAt slot).valid = true ∧ reached (s.readBase c.base).1 (s.slotAt slot).next = false ∧
        execPerIsNow slot s = .next { s with res := 0, draws := (s.readBase c.base).2.draws }))) := by
  unfold execPerIsNow
  cases h : s.slotCheck [.periodic] Mnemonic.perIsNow.op slot with
  | error f => exact .inl ⟨f, rfl, rfl⟩
  | ok c =>
    refine .inr ⟨c, rfl, ?_⟩
    dsimp only
    cases hv : (s.slotAt slot).valid
    · exact .inl ⟨rfl, by simp [raised]⟩
    · right
      have hb := State.readBase_state s c.base
      cases hr : reached (s.readBase c.base).1 (s.slotAt slot).next
      · refine .inr ⟨rfl, rfl, ?_⟩
        simp only [Bool.true_eq_false, Bool.false_eq_true, if_false]
        conv_lhs => rw [hb]
        rfl
      · refine .inl ⟨rfl, rfl, ?_⟩
        simp only [Bool.true_eq_false, if_false, if_true]
        conv_lhs => rw [hb]
        simp only [State.setSlot, State.writeResBool, State.writeRes]
        rfl

/-- DL.RESET (R154). -/
theorem execDlReset_cases (slot : Nat) (s : State) :
    (∃ f, s.slotCheck [.deadline] Mnemonic.dlReset.op slot = .error f ∧ execDlReset slot s = .next (s.raise f)) ∨
    (∃ c, s.slotCheck [.deadline] Mnemonic.dlReset.op slot = .ok c ∧ execDlReset slot s = .next { s with
      slots := s.slots.set slot ⟨(s.readBase c.base).1 + c.delay, false, true⟩
      draws := (s.readBase c.base).2.draws }) := by
  unfold execDlReset
  cases h : s.slotCheck [.deadline] Mnemonic.dlReset.op slot with
  | error f => exact .inl ⟨f, rfl, rfl⟩
  | ok c =>
    refine .inr ⟨c, rfl, ?_⟩
    dsimp only
    rw [State.afterRead, State.readBase_state]
    rfl

/-- VDL.RESET (R155). -/
theorem execVdlReset_cases (slot : Nat) (d : Word) (s : State) :
    (∃ f, s.slotCheck [.vdeadline] Mnemonic.vdlReset.op slot = .error f ∧ execVdlReset slot d s = .next (s.raise f)) ∨
    (∃ c, s.slotCheck [.vdeadline] Mnemonic.vdlReset.op slot = .ok c ∧
      ((2 ^ 31 ≤ d.toNat ∧ execVdlReset slot d s = .next (s.raise (.delayRange d))) ∨
       (d.toNat < 2 ^ 31 ∧ execVdlReset slot d s = .next { s with
          slots := s.slots.set slot ⟨(s.readBase c.base).1 + d, false, true⟩
          draws := (s.readBase c.base).2.draws }))) := by
  unfold execVdlReset
  cases h : s.slotCheck [.vdeadline] Mnemonic.vdlReset.op slot with
  | error f => exact .inl ⟨f, rfl, rfl⟩
  | ok c =>
    refine .inr ⟨c, rfl, ?_⟩
    dsimp only
    by_cases hd : delayTooLong d = true
    · exact .inl ⟨(delayTooLong_iff d).1 hd, by rw [if_pos hd]; rfl⟩
    · refine .inr ⟨(delayTooLong_false_iff d).1 (by simpa using hd), ?_⟩
      rw [if_neg hd, State.afterRead, State.readBase_state]
      rfl

/-- DL.ISNOW (R156). -/
theorem execDlIsNow_cases (slot : Nat) (s : State) :
    (∃ f, s.slotCheck [.deadline, .vdeadline] Mnemonic.dlIsNow.op slot = .error f ∧
      execDlIsNow slot s = .next (s.raise f)) ∨
    (∃ c, s.slotCheck [.deadline, .vdeadline] Mnemonic.dlIsNow.op slot = .ok c ∧
      (((s.slotAt slot).valid = false ∧ execDlIsNow slot s = .next (s.raise (.slotUninit slot))) ∨
       ((s.slotAt slot).valid = true ∧ (s.slotAt slot).elapsed = true ∧
        execDlIsNow slot s = .next { s with res := 0 }) ∨
       ((s.slotAt slot).valid = true ∧ (s.slotAt slot).elapsed = false ∧
        reached (s.readBase c.base).1 (s.slotAt slot).next = true ∧
        execDlIsNow slot s = .next { s with
          slots := s.slots.set slot ⟨(s.slotAt slot).next, true, true⟩
          res := 1, draws := (s.readBase c.base).2.draws }) ∨
       ((s.slotAt slot).valid = true ∧ (s.slotAt slot).elapsed = false ∧
        reached (s.readBase c.base).1 (s.slotAt slot).next = false ∧
        execDlIsNow slot s = .next { s with res := 0, draws := (s.readBase c.base).2.draws }))) := by
  unfold execDlIsNow
  cases h : s.slotCheck [.deadline, .vdeadline] Mnemonic.dlIsNow.op slot with
  | error f => exact .inl ⟨f, rfl, rfl⟩
  | ok c =>
    refine .inr ⟨c, rfl, ?_⟩
    dsimp only
    cases hv : (s.slotAt slot).valid
    · exact .inl ⟨rfl, by simp [raised]⟩
    · cases he : (s.slotAt slot).elapsed
      · have hb := State.readBase_state s c.base
        cases hr : reached (s.readBase c.base).1 (s.slotAt slot).next
        · refine .inr (.inr (.inr ⟨rfl, rfl, rfl, ?_⟩))
          simp only [Bool.true_eq_false, Bool.false_eq_true, if_false]
          conv_lhs => rw [hb]
          rfl
        · refine .inr (.inr (.inl ⟨rfl, rfl, rfl, ?_⟩))
          simp only [Bool.true_eq_false, Bool.false_eq_true, if_false, if_true]
          conv_lhs => rw [hb]
          simp only [State.setSlot, State.writeResBool, State.writeRes]
          rfl
      · exact .inr (.inl ⟨rfl, rfl, by simp [State.writeResBool, State.writeRes]⟩)

/-- TX.SEND's start of a train, whole (R202). -/
theorem State.startTx_eq (s : State) (level : Level) (d : Word) :
    s.startTx level d = { s with
      tx := ⟨.transmitting, level, s.readCounts.1 + d, true, false⟩
      events := s.events ++ [.out s.readCounts.1 s.trueCount level]
      draws := s.readCounts.2.draws } := by
  unfold State.startTx
  dsimp only
  conv_lhs => rw [State.readCounts_state]
  rfl

/-- TX.SEND (R202). -/
theorem execTxSend_cases (level : Level) (d : Word) (s : State) :
    (d = 0 ∧ execTxSend level d s = .next { s with res := 0 }) ∨
    (d ≠ 0 ∧ d.toNat < s.cfg.minPulse ∧ execTxSend level d s = .next (s.raise (.shortPulse d))) ∨
    (d ≠ 0 ∧ s.cfg.minPulse ≤ d.toNat ∧ s.tx.txState = .idle ∧ execTxSend level d s = .next { s with
      tx := ⟨.transmitting, level, s.readCounts.1 + d, true, false⟩
      res := 1
      events := s.events ++ [.out s.readCounts.1 s.trueCount level]
      draws := s.readCounts.2.draws }) ∨
    (d ≠ 0 ∧ s.cfg.minPulse ≤ d.toNat ∧ s.tx.txState = .transmitting ∧ execTxSend level d s = .next { s with
      queue := (s.qWrite ⟨level, d⟩).2.queue
      res := if (s.qWrite ⟨level, d⟩).1 then 1 else 0 }) := by
  unfold execTxSend
  by_cases h0 : d = 0
  · exact .inl ⟨h0, by rw [if_pos h0]; rfl⟩
  · rw [if_neg h0]
    by_cases hm : d.toNat < s.cfg.minPulse
    · exact .inr (.inl ⟨h0, hm, by rw [if_pos hm]; rfl⟩)
    · rw [if_neg hm]
      cases ht : s.tx.txState with
      | idle => exact .inr (.inr (.inl ⟨h0, by omega, rfl, by simp only [State.startTx_eq]; rfl⟩))
      | transmitting =>
        refine .inr (.inr (.inr ⟨h0, by omega, rfl, ?_⟩))
        dsimp only
        rcases s.qWrite_cases ⟨level, d⟩ with ⟨-, h⟩ | ⟨-, h⟩ <;> rw [h] <;> rfl

/-- ATOMIC.ENTER (R230). -/
theorem execAtomicEnter_cases (m : BitVec 2) (s : State) :
    (s.mask.scopeStack.length = s.cfg.scopeDepthMax ∧
      execAtomicEnter m s = .next (s.raise (.scopeOverflow s.cfg.scopeDepthMax))) ∨
    (s.mask.scopeStack.length ≠ s.cfg.scopeDepthMax ∧
      execAtomicEnter m s = .next { s with mask := ⟨s.mask.imask ||| m, s.mask.scopeStack ++ [s.mask.imask]⟩ }) := by
  unfold execAtomicEnter
  by_cases h : s.mask.scopeStack.length = s.cfg.scopeDepthMax
  · exact .inl ⟨h, by rw [if_pos h]; rfl⟩
  · exact .inr ⟨h, by rw [if_neg h]⟩

/-- ATOMIC.EXIT (R231). -/
theorem execAtomicExit_cases (s : State) :
    (s.mask.scopeStack = [] ∧ execAtomicExit s = .next (s.raise .scopeUnderflow)) ∨
    (∃ outer saved, s.mask.scopeStack = outer ++ [saved] ∧ execAtomicExit s = .next { s with mask := ⟨saved, outer⟩ }) := by
  unfold execAtomicExit
  rcases List.eq_nil_or_concat s.mask.scopeStack with h | ⟨outer, saved, h⟩
  · exact .inl ⟨h, by rw [h]; rfl⟩
  · exact .inr ⟨outer, saved, by simpa using h, by simp [h]⟩

/-- Every decoded command answers a next state: no command faults or refuses the step function (R256: a raised fault is
a record). -/
theorem exec_answers_next (i : Instr) (s : State) : ∃ t, exec i s = .next t := by
  cases i <;> simp only [exec]
  case ticks => exact ⟨_, execTicks_eq s⟩
  case counts => exact ⟨_, execCounts_eq s⟩
  case micros => exact ⟨_, execMicros_eq s⟩
  case millis => exact ⟨_, execMillis_eq s⟩
  case delay b d => rcases execDelay_cases b d s with ⟨-, h⟩ | ⟨-, h⟩ <;> exact ⟨_, h⟩
  case perInit n => rcases execPerInit_cases n s with ⟨_, -, h⟩ | ⟨_, -, h⟩ <;> exact ⟨_, h⟩
  case perIsNow n =>
    rcases execPerIsNow_cases n s with ⟨_, -, h⟩ | ⟨_, -, ⟨-, h⟩ | ⟨-, -, h⟩ | ⟨-, -, h⟩⟩ <;> exact ⟨_, h⟩
  case dlReset n => rcases execDlReset_cases n s with ⟨_, -, h⟩ | ⟨_, -, h⟩ <;> exact ⟨_, h⟩
  case vdlReset n d => rcases execVdlReset_cases n d s with ⟨_, -, h⟩ | ⟨_, -, ⟨-, h⟩ | ⟨-, h⟩⟩ <;> exact ⟨_, h⟩
  case dlIsNow n =>
    rcases execDlIsNow_cases n s with ⟨_, -, h⟩ | ⟨_, -, ⟨-, h⟩ | ⟨-, -, h⟩ | ⟨-, -, -, h⟩ | ⟨-, -, -, h⟩⟩ <;> exact ⟨_, h⟩
  case txSend l d =>
    rcases execTxSend_cases l d s with ⟨-, h⟩ | ⟨-, -, h⟩ | ⟨-, -, -, h⟩ | ⟨-, -, -, h⟩ <;> exact ⟨_, h⟩
  case atomicEnter m => rcases execAtomicEnter_cases m s with ⟨-, h⟩ | ⟨-, h⟩ <;> exact ⟨_, h⟩
  case atomicExit => rcases execAtomicExit_cases s with ⟨-, h⟩ | ⟨_, _, -, h⟩ <;> exact ⟨_, h⟩

/-- What any command can leave of the state: a fault record and nothing else, or no fault record, the clock, the
latencies, the configuration and the inputs as they were, and at most one event more. -/
theorem exec_cases (i : Instr) (s t : State) (h : exec i s = .next t) :
    (∃ f, t = s.raise f) ∨
    (t.fault = s.fault ∧ t.clock = s.clock ∧ t.lat = s.lat ∧ t.cfg = s.cfg ∧ t.hostCmds = s.hostCmds ∧ t.turns = s.turns ∧
      t.slots.length = s.slots.length ∧ ∃ new, t.events = s.events ++ new ∧ new.length ≤ 1) := by
  have nil : ∃ new : List Event, s.events = s.events ++ new ∧ new.length ≤ 1 := ⟨[], by simp, by simp⟩
  cases i <;> simp only [exec] at h
  case ticks => rw [execTicks_eq] at h; cases h; exact .inr ⟨rfl, rfl, rfl, rfl, rfl, rfl, rfl, nil⟩
  case counts => rw [execCounts_eq] at h; cases h; exact .inr ⟨rfl, rfl, rfl, rfl, rfl, rfl, rfl, nil⟩
  case micros => rw [execMicros_eq] at h; cases h; exact .inr ⟨rfl, rfl, rfl, rfl, rfl, rfl, rfl, nil⟩
  case millis => rw [execMillis_eq] at h; cases h; exact .inr ⟨rfl, rfl, rfl, rfl, rfl, rfl, rfl, nil⟩
  case delay b d =>
    rcases execDelay_cases b d s with ⟨-, e⟩ | ⟨-, e⟩ <;> rw [e] at h <;> cases h
    · exact .inl ⟨_, rfl⟩
    · exact .inr ⟨rfl, rfl, rfl, rfl, rfl, rfl, rfl, nil⟩
  case perInit n =>
    rcases execPerInit_cases n s with ⟨_, -, e⟩ | ⟨_, -, e⟩ <;> rw [e] at h <;> cases h
    · exact .inl ⟨_, rfl⟩
    · exact .inr ⟨rfl, rfl, rfl, rfl, rfl, rfl, by simp, nil⟩
  case perIsNow n =>
    rcases execPerIsNow_cases n s with ⟨_, -, e⟩ | ⟨_, -, ⟨-, e⟩ | ⟨-, -, e⟩ | ⟨-, -, e⟩⟩ <;> rw [e] at h <;> cases h
    · exact .inl ⟨_, rfl⟩
    · exact .inl ⟨_, rfl⟩
    · exact .inr ⟨rfl, rfl, rfl, rfl, rfl, rfl, by simp, nil⟩
    · exact .inr ⟨rfl, rfl, rfl, rfl, rfl, rfl, rfl, nil⟩
  case dlReset n =>
    rcases execDlReset_cases n s with ⟨_, -, e⟩ | ⟨_, -, e⟩ <;> rw [e] at h <;> cases h
    · exact .inl ⟨_, rfl⟩
    · exact .inr ⟨rfl, rfl, rfl, rfl, rfl, rfl, by simp, nil⟩
  case vdlReset n d =>
    rcases execVdlReset_cases n d s with ⟨_, -, e⟩ | ⟨_, -, ⟨-, e⟩ | ⟨-, e⟩⟩ <;> rw [e] at h <;> cases h
    · exact .inl ⟨_, rfl⟩
    · exact .inl ⟨_, rfl⟩
    · exact .inr ⟨rfl, rfl, rfl, rfl, rfl, rfl, by simp, nil⟩
  case dlIsNow n =>
    rcases execDlIsNow_cases n s with ⟨_, -, e⟩ | ⟨_, -, ⟨-, e⟩ | ⟨-, -, e⟩ | ⟨-, -, -, e⟩ | ⟨-, -, -, e⟩⟩ <;>
      rw [e] at h <;> cases h
    · exact .inl ⟨_, rfl⟩
    · exact .inl ⟨_, rfl⟩
    · exact .inr ⟨rfl, rfl, rfl, rfl, rfl, rfl, rfl, nil⟩
    · exact .inr ⟨rfl, rfl, rfl, rfl, rfl, rfl, by simp, nil⟩
    · exact .inr ⟨rfl, rfl, rfl, rfl, rfl, rfl, rfl, nil⟩
  case txSend l d =>
    rcases execTxSend_cases l d s with ⟨-, e⟩ | ⟨-, -, e⟩ | ⟨-, -, -, e⟩ | ⟨-, -, -, e⟩ <;> rw [e] at h <;> cases h
    · exact .inr ⟨rfl, rfl, rfl, rfl, rfl, rfl, rfl, nil⟩
    · exact .inl ⟨_, rfl⟩
    · exact .inr ⟨rfl, rfl, rfl, rfl, rfl, rfl, rfl, [_], rfl, by simp⟩
    · exact .inr ⟨rfl, rfl, rfl, rfl, rfl, rfl, rfl, nil⟩
  case atomicEnter m =>
    rcases execAtomicEnter_cases m s with ⟨-, e⟩ | ⟨-, e⟩ <;> rw [e] at h <;> cases h
    · exact .inl ⟨_, rfl⟩
    · exact .inr ⟨rfl, rfl, rfl, rfl, rfl, rfl, rfl, nil⟩
  case atomicExit =>
    rcases execAtomicExit_cases s with ⟨-, e⟩ | ⟨_, _, -, e⟩ <;> rw [e] at h <;> cases h
    · exact .inl ⟨_, rfl⟩
    · exact .inr ⟨rfl, rfl, rfl, rfl, rfl, rfl, rfl, nil⟩

end Sys2Proof.Machine
end

