-- ==== Sys2Proof/Laws/Convert.lean ====
section
/-! SUPPORT. The rounding of 40_conversion.md R102 on a quotient of naturals, in whole-number arithmetic. -/

namespace Sys2Proof

/-- The two names of the floor agree. -/
theorem Rat_floor_eq (x : ℚ) : x.floor = ⌊x⌋ := rfl
/-- The two names of the ceiling agree. -/
theorem Rat_ceil_eq (x : ℚ) : x.ceil = ⌈x⌉ := by
  apply le_antisymm
  · rw [Rat.ceil_le_iff]; exact Int.le_ceil x
  · rw [Int.ceil_le]; exact Rat.le_ceil

/-- Rounding a quotient of naturals, in whole numbers (R102). -/
theorem Rounding.apply_div (r : Rounding) (a b : Nat) (hb : 0 < b) :
  (r.apply ((a : ℚ) / b)).toNat =
      match r with
      | .nearestTiesUp => (2 * a + b) / (2 * b)
      | .floor => a / b
      | .ceil => (a + b - 1) / b := by
  cases r <;> simp only [Rounding.apply]
  · have : ((a : ℚ) / b + 1 / 2) = ((2 * a + b : ℕ) : ℚ) / ((2 * b : ℕ) : ℚ) := by
      have : (b : ℚ) ≠ 0 := by positivity
      push_cast; field_simp
    rw [this, Rat_floor_eq, Rat.floor_natCast_div_natCast]; norm_cast
  · rw [Rat_floor_eq, Rat.floor_natCast_div_natCast]; norm_cast
  · rw [Rat_ceil_eq, Rat.ceil_natCast_div_natCast]
    have : -((-(a:ℤ)) / (b:ℤ)) = (((a + b - 1) / b : ℕ) : ℤ) := by
      have e1 : ((a + b - 1 : ℕ) : ℤ) = a + b - 1 := by omega
      rw [Int.natCast_div, e1]
      rcases Nat.eq_zero_or_pos a with h | h
      · subst h; simp; symm; apply Int.ediv_eq_zero_of_lt <;> omega
      · have hbz : (0:ℤ) < b := by exact_mod_cast hb
        have e2 : ((a:ℤ) + b - 1) = (a - 1) + b * 1 := by ring
        rw [e2, Int.add_mul_ediv_left _ _ (by omega)]
        have := Int.neg_ediv (a := (a:ℤ)) (b := (b:ℤ))
        rw [this]
        have h3 := Int.emod_add_mul_ediv (a:ℤ) b
        have h4 := Int.emod_nonneg (a:ℤ) (show (b:ℤ) ≠ 0 by omega)
        have h5 := Int.emod_lt_of_pos (a:ℤ) hbz
        have hs : (b:ℤ).sign = 1 := Int.sign_eq_one_of_pos hbz
        split
        · rename_i hd
          have hm : (a:ℤ) % b = 0 := Int.emod_eq_zero_of_dvd hd
          have : ((a:ℤ) - 1) / b = a / b - 1 := by
            apply Int.ediv_eq_iff_of_pos hbz |>.2 
            constructor <;> nlinarith
          omega
        · rename_i hd
          have hm : (a:ℤ) % b ≠ 0 := fun h => hd (Int.dvd_of_emod_eq_zero h)
          have : ((a:ℤ) - 1) / b = a / b := by
            apply Int.ediv_eq_iff_of_pos hbz |>.2
            constructor <;> nlinarith [show (1:ℤ) ≤ (a:ℤ) % b by omega]
          rw [hs]; omega
    rw [this]; exact Int.toNat_natCast _

end Sys2Proof
end

