-- ==== Sys2Proof/Laws/Step.lean ====
section
/-! SUPPORT. What a step can do, said once: which agent moves (20_memory.md R56), what the host's step is (30_encoding.md R75,
41_clock.md R130), and every way `step` can answer. Invariants and whole-machine rules are proved from `step_cases`. -/

namespace Sys2Proof.Machine

/-! ### Configurations -/

theorem Config_legal_problem {c : Config} (h : c.legal = true) : c.problem = none := by
  simpa [Config.legal] using h

/-- A legal configuration has the width 8 or 16 (R258). -/
theorem Config_legal_width {c : Config} (h : c.legal = true) : c.w = 8 ∨ c.w = 16 := by
  have := Config_legal_problem h
  unfold Config.problem at this
  by_contra hw
  rw [if_pos (by omega)] at this
  cases this

theorem Config_legal_width_le {c : Config} (h : c.legal = true) : c.w ≤ 16 := by
  rcases Config_legal_width h with h | h <;> omega

/-! ### The agent that moves -/

theorem State.enabled_fault_none {s : State} {a : Agent} (h : s.enabled a = true) : s.fault = none := by
  cases a <;> simp only [State.enabled, Bool.and_eq_true, Option.isNone_iff_eq_none] at h
  · exact h.1.1.1
  · exact h.1
  · exact h.1
  · exact h.1

/-- Without a recorded fault some agent is enabled: the counter, or the service it waits for (R56). -/
theorem State.enabledAgents_ne_nil (s : State) (h : s.fault = none) : s.enabledAgents ≠ [] := by
  have key : s.enabled .cnt = true ∨ s.enabled .ovf = true ∨ s.enabled .cmps = true := by
    simp only [State.enabled, State.latencyReached, h, Option.isNone_none, Bool.true_and]
    cases s.ovfEff <;> cases s.cmpEff <;> simp
  intro he
  unfold State.enabledAgents at he
  rw [List.filter_eq_nil_iff] at he
  rcases key with k | k | k
  · exact he .cnt (by simp) k
  · exact he .ovf (by simp) k
  · exact he .cmps (by simp) k

theorem State.freeTurn_enabled (s : State) (h : s.fault = none) : s.enabled s.freeTurn.1 = true := by
  have hpos : 0 < s.enabledAgents.length := List.length_pos_iff.2 (s.enabledAgents_ne_nil h)
  have hlt := Nat.mod_lt (Config.freeAgent s.draws) hpos
  have hmem : s.freeTurn.1 ∈ s.enabledAgents := by
    unfold State.freeTurn
    rw [List.getD_eq_getElem _ _ hlt]
    exact List.getElem_mem hlt
  exact (List.mem_filter.1 hmem).2

/-- The agent that moves is enabled, and only the model's own inputs are used up (R56). -/
theorem State.takeTurn_cases (s : State) (h : s.fault = none) :
    s.enabled s.takeTurn.1 = true ∧ ∃ rest n, s.takeTurn.2 = { s with turns := rest, draws := n } := by
  unfold State.takeTurn
  split
  · split
    · exact ⟨‹_›, _, s.draws, rfl⟩
    · exact ⟨s.freeTurn_enabled h, s.turns, _, rfl⟩
  · exact ⟨s.freeTurn_enabled h, s.turns, _, rfl⟩

theorem State.takeTurn_of_enabled (s : State) (a : Agent) (rest : List Agent) (ht : s.turns = a :: rest)
    (h : s.enabled a = true) : s.takeTurn = (a, { s with turns := rest }) := by
  unfold State.takeTurn
  rw [ht]
  simp [h]

/-! ### The host's step -/

/-- A whole transaction answers a next state: an illegal word raises IllegalCommand, a legal one runs its command (R75). -/
theorem issue_cases (c : Command) (s : State) :
    (∃ e, decode c.cmd c.arg = .error e ∧ issue c s = .next (s.raise (.illegalCommand c.cmd))) ∨
    (∃ i, decode c.cmd c.arg = .ok i ∧ issue c s = exec i s) := by
  unfold issue
  cases h : decode c.cmd c.arg with
  | error e => exact .inl ⟨e, rfl, rfl⟩
  | ok i => exact .inr ⟨i, rfl, rfl⟩

/-- Every way the host's step can answer (R130, R75, R52). -/
theorem hostStep_cases (s : State) :
    (s.dly.active = true ∧ hostStep s = .next s.delayPoll) ∨
    (s.dly.active = false ∧ s.hostCmds = [] ∧ hostStep s = .next s) ∨
    (s.dly.active = false ∧ ∃ c rest, s.hostCmds = .command c :: rest ∧ hostStep s = issue c { s with hostCmds := rest }) ∨
    (s.dly.active = false ∧ ∃ bytes rest, s.hostCmds = .partialAccess bytes :: rest ∧
      hostStep s = .refused (.partialAccess bytes)) := by
  unfold hostStep
  cases ha : s.dly.active with
  | true => exact .inl ⟨rfl, by simp⟩
  | false =>
    simp only [Bool.false_eq_true, if_false]
    cases hc : s.hostCmds with
    | nil => exact .inr (.inl ⟨trivial, rfl, rfl⟩)
    | cons a rest =>
      cases a with
      | command c => exact .inr (.inr (.inl ⟨trivial, c, rest, rfl, rfl⟩))
      | partialAccess bytes => exact .inr (.inr (.inr ⟨trivial, bytes, rest, rfl, rfl⟩))

/-! ### A step -/

theorem step_of_legal (s : State) (hg : s.cfg.legal = true) (hf : s.fault = none) :
    step s = agentStep s.takeTurn.1 s.takeTurn.2 := by
  unfold step
  rw [Config_legal_problem hg, hf]

/-- Every next state of a step: the agent that moved was enabled, and the state is its step's, taken from the state with
the model's inputs used up. The host's has four forms: a poll, nothing to do, an illegal word, a command. -/
theorem step_cases {s t : State} (h : step s = .next t) :
    s.cfg.legal = true ∧ s.fault = none ∧ ∃ rest n, s.takeTurn.2 = { s with turns := rest, draws := n } ∧
      s.enabled s.takeTurn.1 = true ∧
      ((s.takeTurn.1 = .cnt ∧ t = State.counterStep { s with turns := rest, draws := n }) ∨
       (s.takeTurn.1 = .ovf ∧ t = State.overflowService { s with turns := rest, draws := n }) ∨
       (s.takeTurn.1 = .cmps ∧ t = State.matchService { s with turns := rest, draws := n }) ∨
       (s.takeTurn.1 = .host ∧ s.dly.active = true ∧ t = State.delayPoll { s with turns := rest, draws := n }) ∨
       (s.takeTurn.1 = .host ∧ s.dly.active = false ∧ s.hostCmds = [] ∧ t = { s with turns := rest, draws := n }) ∨
       (s.takeTurn.1 = .host ∧ s.dly.active = false ∧ ∃ c more, s.hostCmds = .command c :: more ∧
         ((∃ e, decode c.cmd c.arg = .error e ∧
            t = { s with fault := some (.illegalCommand c.cmd), turns := rest, draws := n, hostCmds := more }) ∨
          (∃ i, decode c.cmd c.arg = .ok i ∧
            exec i { s with turns := rest, draws := n, hostCmds := more } = .next t)))) := by
  unfold step at h
  split at h
  · cases h
  · rename_i hp
    split at h
    · cases h
    · rename_i hf
      obtain ⟨hen, rest, n, hs⟩ := s.takeTurn_cases hf
      refine ⟨by simp [Config.legal, hp], hf, rest, n, hs, hen, ?_⟩
      rw [hs] at h
      cases ha : s.takeTurn.1 <;> rw [ha] at h <;> simp only [agentStep, Host.Outcome.next.injEq] at h
      case cnt => exact .inl ⟨rfl, h.symm⟩
      case ovf => exact .inr (.inl ⟨rfl, h.symm⟩)
      case cmps => exact .inr (.inr (.inl ⟨rfl, h.symm⟩))
      case host =>
        rcases hostStep_cases { s with turns := rest, draws := n } with
          ⟨hd, e⟩ | ⟨hd, hc, e⟩ | ⟨hd, c, more, hc, e⟩ | ⟨hd, b, more, hc, e⟩ <;> rw [e] at h
        · cases h; exact .inr (.inr (.inr (.inl ⟨rfl, hd, rfl⟩)))
        · cases h; exact .inr (.inr (.inr (.inr (.inl ⟨rfl, hd, hc, rfl⟩))))
        · refine .inr (.inr (.inr (.inr (.inr ⟨rfl, hd, c, more, hc, ?_⟩))))
          rcases issue_cases c { s with turns := rest, draws := n, hostCmds := more } with ⟨err, hd, ei⟩ | ⟨i, hd, ei⟩
          · rw [ei] at h; cases h; exact .inl ⟨err, hd, rfl⟩
          · rw [ei] at h; exact .inr ⟨i, hd, h⟩
        · cases h

end Sys2Proof.Machine
end

