-- ==== Sys2Proof/Laws/Fairness.lean ====
section
/-! SUPPORT. What the fairness of 20_memory.md R58 gives: the two readings of its first sentence agree on the executions of
sound states, CNT moves again and again, and DELAY completes where the base it reads advances. -/

namespace Sys2Proof.Machine

/-! ### Executions -/

/-- On a turn that brings the host nothing new, the agents enabled are those of the state before it. -/
theorem State.onTurn_enabled (s : State) {tn : Turn} (h : tn.arrivals = []) (a : Agent) :
    (s.onTurn tn).enabled a = s.enabled a := by
  unfold State.onTurn
  rw [h, List.append_nil]
  cases a <;> rfl

/-- Every endless run of `step` is an execution, under the schedule its turns and free choices give (R56; log 4), in which
no commands come to the host beyond those it begins with (log 5). -/
theorem IsRun.isExecution {r : Nat → State} (h : IsRun r) :
    IsExecution r fun n => ⟨(r n).takeTurn.1, [], (r n).takeTurn.2.turns, (r n).takeTurn.2.draws⟩ := by
  intro n
  obtain ⟨hl, hf, rest, k, ht, hen, -⟩ := step_cases (h n)
  have hs := h n
  rw [step_of_legal _ hl hf, ht] at hs
  refine ⟨hl, ?_, ?_⟩
  · rwa [State.onTurn_enabled _ rfl]
  · simpa only [State.onTurn, List.append_nil, ht] using hs

variable {r : Nat → State} {sched : Nat → Turn}

/-- No fault is recorded in an endless execution (R256). -/
theorem IsExecution.fault_none (h : IsExecution r sched) (n : Nat) : (r n).fault = none :=
  (State.enabled_fault_none (h n).2.1 :)

@[simp] theorem State.onTurn_dly (s : State) (tn : Turn) : (s.onTurn tn).dly = s.dly := rfl

@[simp] theorem State.onTurn_readTicks (s : State) (tn : Turn) : (s.onTurn tn).readTicks = s.readTicks := rfl

/-- Only the host's polls touch a DELAY in progress. -/
theorem IsExecution.dly_of_not_host (h : IsExecution r sched) (n : Nat) (hm : ¬ Moves .host sched n) :
    (r (n + 1)).dly = (r n).dly := by
  obtain ⟨-, -, hs⟩ := h n
  unfold Moves at hm
  cases ha : (sched n).agent <;> rw [ha] at hs <;> simp only [agentStep, Host.Outcome.next.injEq] at hs
  · exact absurd ha hm
  all_goals rw [← hs]; simp

/-- A poll: the DELAY completes once the base read has come `d` past its start, and otherwise stays as it is (R130). -/
theorem IsExecution.dly_of_poll (h : IsExecution r sched) (n : Nat) (hm : Moves .host sched n)
    (ha : (r n).dly.active = true) :
    ((r n).dly.d.toNat ≤ (pollNow r sched n - (r n).dly.start).toNat ∧ (r (n + 1)).dly = { (r n).dly with active := false }) ∨
    ((pollNow r sched n - (r n).dly.start).toNat < (r n).dly.d.toNat ∧ (r (n + 1)).dly = (r n).dly) := by
  obtain ⟨-, -, hs⟩ := h n
  rw [hm] at hs
  have he : r (n + 1) = ((r n).onTurn (sched n)).delayPoll := by
    simpa [agentStep, hostStep, ha] using hs.symm
  rw [he]
  rcases State.delayPoll_cases ((r n).onTurn (sched n)) with ⟨hd, e⟩ | ⟨hd, e⟩
  · exact .inl ⟨hd, by rw [e]; rfl⟩
  · exact .inr ⟨hd, by rw [e]; rfl⟩

/-! ### Readiness -/

/-- An enabled agent is ready. -/
theorem State.ready_of_enabled {s : State} {a : Agent} (h : s.enabled a = true) : s.ready a = true := by
  cases a <;> simp_all [State.enabled, State.ready]

/-- The first sentence of R58, letter for letter: an agent continuously enabled moves again and again. -/
theorem WeaklyFair.moves_of_enabled (hw : WeaklyFair r sched) {a : Agent} (ha : a = .cnt ∨ a = .host) (n : Nat)
    (h : ∀ m, n ≤ m → (r m).enabled a = true) : ∃ m, n ≤ m ∧ Moves a sched m :=
  hw a ha n fun m hm => State.ready_of_enabled (h m hm)

/-- The counter moves again and again in every fair execution. -/
theorem WeaklyFair.cnt_moves (hw : WeaklyFair r sched) (h : IsExecution r sched) (n : Nat) :
    ∃ m, n ≤ m ∧ Moves .cnt sched m :=
  hw .cnt (.inl rfl) n fun m _ => by simp [State.ready, h.fault_none m]

/-! ### A ready host that waits is enabled again and again -/

/-- The pulses a compare-match service has still to end: those queued, and the one being output. -/
def State.pulsesLeft (s : State) : Nat := s.queue.count + if s.tx.txState = .transmitting then 1 else 0

/-- The counter steps taken while the interrupt the host waits for was pending and unmasked (R26). -/
def State.waited (s : State) : Nat := if s.cmpEff then s.lat.cmpAge else s.lat.ovfAge

/-- How far a waiting host is from being enabled: what is left of the pulses, then whether a match is still to come, then
what is left of the latency, then the overflow itself. -/
def State.hostWait (s : State) : Nat :=
  ((s.pulsesLeft * 2 + if s.cmpEff then 0 else 1) * (s.cfg.latMax + 1) + (s.cfg.latMax - s.waited)) * 2 +
    if s.clock.ovfPending then 1 else 0

/-- The wait falls where the first of its four parts that changes falls. -/
theorem State.hostWait_lt {s t : State} (hg : t.cfg = s.cfg)
    (h : t.pulsesLeft < s.pulsesLeft ∨ (t.pulsesLeft = s.pulsesLeft ∧ ((s.cmpEff = false ∧ t.cmpEff = true) ∨
      (t.cmpEff = s.cmpEff ∧ ((s.waited < t.waited ∧ t.waited ≤ s.cfg.latMax) ∨
        (t.waited = s.waited ∧ s.clock.ovfPending = true ∧ t.clock.ovfPending = false)))))) : t.hostWait < s.hostWait := by
  have hi : (if t.clock.ovfPending then 1 else 0) ≤ 1 := by split <;> omega
  unfold State.hostWait
  rw [hg]
  rcases h with h | ⟨h, ⟨hs, ht⟩ | ⟨hc, ⟨hw, hl⟩ | ⟨hw, ho, ho'⟩⟩⟩
  · have hb : (if t.cmpEff then 0 else 1) ≤ 1 := by split <;> omega
    have : (t.pulsesLeft * 2 + (if t.cmpEff then 0 else 1) + 1) * (s.cfg.latMax + 1) ≤
        (s.pulsesLeft * 2 + if s.cmpEff then 0 else 1) * (s.cfg.latMax + 1) := Nat.mul_le_mul_right _ (by omega)
    rw [Nat.add_mul _ 1] at this
    omega
  · simp only [h, hs, ht, Bool.false_eq_true, if_false, if_true, Nat.add_mul]
    omega
  · rw [h, hc]
    omega
  · simp [h, hc, hw, ho, ho']

/-- What an execution's invariant says does not depend on the turn's inputs. -/
theorem State.Inv.onTurn {s : State} (h : s.Inv) (tn : Turn) : (s.onTurn tn).Inv :=
  ⟨h.legal, h.raw, h.ovfIe, h.ovfAge, h.cmpAge, h.slots,
    ⟨h.queue.length, h.queue.head, h.queue.count, h.queue.live, h.queue.free⟩, ⟨h.tx.idle, h.tx.transmitting⟩, h.scopes⟩

/-- A compare-match service ends a pulse. -/
theorem State.matchService_hostWait (s : State) (h : s.Inv) (hp : s.tx.cmpPending = true) :
    s.matchService.hostWait < s.hostWait := by
  have hT : s.tx.txState = .transmitting := by
    cases ht : s.tx.txState with
    | idle => have := (h.tx.idle ht).2.2.1; simp [hp] at this
    | transmitting => rfl
  have hlt : s.matchService.pulsesLeft < s.pulsesLeft := by
    have hr := s.qRead_cases
    unfold State.pulsesLeft
    rw [State.matchService_queue, if_pos hT]
    rcases hr with ⟨hc, e⟩ | ⟨hc, e⟩
    · have : s.matchService.tx.txState = .idle := by simp [State.matchService, e, Pulse.empty]
      simp [this, e]
    · rw [e]; dsimp only; split <;> omega
  exact State.hostWait_lt (State.matchService_cfg s) (.inl hlt)

/-- An overflow service ends the overflow, and a match still waiting goes on waiting. -/
theorem State.overflowService_hostWait (s : State) (hp : s.clock.ovfPending = true) (hc : s.cmpEff = true) :
    s.overflowService.hostWait < s.hostWait := by
  have hc' : s.overflowService.cmpEff = true := hc
  refine State.hostWait_lt rfl (.inr ⟨rfl, .inr ⟨by rw [hc, hc'], .inr ⟨?_, hp, rfl⟩⟩⟩)
  simp [State.waited, hc, hc']

/-- A counter step that keeps the host waiting uses up a step of the latency, or flags a match. -/
theorem State.counterStep_hostWait (s : State) (h : s.Inv) (hen : s.enabled .cnt = true)
    (hf : s.counterStep.fault = none) (he : s.ovfEff = true ∨ s.cmpEff = true) : s.counterStep.hostWait < s.hostWait := by
  rcases s.counterStep_cases with ⟨-, -, e⟩ | ⟨hn, e⟩
  · rw [e] at hf; cases hf
  have hlat : (s.ovfEff = true → s.lat.ovfAge < s.cfg.latMax) ∧ (s.cmpEff = true → s.lat.cmpAge < s.cfg.latMax) := by
    have h1 := h.ovfAge
    have h2 := h.cmpAge
    simp only [State.enabled, State.latencyReached, Bool.and_eq_true, Bool.not_eq_true', Bool.or_eq_false_iff,
      Bool.and_eq_false_iff, beq_eq_false_iff_ne] at hen
    obtain ⟨-, h3, h4⟩ := hen
    exact ⟨fun ho => by rcases h3 with h3 | h3 <;> simp_all; omega, fun hc => by rcases h4 with h4 | h4 <;> simp_all; omega⟩
  rw [e]
  cases hc : s.cmpEff with
  | true =>
    have hp : s.tx.cmpPending = true := by simp_all [State.cmpEff]
    have ha : s.tx.cmpArmed = false := by
      cases ht : s.tx.txState with
      | idle => exact (h.tx.idle ht).2.1
      | transmitting => simp [h.tx.transmitting ht, hp]
    have hmc : (s.ageInterrupts.advanceRaw s.nextRaw).matchCheck = s.ageInterrupts.advanceRaw s.nextRaw := by
      simp [State.matchCheck, ha]
    rw [hmc]
    have hc' : (s.ageInterrupts.advanceRaw s.nextRaw).cmpEff = true := by
      simpa [State.cmpEff, State.cmpMasked] using hc
    have hage : (s.ageInterrupts.advanceRaw s.nextRaw).lat.cmpAge = s.lat.cmpAge + 1 := by
      unfold State.advanceRaw; split <;> simp [State.ageInterrupts, hc]
    have := hlat.2 hc
    refine State.hostWait_lt (by simp) (.inr ⟨by simp [State.pulsesLeft], .inr ⟨by rw [hc, hc'], .inl ?_⟩⟩)
    simp only [State.waited, hc, hc', hage, if_true]
    omega
  | false =>
    have ho : s.ovfEff = true := by simpa [hc] using he
    have hp : s.clock.ovfPending = true := by simp_all [State.ovfEff]
    have hu : s.ageInterrupts.advanceRaw s.nextRaw =
        { s with clock.raw := s.nextRaw, lat := ⟨s.lat.ovfAge + 1, s.lat.cmpAge⟩ } := by
      have h0 : s.nextRaw ≠ 0 := fun h0 => hn ⟨h0, hp⟩
      unfold State.advanceRaw
      rw [if_neg h0]
      simp [State.ageInterrupts, ho, hc]
    have := hlat.1 ho
    rw [hu]
    generalize hv : ({ s with clock.raw := s.nextRaw, lat := ⟨s.lat.ovfAge + 1, s.lat.cmpAge⟩ } : State) = v
    have hg : v.cfg = s.cfg := by rw [← hv]
    have hcv : v.cmpEff = false := by rw [← hv]; exact hc
    have hpl : v.pulsesLeft = s.pulsesLeft := by rw [← hv]; rfl
    have hwv : v.lat.ovfAge = s.lat.ovfAge + 1 := by rw [← hv]
    have hws : s.waited = s.lat.ovfAge := by simp [State.waited, hc]
    rcases v.matchCheck_cases with ⟨-, -, e2⟩ | ⟨-, e2⟩ <;> rw [e2]
    · generalize hu' : ({ v with tx.cmpArmed := false, tx.cmpPending := true, lat.cmpAge := 0 } : State) = u
      have hpu : u.pulsesLeft = v.pulsesLeft := by rw [← hu']; rfl
      have hwu : u.lat.ovfAge = v.lat.ovfAge := by rw [← hu']
      have hgu : u.cfg = s.cfg := by rw [← hu', hg]
      cases hm : u.cmpEff with
      | true => exact State.hostWait_lt hgu (.inr ⟨by omega, .inl ⟨hc, hm⟩⟩)
      | false =>
        have : u.waited = u.lat.ovfAge := by simp [State.waited, hm]
        exact State.hostWait_lt hgu (.inr ⟨by omega, .inr ⟨by rw [hm, hc], .inl (by omega)⟩⟩)
    · have : v.waited = v.lat.ovfAge := by simp [State.waited, hcv]
      exact State.hostWait_lt hg (.inr ⟨hpl, .inr ⟨by rw [hcv, hc], .inl (by omega)⟩⟩)

/-- On an execution of sound states a ready host is enabled again and again, until it moves: so the fairness asks of HOST
no more than a move after being enabled without end. -/
theorem IsExecution.host_enabled_again (h : IsExecution r sched) (hi : ∀ m, (r m).Inv) (n : Nat)
    (hr : ∀ m, n ≤ m → (r m).ready .host = true) : ∃ m, n ≤ m ∧ (r m).enabled .host = true := by
  by_contra hcon
  have hno : ∀ m, n ≤ m → (r m).enabled .host = false := fun m hm => by
    cases he : (r m).enabled .host with
    | false => rfl
    | true => exact absurd ⟨m, hm, he⟩ hcon
  have heff : ∀ m, n ≤ m → (r m).ovfEff = true ∨ (r m).cmpEff = true := fun m hm => by
    have h1 := hr m hm
    have h2 := hno m hm
    cases ho : (r m).ovfEff <;> cases hc : (r m).cmpEff <;> simp_all [State.ready, State.enabled]
  have hdec : ∀ m, n ≤ m → (r (m + 1)).hostWait < (r m).hostWait := fun m hm => by
    obtain ⟨-, hen, hs⟩ := h m
    have hInv : ((r m).onTurn (sched m)).hostWait = (r m).hostWait := rfl
    rw [← hInv]
    cases ha : (sched m).agent <;> rw [ha] at hen hs
    · have := heff m hm
      simp only [State.enabled, Bool.and_eq_true, Bool.not_eq_true'] at hen
      rw [show (r m).ovfEff = false from hen.1.1.2, show (r m).cmpEff = false from hen.1.2] at this
      simp at this
    all_goals simp only [agentStep, Host.Outcome.next.injEq] at hs
    · have hf := h.fault_none (m + 1)
      rw [← hs] at hf ⊢
      exact State.counterStep_hostWait _ ((hi m).onTurn _) hen hf (heff m hm)
    · have hc : (r m).cmpEff = true := by
        have hnext := heff (m + 1) (by omega)
        rw [← hs] at hnext
        simpa [State.ovfEff, State.cmpEff, State.cmpMasked, State.onTurn] using hnext
      rw [← hs]
      refine State.overflowService_hostWait _ ?_ hc
      simp_all [State.enabled, State.ovfEff, State.onTurn]
    · rw [← hs]
      refine State.matchService_hostWait _ ((hi m).onTurn _) ?_
      simp_all [State.enabled, State.cmpEff, State.onTurn]
  have key : ∀ k m, n ≤ m → (r m).hostWait ≤ k → False := by
    intro k
    induction k with
    | zero => intro m hm hk; have := hdec m hm; omega
    | succ k ih => intro m hm hk; exact ih (m + 1) (by omega) (by have := hdec m hm; omega)
  exact key _ n (Nat.le_refl n) (Nat.le_refl _)

/-! ### A DELAY completes -/

/-- While no poll completes it, a DELAY in progress stays as it is. -/
theorem IsExecution.dly_stays (h : IsExecution r sched) (n : Nat) (ha : (r n).dly.active = true)
    (hno : ∀ m, n ≤ m → Moves .host sched m → (r m).dly = (r n).dly →
      (r (m + 1)).dly ≠ { (r n).dly with active := false }) (m : Nat) (hm : n ≤ m) : (r m).dly = (r n).dly := by
  induction m, hm using Nat.le_induction with
  | base => rfl
  | succ m hm ih =>
    by_cases hh : Moves .host sched m
    · rcases h.dly_of_poll m hh (by rw [ih]; exact ha) with ⟨-, e⟩ | ⟨-, e⟩
      · exact absurd (by rw [e, ih]) (hno m hm hh ih)
      · rw [e, ih]
    · rw [h.dly_of_not_host m hh, ih]

/-- R58's last sentence: a DELAY in progress completes in every fair execution in which the base it reads advances. -/
theorem delay_completes (h : IsExecution r sched) (hw : WeaklyFair r sched) (n : Nat) (ha : (r n).dly.active = true)
    (hd : (r n).dly.d.toNat < 2 ^ 31) (hb : BaseAdvances r sched n) :
    ∃ m, n ≤ m ∧ Moves .host sched m ∧ (r m).dly = (r n).dly ∧ (r (m + 1)).dly = { (r n).dly with active := false } := by
  by_contra hcon
  have hno : ∀ m, n ≤ m → Moves .host sched m → (r m).dly = (r n).dly →
      (r (m + 1)).dly ≠ { (r n).dly with active := false } := fun m hm hh hs he => hcon ⟨m, hm, hh, hs, he⟩
  have hst := h.dly_stays n ha hno
  have hact : ∀ m, n ≤ m → (r m).dly.active = true := fun m hm => by rw [hst m hm]; exact ha
  -- how far each poll finds the base past the start
  have hlow : ∀ i, n ≤ i → Moves .host sched i →
      (pollNow r sched i - (r n).dly.start).toNat < (r n).dly.d.toNat := by
    intro i hi hh
    rcases h.dly_of_poll i hh (hact i hi) with ⟨-, e⟩ | ⟨hlt, -⟩
    · exact absurd (by rw [e, hst i hi]) (hno i hi hh (hst i hi))
    · rwa [hst i hi] at hlt
  -- no poll can be one of the last: a later one finds the base further on
  have key : ∀ k i, n ≤ i → Moves .host sched i →
      (r n).dly.d.toNat - (pollNow r sched i - (r n).dly.start).toNat ≤ k → False := by
    intro k
    induction k with
    | zero => intro i hi hh hk; have := hlow i hi hh; omega
    | succ k ih =>
      intro i hi hh hk
      apply hb.moving i (pollNow r sched i) hi
      intro j hj
      refine ⟨hact j (by omega), fun hhj => ?_⟩
      by_contra hne
      refine ih j (by omega) hhj ?_
      have hr := (reached_iff _ _).1 (hb.forward i j hi hj hh hhj fun m hm _ => hact m hm)
      have h1 := hlow i hi hh
      have h2 := hlow j (by omega) hhj
      have h3 : (pollNow r sched j).toNat ≠ (pollNow r sched i).toNat := fun e => hne (BitVec.eq_of_toNat_eq e)
      have := (pollNow r sched i).isLt
      have := (pollNow r sched j).isLt
      have := (r n).dly.start.isLt
      simp only [BitVec.toNat_sub] at hr h1 h2 hk ⊢
      omega
  have hready : ∀ m, n ≤ m → (r m).ready .host = true := fun m hm => by
    simp [State.ready, State.hostHasWork, h.fault_none m, hact m hm]
  obtain ⟨i, hi, hh⟩ := hw .host (.inr rfl) n hready
  exact key _ i hi hh (Nat.le_refl _)

end Sys2Proof.Machine
end

