-- ==== Sys2Proof/Laws/PerInstr.lean ====
section
/-! SUPPORT. Statements made for every command, one lemma per constructor. EncodesOwnRow: a well-formed command's CMD word
selects the row of 30_encoding.md R73 that carries its name, so every field its row does not use is 0. -/

namespace Sys2Proof.Laws.EncodesOwnRow

/-- The command's CMD word selects its own row (R73). -/
def Statement (i : Instr) : Prop :=
  i.wellFormed = true → ∃ r ∈ rows, r.name = i.mnemonic ∧ r.selects (encode i).cmd = true

/-- A SLOT field leaves every other bit of a slot row's word alone, once that is so for the sixteen slots (R71, R73). -/
theorem slot_word_selects (v : Word) (hv : ∀ k : Fin 16, ((v ||| placeSlot k.val) &&& 0xFFFFF0FF#32 == v) = true)
    (slot : Nat) (h : slotFits slot = true) : ((v ||| placeSlot slot) &&& 0xFFFFF0FF#32 == v) = true :=
  hv ⟨slot, of_decide_eq_true h⟩

/-- The BASE field leaves the other bits alone (R71, R73). -/
theorem base_word_selects (base : Base) : ((0x00000005#32 ||| placeBase base) &&& 0xFFFFDFFF#32 == 0x00000005#32) = true := by
  cases base <;> decide

/-- The LVL field leaves the other bits alone (R71, R73). -/
theorem level_word_selects (level : Level) :
    ((0x00000020#32 ||| placeLvl level) &&& 0xFFFFEFFF#32 == 0x00000020#32) = true := by
  cases level <;> decide

theorem ticks : Statement .ticks := fun _ => by decide
theorem counts : Statement .counts := fun _ => by decide
theorem micros : Statement .micros := fun _ => by decide
theorem millis : Statement .millis := fun _ => by decide
theorem delay (base : Base) (d : Word) : Statement (.delay base d) := fun _ =>
  ⟨⟨.delay, 0x00000005#32, 0xFFFFDFFF#32⟩, by decide, rfl, base_word_selects base⟩
theorem perInit (slot : Nat) : Statement (.perInit slot) := fun h =>
  ⟨⟨.perInit, 0x00000010#32, 0xFFFFF0FF#32⟩, by decide, rfl, slot_word_selects _ (by decide) slot h⟩
theorem perIsNow (slot : Nat) : Statement (.perIsNow slot) := fun h =>
  ⟨⟨.perIsNow, 0x00000011#32, 0xFFFFF0FF#32⟩, by decide, rfl, slot_word_selects _ (by decide) slot h⟩
theorem dlReset (slot : Nat) : Statement (.dlReset slot) := fun h =>
  ⟨⟨.dlReset, 0x00000012#32, 0xFFFFF0FF#32⟩, by decide, rfl, slot_word_selects _ (by decide) slot h⟩
theorem vdlReset (slot : Nat) (d : Word) : Statement (.vdlReset slot d) := fun h =>
  ⟨⟨.vdlReset, 0x00000013#32, 0xFFFFF0FF#32⟩, by decide, rfl, slot_word_selects _ (by decide) slot h⟩
theorem dlIsNow (slot : Nat) : Statement (.dlIsNow slot) := fun h =>
  ⟨⟨.dlIsNow, 0x00000014#32, 0xFFFFF0FF#32⟩, by decide, rfl, slot_word_selects _ (by decide) slot h⟩
theorem txSend (level : Level) (d : Word) : Statement (.txSend level d) := fun _ =>
  ⟨⟨.txSend, 0x00000020#32, 0xFFFFEFFF#32⟩, by decide, rfl, level_word_selects level⟩
theorem atomicEnter (mask : BitVec 2) : Statement (.atomicEnter mask) := fun _ =>
  ⟨⟨.atomicEnter, 0x00000030#32, 0xFFFF3FFF#32⟩, by decide, rfl, by revert mask; decide⟩
theorem atomicExit : Statement .atomicExit := fun _ => by decide

end Sys2Proof.Laws.EncodesOwnRow
end

