-- ==== Sys2Proof/Laws/Queue.lean ====
section
/-! SUPPORT. What the queue's two operations do to the live entries, and that both keep the queue sound (10_state.md
R28, R39; 43_queue.md R181, R182). -/

namespace Sys2Proof.Machine

/-- The live entries are `count` many (R28). -/
theorem State.liveQueue_length (s : State) : s.liveQueue.length = s.queue.count := by simp [State.liveQueue]

/-- Two different places behind the head have different ring indices (R28). -/
theorem ring_index_ne (h k j c : Nat) (hk : k < c) (hj : j < c) (hn : k ≠ j) : (h + k) % c ≠ (h + j) % c := by
  intro e
  have := Nat.ModEq.add_left_cancel' h (show h + k ≡ h + j [MOD c] from e)
  rw [Nat.ModEq, Nat.mod_eq_of_lt hk, Nat.mod_eq_of_lt hj] at this
  exact hn this

/-- After an accepted write the entry behind the live ones is the pulse, and the others stay (R181). -/
theorem State.qWrite_queueEntry (s : State) (p : Pulse) (hc : 0 < s.cfg.cap) (hl : s.queue.buf.length = s.cfg.cap)
    (hk : s.queue.count < s.cfg.cap) (k : Nat) (hkk : k < s.cfg.cap) :
    (s.qWrite p).2.queueEntry k = if k = s.queue.count then some p else s.queueEntry k := by
  rcases s.qWrite_cases p with ⟨h, e⟩ | ⟨h, e⟩
  · omega
  · rw [e]
    simp only [State.queueEntry, State.queueIndex]
    split
    · subst k
      have : (s.queue.head + s.queue.count) % s.cfg.cap < s.queue.buf.length := by rw [hl]; exact Nat.mod_lt _ hc
      simp [this]
    · rename_i hn
      rw [List.getElem?_set_ne]
      exact ring_index_ne _ _ _ _ hk hkk (Ne.symm hn)

/-- An accepted write appends the pulse to the live entries (R181). -/
theorem State.qWrite_liveQueue (s : State) (p : Pulse) (hc : 0 < s.cfg.cap) (hl : s.queue.buf.length = s.cfg.cap)
    (hk : s.queue.count < s.cfg.cap) :
    (s.qWrite p).2.liveQueue = s.liveQueue ++ [some p] := by
  have hcount : (s.qWrite p).2.queue.count = s.queue.count + 1 := by
    rcases s.qWrite_cases p with ⟨h, e⟩ | ⟨h, e⟩
    · omega
    · rw [e]
  unfold State.liveQueue
  rw [hcount, List.range_succ, List.map_append]
  congr 1
  · apply List.map_congr_left
    intro k hk'
    rw [List.mem_range] at hk'
    rw [State.qWrite_queueEntry s p hc hl hk k (by omega), if_neg (by omega)]
  · simp [State.qWrite_queueEntry s p hc hl hk _ hk]

/-- A sound queue has room for a pulse (R180). -/
theorem State.QueueSound.cap_pos {s : State} (h : s.QueueSound) : 0 < s.cfg.cap := by have := h.head; omega

/-- A write of a pulse of non-zero duration keeps the queue sound (R181, R39). -/
theorem State.qWrite_queueSound (s : State) (p : Pulse) (h : s.QueueSound)
    (hp : p.duration ≠ 0) : (s.qWrite p).2.QueueSound := by
  have hc := State.QueueSound.cap_pos h
  by_cases hf : s.queue.count = s.cfg.cap
  · rcases s.qWrite_cases p with ⟨_, e⟩ | ⟨h', e⟩
    · rw [e]; exact h
    · exact absurd hf h'
  · have hlt : s.queue.count < s.cfg.cap := by have := h.count; omega
    have hq : (s.qWrite p).2.queue =
        ⟨s.queue.buf.set (s.queueIndex s.queue.count) (some p), s.queue.head, s.queue.count + 1⟩ := by
      rcases s.qWrite_cases p with ⟨h, e⟩ | ⟨h, e⟩
      · omega
      · rw [e]
    refine ⟨by rw [hq]; simp [h.length], by rw [hq]; simp [h.head], by rw [hq]; simp; omega, ?_, ?_⟩
    · intro k hk
      rw [hq] at hk; simp at hk
      rw [State.qWrite_queueEntry s p hc h.length hlt k (by omega)]
      split
      · exact ⟨p, rfl, hp⟩
      · exact h.live k (by omega)
    · intro k hk hk2
      rw [hq] at hk; simp at hk hk2
      rw [State.qWrite_queueEntry s p hc h.length hlt k hk2, if_neg (by omega)]
      exact h.free k (by omega) hk2

/-- After a read the entries have moved up by one, and the last is unwritten (R182). -/
theorem State.qRead_queueEntry (s : State) (hs : s.QueueSound) (hn : s.queue.count ≠ 0) (k : Nat) (hkk : k < s.cfg.cap) :
   s.qRead.2.queueEntry k = if k + 1 = s.cfg.cap then none else s.queueEntry (k + 1) := by
  have hc := State.QueueSound.cap_pos hs
  rcases s.qRead_cases with ⟨h, e⟩ | ⟨h, e⟩
  · exact absurd h hn
  · rw [e]
    simp only [State.queueEntry, State.queueIndex]
    have e1 : ((s.queue.head + 1) % s.cfg.cap + k) % s.cfg.cap = (s.queue.head + (k + 1)) % s.cfg.cap := by
      rw [Nat.mod_add_mod]; congr 1; omega
    rw [e1]
    split
    · rename_i hh
      rw [hh, Nat.add_mod_right, Nat.mod_eq_of_lt hs.head]
      simp [hs.length, hs.head]
    · rw [List.getElem?_set_ne]
      have := ring_index_ne s.queue.head 0 (k+1) s.cfg.cap hc (by omega) (by omega)
      rw [Nat.add_zero, Nat.mod_eq_of_lt hs.head] at this
      exact this

/-- A read takes one entry out (R182). -/
theorem State.qRead_count (s : State) (hn : s.queue.count ≠ 0) : s.qRead.2.queue.count = s.queue.count - 1 := by
  rcases s.qRead_cases with ⟨h, e⟩ | ⟨h, e⟩
  · exact absurd h hn
  · rw [e]

/-- A read answers the entry at the head (R182). -/
theorem State.qRead_oldest (s : State) (hs : s.QueueSound) (hn : s.queue.count ≠ 0) :
    ∃ p, s.qRead.1 = p ∧ s.queueEntry 0 = some p ∧ p.duration ≠ 0 ∧ s.queue.buf[s.queue.head]? = some (some p) := by
  obtain ⟨p, hp, hd⟩ := hs.live 0 (by omega)
  have e0 : s.queueEntry 0 = (s.queue.buf[s.queue.head]?).join := by
    simp [State.queueEntry, State.queueIndex, Nat.mod_eq_of_lt hs.head]
  rcases s.qRead_cases with ⟨h, e⟩ | ⟨h, e⟩
  · exact absurd h hn
  · refine ⟨p, ?_, hp, hd, ?_⟩
    · rw [e]; simp only; rw [← e0, hp]; rfl
    · rw [e0] at hp
      cases h : s.queue.buf[s.queue.head]? with
      | none => rw [h] at hp; cases hp
      | some x => rw [h] at hp; simp at hp; rw [hp]

/-- A read takes the first of the live entries (R182). -/
theorem State.qRead_liveQueue (s : State) (hs : s.QueueSound) (hn : s.queue.count ≠ 0) :
    s.liveQueue = some s.qRead.1 :: s.qRead.2.liveQueue := by
  obtain ⟨p, hp, h0, _, _⟩ := State.qRead_oldest s hs hn
  unfold State.liveQueue
  rw [State.qRead_count s hn]
  obtain ⟨n, hcn⟩ : ∃ n, s.queue.count = n + 1 := ⟨s.queue.count - 1, by omega⟩
  rw [hcn, List.range_succ_eq_map, List.map_cons, h0, hp]
  congr 1
  rw [List.map_map]
  apply List.map_congr_left
  intro k hk
  simp at hk
  have := hs.count
  rw [State.qRead_queueEntry s hs hn k (by omega)]
  simp only [Function.comp]
  by_cases hh : k + 1 = s.cfg.cap
  · omega
  · rw [if_neg hh]

/-- A read keeps the queue sound (R182, R39). -/
theorem State.qRead_queueSound (s : State) (hs : s.QueueSound) : s.qRead.2.QueueSound := by
  have hc := State.QueueSound.cap_pos hs
  by_cases hn : s.queue.count = 0
  · rcases s.qRead_cases with ⟨h, e⟩ | ⟨h, e⟩
    · rw [e]; exact hs
    · exact absurd hn h
  · have hq : s.qRead.2.queue =
        ⟨s.queue.buf.set s.queue.head none, (s.queue.head + 1) % s.cfg.cap, s.queue.count - 1⟩ := by
      rcases s.qRead_cases with ⟨h, e⟩ | ⟨h, e⟩
      · exact absurd h hn
      · rw [e]
    have := hs.count
    refine ⟨by rw [hq]; simp [hs.length], by rw [hq]; simp; exact Nat.mod_lt _ hc, by rw [hq]; simp; omega, ?_, ?_⟩
    · intro k hk
      rw [State.qRead_count s hn] at hk
      rw [State.qRead_queueEntry s hs hn k (by omega), if_neg (by omega)]
      exact hs.live (k+1) (by omega)
    · intro k hk hk2
      rw [State.qRead_count s hn] at hk; simp at hk2
      rw [State.qRead_queueEntry s hs hn k hk2]
      split
      · rfl
      · exact hs.free (k+1) (by omega) (by omega)

end Sys2Proof.Machine
end

