-- ==== Sys2Proof/Tests/Slice0.lean ====
section
/-! SUPPORT. Tests, each on one step or one function, with the vector of 95_test_vectors.md or the rule's own example it is
taken from; then a witness for every statement with hypotheses, clause by clause, at the edges of its ranges. -/

namespace Sys2Proof.Tests

open Sys2Proof.Machine

/-- CFG-A's block after reset with the draws raw = 0, ovf_pending = 0. -/
def blockA : State := State.resetWith Config.cfgA 0 false

/-- The block with the given tick and raw count. -/
def clockAt (ticks : Word) (raw : BitVec 16) : State := { blockA with clock := ⟨raw, ticks, false, true⟩ }

/-- The block with OVF masked. -/
def masked (s : State) : State := { s with mask := ⟨1, [0]⟩ }

/-- The block with one slot's items. -/
def withSlot (n : Nat) (v : Slot) (s : State) : State := { s with slots := s.slots.set n v }

/-- The block transmitting at E = 0 with a match armed at `target`. -/
def armedAt (target : Word) (s : State) : State := { s with tx := ⟨.transmitting, .high, target, true, false⟩ }

/-- The block transmitting with a fired match. -/
def firedAt (target : Word) (s : State) : State := { s with tx := ⟨.transmitting, .high, target, false, true⟩ }

/-- The queue of capacity 4 holding the given pulses from index 0. -/
def queueOf (ps : List Pulse) (s : State) : State :=
  { s with queue := ⟨ps.map some ++ List.replicate (4 - ps.length) none, 0, ps.length⟩ }

/-- A full queue of capacity 4. -/
def fullQueue (s : State) : State := queueOf [⟨.high, 20⟩, ⟨.high, 30⟩, ⟨.high, 40⟩, ⟨.high, 50⟩] s

/-- The block with a host command next, on the host's turn. -/
def hostNext (c : Command) (s : State) : State := { s with hostCmds := [.command c], turns := [.host] }

/-- The next state of an outcome. -/
def next? : Host.Outcome State Fault Refusal → Option State
  | .next t => some t
  | _ => none

/-- A command's next state. -/
def run (i : Instr) (s : State) : Option State := next? (exec i s)

/-! ### Well-formedness -/

theorem test_wellFormed_refuses_slot_16 :
    ((Instr.perInit 16).wellFormed || (Instr.perIsNow 16).wellFormed || (Instr.dlReset 16).wellFormed ||
      (Instr.vdlReset 16 0).wellFormed || (Instr.dlIsNow 16).wellFormed) = false := by decide

theorem test_wellFormed_takes_slot_15 :
    ((Instr.perInit 15).wellFormed && (Instr.perIsNow 15).wellFormed && (Instr.dlReset 15).wellFormed &&
      (Instr.vdlReset 15 0).wellFormed && (Instr.dlIsNow 15).wellFormed) = true := by decide

/-! ### Decoding: words written out from R73's encoding column -/

theorem test_decode_clock_words :
    decode 0b00000000000000000000000000000001#32 9 = .ok .ticks ∧
    decode 0b00000000000000000000000000000010#32 9 = .ok .counts ∧
    decode 0b00000000000000000000000000000011#32 9 = .ok .micros ∧
    decode 0b00000000000000000000000000000100#32 9 = .ok .millis ∧
    decode 0b00000000000000000000000000000101#32 9 = .ok (.delay .counts 9) ∧
    decode 0b00000000000000000010000000000101#32 9 = .ok (.delay .ticks 9) := by decide

theorem test_decode_slot_words :
    decode 0b00000000000000000000010100010000#32 9 = .ok (.perInit 5) ∧
    decode 0b00000000000000000000100000010001#32 9 = .ok (.perIsNow 8) ∧
    decode 0b00000000000000000000001100010010#32 9 = .ok (.dlReset 3) ∧
    decode 0b00000000000000000000001000010011#32 9 = .ok (.vdlReset 2 9) ∧
    decode 0b00000000000000000000111100010100#32 9 = .ok (.dlIsNow 15) := by decide

theorem test_decode_transmitter_and_scope_words :
    decode 0b00000000000000000001000000100000#32 9 = .ok (.txSend .high 9) ∧
    decode 0b00000000000000000000000000100000#32 9 = .ok (.txSend .low 9) ∧
    decode 0b00000000000000000100000000110000#32 9 = .ok (.atomicEnter 1) ∧
    decode 0b00000000000000001000000000110000#32 9 = .ok (.atomicEnter 2) ∧
    decode 0b00000000000000000000000000110001#32 9 = .ok .atomicExit := by decide

/-- DEC-3, DEC-6, DEC-7, DEC-9 to DEC-12. -/
theorem test_decode_illegal_words :
    decode 0x00000305#32 0 = .error .unusedField ∧ decode 0x00000000#32 0 = .error .unassignedOp ∧
    decode 0x00010001#32 0 = .error .reservedBits ∧ decode 0x00001001#32 0 = .error .unusedField ∧
    decode 0x000000FF#32 0 = .error .unassignedOp ∧ decode 0x00004031#32 0 = .error .unusedField ∧
    decode 0x00000006#32 0 = .error .unassignedOp := by decide

/-- R51: least significant byte first. -/
theorem test_decode_bytes :
    decodeBytes [0x13, 0x02, 0, 0, 0x44, 0x33, 0x22, 0x11, 7] = .ok (.vdlReset 2 0x11223344#32, [7]) ∧
    decodeBytes [0x13, 0x02, 0, 0, 0x44, 0x33, 0x22] = .error .partialTransaction := by decide

/-- R51: RES has eight bytes, least significant first. -/
theorem test_res_bytes :
    { blockA with res := 0x1122334455667788 }.resBytes = [0x88, 0x77, 0x66, 0x55, 0x44, 0x33, 0x22, 0x11] ∧
    dwordOfBytes 0x88 0x77 0x66 0x55 0x44 0x33 0x22 0x11 = 0x1122334455667788 := by decide

theorem test_decodeTableWord :
    decodeTableWord 32 0x00002005 = some (.delay .ticks 0) ∧
    decodeTableWord 64 0x0000000700002005 = some (.delay .ticks 7) ∧ decodeTableWord 32 0 = none := by decide

/-- Each row's word is the first command run after reset. -/
theorem test_placed_words_run :
    step (State.reset.withFetchWord 32 0x00000114) = exec (.dlIsNow 1) State.reset ∧
    step (State.reset.withFetchWord 32 0x00001020) = exec (.txSend .high 0) State.reset ∧
    step (State.reset.withFetchWord 32 0x0000C030) = exec (.atomicEnter 3) State.reset := ⟨rfl, rfl, rfl⟩

/-- Log 19: a partial access enables the host, whose turn is refused. -/
theorem test_partial_access_takes_the_turn :
    let s := { blockA with hostCmds := [.partialAccess [1]], turns := [.host] }
    s.enabled .host = true ∧ step s = .refused (.partialAccess [1]) := ⟨by decide, rfl⟩

/-! ### Clock -/

/-- RD-1. -/
theorem test_ticks : (run .ticks (clockAt 0x1234 0x56)).map (·.res) = some 0x1234 := by decide

/-- RD-3: the top W bits of the tick count are dropped. -/
theorem test_counts_drops_top_bits : (run .counts (clockAt 0x01000000 5)).map (·.res) = some 5 := by decide

/-- RD-6: a pending overflow under an OVF mask is not counted in. -/
theorem test_counts_pending :
    (run .counts (masked { clockAt 0x12 3 with clock.ovfPending := true })).map (·.res) = some 0x1203 := by decide

/-- RD-7's state: a race window of 4 counts. -/
def raceA : State := { clockAt 0x12 2 with cfg := { Config.cfgA with raceWindow := 4 } }

/-- RD-7: in the race window either value, whatever the free value. -/
theorem test_counts_race :
    (run .counts raceA).map (·.res) = some 0x1202 ∨ (run .counts raceA).map (·.res) = some 0x1102 := by
  have e : (run .counts raceA).map (·.res) =
      some ((if Config.freeStale 0 then 0x1202#32 - 0x100#32 else 0x1202#32).setWidth 64) := rfl
  rw [e]
  cases Config.freeStale 0
  · exact .inl rfl
  · exact .inr rfl

/-- RD-11. -/
theorem test_micros : (run .micros (clockAt 0xFFFFFFFF 0)).map (·.res) = some 4398046510080 := by decide

/-- RD-12. -/
theorem test_millis : (run .millis (clockAt 0xFFFFFFFF 0)).map (·.res) = some 4398046510 := by decide

/-- RD-13: the floor. -/
theorem test_millis_floor :
    (run .millis { clockAt 3 0 with cfg := { Config.cfgA with w := 16, p := 8, fCpu := 8000000 } }).map (·.res) = some 196 := by
  decide

/-- DLY-2. -/
theorem test_delay_range :
    (run (.delay .counts 0x80000000) blockA).map (fun t => (t.fault, t.dly.active)) =
      some (some (.delayRange 0x80000000), false) := by decide

/-- DLY-3: the poll at 0x23 calls the hook and the poll at 0x24 completes. -/
theorem test_delay_poll_across_wrap :
    (State.delayPoll { clockAt 0x01000000 0x23 with dly := ⟨true, 0xFFFFFFC0, 100, .counts⟩ }).events = [.hook] ∧
    (State.delayPoll { clockAt 0x01000000 0x24 with dly := ⟨true, 0xFFFFFFC0, 100, .counts⟩ }).dly.active = false := by
  decide

/-- CLK-2. -/
theorem test_counter_wrap :
    (clockAt 0x41 0xFF).counterStep.clock = ⟨0, 0x41, true, true⟩ ∧ (clockAt 0x41 0xFF).counterStep.trueCount = 0x4200 := by
  decide

/-- CLK-3. -/
theorem test_counter_tickLost :
    let s := masked { clockAt 0x41 0xFF with clock.ovfPending := true }
    s.counterStep.fault = some (.tickLost 0x41) ∧ s.counterStep.clock.raw = 0xFF := by decide

/-- CLK-8: the comparator sees the new count. -/
theorem test_counter_match :
    let s := armedAt 0x1211 (clockAt 0x12 0x10)
    s.counterStep.tx.cmpArmed = false ∧ s.counterStep.tx.cmpPending = true := by decide

/-- CLK-7, its third counter step: ages, then the counter must wait. -/
theorem test_counter_age :
    let s := { clockAt 0 1 with
      cfg := { Config.cfgA with latMax := 2 }, clock := ⟨1, 0, true, true⟩, lat := ⟨1, 0⟩ }
    s.counterStep.lat.ovfAge = 2 ∧ s.enabled .cnt = true ∧ s.counterStep.enabled .cnt = false := by decide

/-- CLK-6. -/
theorem test_overflow_service_wraps :
    let s := { clockAt 0xFFFFFFFF 3 with clock.ovfPending := true }
    s.overflowService.clock = ⟨3, 0, false, true⟩ ∧ s.overflowService.trueCount = 3 ∧ s.trueCount = 3 := by decide

/-! ### Deadline slots -/

/-- SD-1 to SD-6. -/
theorem test_signed_delta :
    reached 5 0xFFFFFFF0 = true ∧ reached 0xFFFFFFF0 5 = false ∧ reached (7 + 0x7FFFFFFF) 7 = true ∧
    reached (7 + 0x80000000) 7 = false ∧ reached 7 7 = true ∧ reached 6 7 = false := by decide

/-- PER-1. -/
theorem test_perInit :
    (run (.perInit 0) (clockAt 0x00FFFFFE 0)).map (fun t => t.slotAt 0) = some ⟨0x1E8, false, true⟩ := by decide

/-- PER-6. -/
theorem test_perInit_range : (run (.perInit 5) blockA).map (·.fault) = some (some (.slotRange 5)) := by decide

/-- PER-3: `next` moves on from itself. -/
theorem test_perIsNow :
    (run (.perIsNow 0) (withSlot 0 ⟨0x1E8, false, true⟩ (clockAt 1 0xE8))).map (fun t => (t.res, (t.slotAt 0).next)) =
      some (1, 0x5D0) := by decide

/-- PER-5. -/
theorem test_perIsNow_kind : (run (.perIsNow 1) blockA).map (·.fault) = some (some (.slotKind 1 0x11)) := by decide

/-- DL-1. -/
theorem test_dlReset :
    (run (.dlReset 1) (withSlot 1 ⟨9, true, true⟩ (clockAt 0x00FFFFFF 0xF0))).map (fun t => t.slotAt 1) =
      some ⟨0x1E4, false, true⟩ := by decide

/-- DL-9: a TICKS-base slot. -/
theorem test_dlReset_ticks : (run (.dlReset 3) (clockAt 0x10 0x77)).map (fun t => (t.slotAt 3).next) = some 0x13 := by decide

/-- DL-5. -/
theorem test_vdlReset : (run (.vdlReset 2 3) (clockAt 0x10 0x77)).map (fun t => (t.slotAt 2).next) = some 0x13 := by decide

/-- DL-7 and DL-8: the kind is checked before the delay. -/
theorem test_vdlReset_checks :
    (run (.vdlReset 2 0x80000000) blockA).map (·.fault) = some (some (.delayRange 0x80000000)) ∧
    (run (.vdlReset 1 0x80000000) blockA).map (·.fault) = some (some (.slotKind 1 0x13)) := by decide

/-- DL-3: the poll that latches. -/
theorem test_dlIsNow_latches :
    (run (.dlIsNow 1) (withSlot 1 ⟨0x1E4, false, true⟩ (clockAt 1 0xE4))).map (fun t => (t.res, (t.slotAt 1).elapsed)) =
      some (1, true) := by decide

/-- DL-11: the window was missed; RST-3: an uninitialised slot. -/
theorem test_dlIsNow_missed_and_uninit :
    (run (.dlIsNow 1) (withSlot 1 ⟨0x1E4, false, true⟩ (clockAt 0x00800001 0xE4))).map (·.res) = some 0 ∧
    (run (.dlIsNow 1) blockA).map (·.fault) = some (some (.slotUninit 1)) := by decide

/-! ### Queue and transmitter -/

/-- Q-1 and Q-2. -/
theorem test_queue_wraps_round :
    let s := { blockA with queue := ⟨[some ⟨.low, 9⟩, none, none, some ⟨.high, 8⟩], 3, 2⟩ }
    let t := { blockA with queue := ⟨[some ⟨.low, 9⟩, some ⟨.low, 7⟩, none, some ⟨.high, 8⟩], 3, 3⟩ }
    s.qWrite ⟨.low, 7⟩ = (true, t) ∧ t.qRead.1 = ⟨.high, 8⟩ ∧ t.qRead.2.queue.head = 0 ∧ t.qRead.2.queue.count = 2 := by
  decide

/-- Q-3 and Q-4. -/
theorem test_queue_empty_and_full :
    blockA.qRead = (⟨.low, 0⟩, blockA) ∧ (fullQueue blockA).qWrite ⟨.low, 7⟩ = (false, fullQueue blockA) := by decide

/-- R202's example: from IDLE. -/
theorem test_txSend_idle :
    (run (.txSend .high 100) blockA).map (fun t => (t.tx, t.res, t.events)) =
      some (⟨.transmitting, .high, 100, true, false⟩, 1, [.out 0 0 .high]) := by decide

/-- TX-3 (the zero check stands before the state test) and TX-4. -/
theorem test_txSend_zero_and_short :
    (run (.txSend .high 0) (queueOf [⟨.low, 5⟩] (armedAt 9 blockA))).map (fun t => (t.res, t.queue.count)) = some (0, 1) ∧
    (run (.txSend .high 3) { blockA with cfg := { Config.cfgA with minPulse := 4 } }).map (·.fault) =
      some (some (.shortPulse 3)) := by decide

/-- TX-10: a queued pulse. -/
theorem test_matchService_next_pulse :
    let t := (queueOf [⟨.low, 50⟩] (firedAt 100 (clockAt 0 100))).matchService
    t.events = [.out 100 100 .low] ∧ t.tx = ⟨.transmitting, .low, 150, true, false⟩ ∧ t.queue.count = 0 := by decide

/-- TX-11: the queue is empty. -/
theorem test_matchService_idle :
    let t := (firedAt 350 (clockAt 1 94)).matchService
    t.events = [.out 350 350 .low] ∧ t.tx.txState = .idle ∧ t.tx.cmpArmed = false := by decide

/-- R201: what the two bindings show of an output. -/
theorem test_bindings :
    let s := (blockA.setOutput .high 100)
    let c := { s with cfg := { Config.cfgA with binding := .callback } }
    s.pin = some .high ∧ s.callbacks = [] ∧ c.pin = none ∧ c.callbacks = [.high] := by decide

/-! ### Scopes -/

/-- SC-2. -/
theorem test_atomicEnter :
    (run (.atomicEnter 2) { blockA with mask := ⟨1, [0]⟩ }).map (·.mask) = some ⟨3, [0, 1]⟩ := by decide

/-- SC-6. -/
theorem test_atomicEnter_overflow :
    (run (.atomicEnter 0) { blockA with mask := ⟨0, List.replicate 8 0⟩ }).map (·.fault) = some (some (.scopeOverflow 8)) := by
  decide

/-- SC-3. -/
theorem test_atomicExit : (run .atomicExit { blockA with mask := ⟨3, [0, 1]⟩ }).map (·.mask) = some ⟨1, [0]⟩ := by decide

/-- SC-5. -/
theorem test_atomicExit_underflow : (run .atomicExit blockA).map (·.fault) = some (some .scopeUnderflow) := by decide

/-! ### Conversion and the assembler -/

/-- CONV-1, CONV-3, CONV-5, CONV-6. -/
theorem test_conversion_rounding :
    Config.cfgA.convCounts ⟨1, .ms⟩ = 250 ∧ Config.cfgA.convTicks ⟨1, .ms⟩ = 1 ∧ Config.cfgA.convCounts ⟨2, .us⟩ = 1 ∧
    { Config.cfgA with convRound := .floor }.convCounts ⟨6, .us⟩ = 1 ∧
    { Config.cfgA with convRound := .ceil }.convTicks ⟨1, .us⟩ = 1 := by decide +kernel

/-- CONV-8, CONV-9, CONV-10. -/
theorem test_conversion_variant :
    { Config.cfgA with p := 1 }.variant ⟨200, .s⟩ = some (.ticks, 12500000) ∧
    { Config.cfgA with p := 1 }.countOverflow ⟨300, .s⟩ = true ∧
    { Config.cfgA with p := 1 }.variant ⟨40000, .s⟩ = none := by decide +kernel

/-- R78's table. -/
theorem test_assemble :
    Config.cfgA.assemble (.delayT 9) = .ok ⟨0x00002005, 9⟩ ∧ Config.cfgA.assemble (.txSend .high 9) = .ok ⟨0x00001020, 9⟩ ∧
    Config.cfgA.assemble (.dlReset 3) = .ok ⟨0x00000312, 0⟩ ∧ Config.cfgA.assemble (.vdlReset 1 0) = .error .slotKind ∧
    Config.cfgA.assemble (.perInit 4) = .error .slotRange ∧ Config.cfgA.assemble (.perInit 16) = .error .slotField ∧
    Config.cfgA.assemble (.delayC (2 ^ 31)) = .error .delayRange ∧
    Config.cfgA.assemble (.txHigh (2 ^ 32)) = .error .durationRange := by decide

/-- R79's table: durations, and R106: a pulse that converts to 0 is refused. -/
theorem test_assemble_pseudo :
    Config.cfgA.assemble (.txLowDur ⟨1, .ms⟩) = .ok ⟨0x00000020, 250⟩ ∧
    Config.cfgA.assemble (.txHighDur ⟨1, .us⟩) = .error .pulseDuration ∧
    { Config.cfgA with p := 1 }.assemble (.delayDur ⟨200, .s⟩) = .ok ⟨0x00002005, 12500000⟩ ∧
    Config.cfgA.assemble .atomicAll = .ok ⟨0x0000C030, 0⟩ := by decide +kernel

/-- R78's syntax. -/
theorem test_parse :
    parseLine "VDL.RESET s2, 0x10 ; arm" = some (.vdlReset 2 16) ∧ parseLine "TX.SEND H, 100" = some (.txSend .high 100) ∧
    parseLine "ATOMIC.ENTER OVF+CMP" = some (.atomicEnter 3) ∧ parseLine "TX.LOW.DUR 250us" = some (.txLowDur ⟨250, .us⟩) ∧
    parseLine "TX.SEND H 100" = none := by decide +kernel

/-! ### Witnesses: states and operands that meet a statement's hypotheses, clause by clause -/

/-- A test that a state meets the invariant. -/
def soundCheck (s : State) : Bool :=
  s.cfg.legal && decide (s.clock.raw.toNat < 2 ^ s.cfg.w) && s.clock.ovfIe && decide (s.lat.ovfAge ≤ s.cfg.latMax) &&
  decide (s.lat.cmpAge ≤ s.cfg.latMax) && decide (s.slots.length = s.cfg.numSlots) &&
  decide (s.queue.buf.length = s.cfg.cap) && decide (s.queue.head < s.cfg.cap) && decide (s.queue.count ≤ s.cfg.cap) &&
  (List.range s.cfg.cap).all (fun k =>
    match s.queueEntry k with
    | some p => decide (k < s.queue.count) && decide (p.duration ≠ 0)
    | none => decide (s.queue.count ≤ k)) &&
  decide (s.tx.txState = .idle →
    s.queue.count = 0 ∧ s.tx.cmpArmed = false ∧ s.tx.cmpPending = false ∧ s.tx.outLevel = s.cfg.idleLevel) &&
  decide (s.tx.txState = .transmitting → s.tx.cmpArmed = !s.tx.cmpPending) &&
  decide (s.mask.scopeStack.length ≤ s.cfg.scopeDepthMax)

theorem inv_of_soundCheck (s : State) (h : soundCheck s = true) : s.Inv := by
  simp only [soundCheck, Bool.and_eq_true, decide_eq_true_eq, List.all_eq_true, List.mem_range] at h
  obtain ⟨⟨⟨⟨⟨⟨⟨⟨⟨⟨⟨⟨h1, h2⟩, h3⟩, h4⟩, h5⟩, h6⟩, h7⟩, h8⟩, h9⟩, hq⟩, h10⟩, h11⟩, h12⟩ := h
  refine ⟨h1, h2, h3, h4, h5, h6, ⟨h7, h8, h9, fun k hk => ?_, fun k hk hc => ?_⟩, ⟨h10, h11⟩, h12⟩
  · have := hq k (by omega)
    split at this
    · rename_i p hp
      simp only [Bool.and_eq_true, decide_eq_true_eq] at this
      exact ⟨p, hp, this.2⟩
    · simp only [decide_eq_true_eq] at this
      omega
  · have := hq k hc
    split at this
    · simp only [Bool.and_eq_true, decide_eq_true_eq] at this
      omega
    · assumption

/-- Both interrupts pending and unmasked. -/
def bothPending : State := firedAt 100 { clockAt 0xFFFFFFFF 0xFF with clock.ovfPending := true }

/-- CFG-A with latencies of up to 3 counter steps, an overflow pending for 2 of them. -/
def latePending : State :=
  { blockA with cfg := { Config.cfgA with latMax := 3 }, clock := ⟨2, 5, true, true⟩, lat := ⟨2, 0⟩, turns := [.cnt] }

theorem witness_DecodeOfEncode :
    (Instr.vdlReset 15 0xFFFFFFFF).wellFormed = true ∧ (Instr.perInit 0).wellFormed = true := by decide

theorem witness_EncodeOfDecode :
    decode 0x00002005#32 7 = .ok (.delay .ticks 7) ∧ (Instr.delay .ticks 7).usesArg = true := by decide

theorem witness_RowsNeverOverlap : ∃ r ∈ rows, r.selects 0x0000C030#32 = true := by decide

theorem witness_IllegalWordsRejected :
    (∀ r ∈ rows, r.name.op ≠ (0x00000006#32).toNat % 256) ∧
    ((∃ r ∈ rows, r.name.op = (0x00010001#32).toNat % 256) ∧ (0x00010001#32).toNat / 65536 ≠ 0) ∧
    (∃ r ∈ rows, r.name.op = (0x0000D031#32).toNat % 256 ∧ (0x0000D031#32).toNat / 65536 = 0 ∧
      0x0000D031#32 &&& r.mask ≠ r.value) ∧
    (∃ r ∈ rows, r.name.op = (0x00000F14#32).toNat % 256 ∧ 0x00000F14#32 &&& r.mask = r.value) := by decide

theorem witness_StepRunsDecodedCommand :
    let s := hostNext ⟨0x00002005, 7⟩ (clockAt 5 0xFF)
    s.cfg.legal = true ∧ s.fault = none ∧ s.ovfEff = false ∧ s.cmpEff = false ∧ s.dly.active = false ∧
    s.hostCmds = [.command ⟨0x00002005, 7⟩] ∧ s.turns = [.host] ∧ decode 0x00002005#32 7 = .ok (.delay .ticks 7) := by decide

/-- The same with a masked pending overflow and the transmitter running. -/
theorem witness_PlacedWordRuns :
    let s := masked (armedAt 9 { clockAt 5 0xFF with clock.ovfPending := true })
    s.cfg.legal = true ∧ s.fault = none ∧ s.ovfEff = false ∧ s.cmpEff = false ∧ s.dly.active = false ∧
    decodeTableWord 32 0x00001020 = some (.txSend .high 0) := by decide

theorem witness_AccessesThatAreNoCommand :
    let s := hostNext ⟨0x00010001, 0⟩ blockA
    let u := { s with hostCmds := [.partialAccess [0x01]] }
    s.cfg.legal = true ∧ s.fault = none ∧ s.ovfEff = false ∧ s.cmpEff = false ∧ s.dly.active = false ∧
    s.turns = [.host] ∧ s.hostCmds = [.command ⟨0x00010001, 0⟩] ∧ decode 0x00010001#32 0 = .error .reservedBits ∧
    u.cfg.legal = true ∧ u.fault = none ∧ u.turns = [.host] ∧ u.hostCmds = [.partialAccess [0x01]] := by decide

theorem witness_EnabledAgentsMove :
    let s := hostNext ⟨1, 0⟩ blockA
    s.cfg.legal = true ∧ s.fault = none ∧ s.enabled .host = true ∧ s.enabled .cnt = true ∧
    bothPending.enabled .ovf = true ∧ bothPending.enabled .cmps = true := by decide

theorem witness_UnfaultedBlockGoesOn :
    blockA.cfg.legal = true ∧ blockA.fault = none ∧ (∀ bytes more, blockA.hostCmds ≠ .partialAccess bytes :: more) :=
  ⟨by decide, rfl, fun _ _ h => nomatch h⟩

/-- A latency of 2^W is refused and 2^W - 1 is not; a window of 2^W is not refused. -/
theorem witness_RefusedConfigurations :
    { Config.cfgA with latMax := 256 }.legal = false ∧ { Config.cfgA with latMax := 255, raceWindow := 256 }.legal = true := by
  decide

theorem witness_FaultIsPreciseAndSticky :
    (let s := hostNext ⟨0x00000114, 0⟩ blockA
     ∃ t, step s = .next t ∧ t.fault = some (.slotUninit 1)) ∧
    (let s := { blockA with fault := some (.slotUninit 1) }
     s.cfg.legal = true ∧ s.fault = some (.slotUninit 1)) := ⟨⟨_, rfl, rfl⟩, by decide, rfl⟩

/-- Both interrupts pending, first both masked at the counter's step before TickLost could be raised, then neither masked. -/
theorem witness_EffectivePending :
    (let s := { firedAt 100 (clockAt 5 0xFE) with
       clock := ⟨0xFE, 5, true, true⟩, mask := ⟨3, [0]⟩, turns := [.cnt] }
     s.Inv ∧ (∃ t, step s = .next t) ∧ s.clock.ovfPending = true ∧ s.mask.imask.getLsbD 0 = true ∧
       s.tx.cmpPending = true ∧ s.mask.imask.getLsbD 1 = true) ∧
    (bothPending.Inv ∧ bothPending.fault = none ∧ bothPending.clock.ovfPending = true ∧
      bothPending.mask.imask.getLsbD 0 = false ∧ bothPending.tx.cmpPending = true ∧
      bothPending.mask.imask.getLsbD 1 = false) :=
  ⟨⟨inv_of_soundCheck _ (by decide), ⟨_, rfl⟩, rfl, by decide, rfl, by decide⟩,
    inv_of_soundCheck _ (by decide), rfl, rfl, by decide, rfl, by decide⟩

theorem witness_ServicesCommute : bothPending.ovfEff = true ∧ bothPending.cmpEff = true := by decide

theorem witness_FirstFailingCheckIsReported :
    blockA.cfg.numSlots ≤ 4 ∧ blockA.cfg.slotCfg[3]? = some ⟨.deadline, .ticks, 3⟩ ∧
    blockA.slotCheck [.periodic] 0x10 4 = .error (.slotRange 4) ∧
    blockA.slotCheck [.periodic] 0x11 1 = .error (.slotKind 1 0x11) ∧
    blockA.slotCheck [.deadline] 0x12 2 = .error (.slotKind 2 0x12) ∧
    blockA.slotCheck [.vdeadline] 0x13 1 = .error (.slotKind 1 0x13) ∧
    blockA.slotCheck [.deadline, .vdeadline] 0x14 0 = .error (.slotKind 0 0x14) ∧
    blockA.slotCheck [.vdeadline] 0x13 2 = .ok ⟨.vdeadline, .ticks, 0⟩ ∧ 2 ^ 31 ≤ (0x80000000#32).toNat ∧
    blockA.slotCheck [.periodic] 0x11 0 = .ok ⟨.periodic, .counts, 1000⟩ ∧ (blockA.slotAt 0).valid = false ∧
    blockA.slotCheck [.deadline, .vdeadline] 0x14 1 = .ok ⟨.deadline, .counts, 500⟩ ∧ (blockA.slotAt 1).valid = false ∧
    (3#32 ≠ 0 ∧ (3#32).toNat < { Config.cfgA with minPulse := 4 }.minPulse) := by decide

theorem witness_TrueCountAdvancesByOne :
    (clockAt 0xFFFFFFFF 0xFF).Inv ∧ (clockAt 0xFFFFFFFF 0xFF).fault = none ∧
    (clockAt 0xFFFFFFFF 0xFF).counterStep.fault = none ∧
    bothPending.Inv ∧ bothPending.enabled .ovf = true ∧ bothPending.enabled .cmps = true :=
  ⟨inv_of_soundCheck _ (by decide), rfl, by decide, inv_of_soundCheck _ (by decide), by decide, by decide⟩

theorem witness_CountsErrorBound :
    (let s := masked { clockAt 0 0 with clock.ovfPending := true }
     s.Inv ∧ s.readCounts.1 ≠ s.trueCount) ∧
    (let s := hostNext ⟨2, 0⟩ (clockAt 0 0xFF)
     s.Inv ∧ s.cfg.raceWindow = 0 ∧ s.mask.imask.getLsbD 0 = false ∧ s.enabled .host = true) :=
  ⟨⟨inv_of_soundCheck _ (by decide), by decide⟩, inv_of_soundCheck _ (by decide), rfl, by decide, by decide⟩

theorem witness_MillisIsMicrosOverThousand :
    let s := clockAt 0xFFFFFFFF 0
    s.clock.ticks.toNat * 2 ^ s.cfg.w * s.cfg.p * 1000000 / s.cfg.fCpu < 2 ^ 64 ∧
    (∃ t, exec .micros s = .next t) ∧ ∃ u, exec .millis s = .next u := ⟨by decide, ⟨_, rfl⟩, _, rfl⟩

theorem witness_DelayIssue : (0x7FFFFFFF#32).toNat < 2 ^ 31 ∧ 2 ^ 31 ≤ (0x80000000#32).toNat := by decide

theorem witness_DelayPoll : { blockA with dly := ⟨true, 0xFFFFFFFE, 3, .ticks⟩ }.dly.active = true := rfl

theorem witness_CounterStepResult :
    (let s := masked { clockAt 5 0xFF with clock.ovfPending := true }
     s.Inv ∧ s.clock.raw.toNat = 2 ^ s.cfg.w - 1 ∧ s.clock.ovfPending = true) ∧
    (let s := clockAt 5 0xFF
     s.Inv ∧ s.clock.raw.toNat = 2 ^ s.cfg.w - 1 ∧ s.clock.ovfPending = false) ∧
    (let s := clockAt 5 0xFE
     s.Inv ∧ s.clock.raw.toNat < 2 ^ s.cfg.w - 1) :=
  ⟨⟨inv_of_soundCheck _ (by decide), by decide, by decide⟩, ⟨inv_of_soundCheck _ (by decide), by decide, by decide⟩,
    inv_of_soundCheck _ (by decide), by decide⟩

theorem witness_OverflowServiceResult : bothPending.enabled .ovf = true := by decide

theorem witness_TicksChangeOnlyInOverflowService :
    let s := { bothPending with turns := [.ovf] }
    ∃ t, step s = .next t ∧ t.clock.ticks ≠ s.clock.ticks := ⟨_, rfl, by decide⟩

theorem witness_MaskedServicesCannotRun :
    let s := { blockA with mask := ⟨3, [0]⟩, turns := [.cnt] }
    (∃ t, step s = .next t) ∧ s.mask.imask.getLsbD 0 = true ∧ s.mask.imask.getLsbD 1 = true ∧ s.takeTurn.1 ≠ .host :=
  ⟨⟨_, rfl⟩, by decide, by decide, by decide⟩

theorem witness_PerInitResult : blockA.cfg.slotCfg[0]? = some ⟨.periodic, .counts, 1000⟩ := rfl

/-- The two clauses at the edge between them: due at `next`, not due one count before. -/
theorem witness_PerIsNowResult :
    (let s := withSlot 0 ⟨0x1E8, false, true⟩ (clockAt 1 0xE8)
     s.cfg.slotCfg[0]? = some ⟨.periodic, .counts, 1000⟩ ∧ (s.slotAt 0).valid = true ∧
       0 ≤ sdelta (s.readBase .counts).1 (s.slotAt 0).next) ∧
    (let s := withSlot 0 ⟨0x1E8, false, true⟩ (clockAt 1 0xE7)
     (s.slotAt 0).valid = true ∧ sdelta (s.readBase .counts).1 (s.slotAt 0).next < 0) := by decide

theorem witness_DlResetResult : blockA.cfg.slotCfg[3]? = some ⟨.deadline, .ticks, 3⟩ := rfl

theorem witness_VdlResetResult :
    blockA.cfg.slotCfg[2]? = some ⟨.vdeadline, .ticks, 0⟩ ∧ (0x7FFFFFFF#32).toNat < 2 ^ 31 := by decide

theorem witness_DlIsNowResult :
    (let s := withSlot 1 ⟨0x1E4, true, true⟩ blockA
     s.cfg.slotCfg[1]? = some ⟨.deadline, .counts, 500⟩ ∧ (s.slotAt 1).valid = true ∧ (s.slotAt 1).elapsed = true) ∧
    (let s := withSlot 1 ⟨0x1E4, false, true⟩ (clockAt 1 0xE4)
     (s.slotAt 1).valid = true ∧ (s.slotAt 1).elapsed = false ∧ 0 ≤ sdelta (s.readBase .counts).1 (s.slotAt 1).next) ∧
    (let s := withSlot 1 ⟨0x1E4, false, true⟩ (clockAt 1 0xE3)
     (s.slotAt 1).valid = true ∧ (s.slotAt 1).elapsed = false ∧ sdelta (s.readBase .counts).1 (s.slotAt 1).next < 0) := by decide

theorem witness_FiringWindow : (0x7FFFFFFF#32).toNat < 2 ^ 31 := by decide

/-- Vector PER-7's state: one whole period late, with k = 1 and r = 500. -/
theorem witness_PeriodicCatchUp :
    let s := withSlot 0 ⟨1000, false, true⟩ (clockAt 9 0xC4)
    s.cfg.slotCfg[0]? = some ⟨.periodic, .counts, 1000⟩ ∧
    (∀ j, j ≤ 1 + 1 → (State.readBase .counts { s with draws := s.draws + j }).1 = (s.readBase .counts).1) ∧ 0 < s.slots.length ∧
    (s.slotAt 0).valid = true ∧ 500 < (1000#32).toNat ∧
    ((s.readBase .counts).1 - (s.slotAt 0).next).toNat = 1 * (1000#32).toNat + 500 ∧
    1 * (1000#32).toNat + 500 < 2 ^ 31 ∧ (1000#32).toNat < 2 ^ 31 := by decide

theorem witness_LatchClearedOnlyByReset :
    let s := hostNext ⟨0x00000112, 0⟩ (withSlot 1 ⟨5, true, true⟩ blockA)
    ∃ t, step s = .next t ∧ (s.slotAt 1).elapsed = true ∧ (t.slotAt 1).elapsed = false := ⟨_, rfl, by decide, by decide⟩

theorem witness_QueueWriteResult :
    (fullQueue (armedAt 9 blockA)).Inv ∧ (fullQueue blockA).queue.count = (fullQueue blockA).cfg.cap ∧
    blockA.Inv ∧ blockA.queue.count ≠ blockA.cfg.cap :=
  ⟨inv_of_soundCheck _ (by decide), by decide, inv_of_soundCheck _ (by decide), by decide⟩

theorem witness_QueueReadResult :
    blockA.Inv ∧ blockA.queue.count = 0 ∧ (fullQueue (armedAt 9 blockA)).Inv ∧ (fullQueue blockA).queue.count ≠ 0 :=
  ⟨inv_of_soundCheck _ (by decide), rfl, inv_of_soundCheck _ (by decide), by decide⟩

theorem witness_QueueIsFirstInFirstOut :
    blockA.Inv ∧ blockA.queue.count = 0 ∧
    (∀ p, QueueOp.write p ∈ [QueueOp.write ⟨.low, 5⟩, .read, .read, .write ⟨.high, 1⟩] → p.duration ≠ 0) := by
  refine ⟨inv_of_soundCheck _ (by decide), rfl, fun p hp => ?_⟩
  simp only [List.mem_cons, QueueOp.write.injEq, reduceCtorEq, List.not_mem_nil, or_false, false_or] at hp
  rcases hp with rfl | rfl <;> decide

theorem witness_TxSendResult :
    (1#32 ≠ 0 ∧ blockA.cfg.minPulse ≤ (1#32).toNat ∧ blockA.tx.txState = .idle) ∧
    (armedAt 9 blockA).tx.txState = .transmitting ∧ (armedAt 9 blockA).cfg.minPulse ≤ (1#32).toNat := by decide

theorem witness_CounterStepMatches :
    (let s := armedAt 0x1211 (clockAt 0x12 0x10)
     s.Inv ∧ s.fault = none ∧ s.counterStep.fault = none ∧ s.tx.cmpArmed = true ∧ s.trueCount + 1 = s.tx.target) ∧
    (let s := armedAt 0x1212 (clockAt 0x12 0x10)
     s.Inv ∧ s.fault = none ∧ s.counterStep.fault = none ∧ (s.tx.cmpArmed = false ∨ s.trueCount + 1 ≠ s.tx.target)) :=
  ⟨⟨inv_of_soundCheck _ (by decide), rfl, by decide, rfl, by decide⟩,
    inv_of_soundCheck _ (by decide), rfl, by decide, by decide⟩

theorem witness_MatchServiceResult :
    (let s := queueOf [⟨.low, 50⟩] (firedAt 100 (clockAt 0 100))
     s.Inv ∧ s.liveQueue = [some ⟨.low, 50⟩]) ∧
    (let s := firedAt 350 (clockAt 1 94)
     s.Inv ∧ s.liveQueue = []) :=
  ⟨⟨inv_of_soundCheck _ (by decide), by decide⟩, inv_of_soundCheck _ (by decide), by decide⟩

theorem witness_QueueOwnership :
    (let s := { queueOf [⟨.low, 50⟩] (firedAt 100 blockA) with turns := [.cmps] }
     ∃ t, step s = .next t ∧ t.queue ≠ s.queue) ∧
    (let s := hostNext ⟨0x00001020, 5⟩ (armedAt 100 blockA)
     ∃ t, step s = .next t ∧ t.queue ≠ s.queue) := ⟨⟨_, rfl, by decide⟩, _, rfl, by decide⟩

/-- The greatest depth, and one below it. -/
theorem witness_AtomicEnterResult :
    (List.replicate 8 (0#2)).length = blockA.cfg.scopeDepthMax ∧ (List.replicate 7 (0#2)).length ≠ blockA.cfg.scopeDepthMax ∧
    (1#2).getLsbD 0 = true := by decide

theorem witness_AtomicExitResult :
    blockA.mask.scopeStack = [] ∧ ({ blockA with mask := ⟨3, [0, 1]⟩ }).mask.scopeStack = [0] ++ [1] ∧
    blockA.mask.scopeStack.length < blockA.cfg.scopeDepthMax ∧ (∃ t, exec (.atomicEnter 1) blockA = .next t) ∧
    (∃ t, exec .atomicExit (masked { blockA with clock.ovfPending := true }) = .next t ∧ t.ovfEff = true) ∧
    ∃ t, exec .atomicExit { firedAt 9 blockA with mask := ⟨2, [0]⟩ } = .next t ∧ t.cmpEff = true :=
  ⟨rfl, rfl, by decide, ⟨_, rfl⟩, ⟨_, rfl, by decide⟩, _, rfl, by decide⟩

theorem witness_ReadCommandsFrame :
    ∃ t, exec .counts (clockAt 5 7) = .next t ∧ Instr.counts ∈ [Instr.ticks, .counts, .micros, .millis] :=
  ⟨_, rfl, by decide⟩

theorem witness_SlotCommandsFrame :
    (∃ t, exec (.perInit 0) blockA = .next t) ∧ (∃ t, exec (.dlReset 1) blockA = .next t) ∧
    (∃ t, exec (.vdlReset 2 7) blockA = .next t) ∧ (∃ t, exec (.perIsNow 0) (withSlot 0 ⟨0, false, true⟩ blockA) = .next t) ∧
    ∃ t, exec (.dlIsNow 1) (withSlot 1 ⟨0, false, true⟩ blockA) = .next t :=
  ⟨⟨_, rfl⟩, ⟨_, rfl⟩, ⟨_, rfl⟩, ⟨_, rfl⟩, _, rfl⟩

theorem witness_OtherCommandsFrame :
    (∃ t, exec (.delay .counts 7) blockA = .next t) ∧
    (blockA.tx.txState = .idle ∧ ∃ t, exec (.txSend .high 7) blockA = .next t) ∧
    ((armedAt 9 blockA).tx.txState = .transmitting ∧ ∃ t, exec (.txSend .high 7) (armedAt 9 blockA) = .next t) ∧
    (∃ t, exec (.atomicEnter 3) blockA = .next t) ∧ ∃ t, exec .atomicExit (masked blockA) = .next t :=
  ⟨⟨_, rfl⟩, ⟨rfl, _, rfl⟩, ⟨rfl, _, rfl⟩, ⟨_, rfl⟩, _, rfl⟩

theorem witness_ResultEncoding :
    (∃ t, exec .ticks blockA = .next t) ∧ (∃ t, exec .counts blockA = .next t) ∧
    (∃ t, exec .atomicExit blockA = .next t ∧ t.fault ≠ blockA.fault) ∧ (∃ t, exec (.txSend .low 0) blockA = .next t) ∧
    (∃ t, exec (.delay .ticks 7) blockA = .next t) ∧ (∃ t, exec .micros blockA = .next t) ∧
    ∃ t, exec .millis blockA = .next t :=
  ⟨⟨_, rfl⟩, ⟨_, rfl⟩, ⟨_, rfl, by decide⟩, ⟨_, rfl⟩, ⟨_, rfl⟩, ⟨_, rfl⟩, _, rfl⟩

/-- RST-2's draws, and the greatest value of the draw of `raw`. -/
theorem witness_ResetValues : (5#16).toNat < 2 ^ Config.cfgA.w ∧ (255#16).toNat < 2 ^ Config.cfgA.w := by decide

theorem witness_InvAtReset : Config.cfgA.legal = true ∧ Config.standard.legal = true ∧ (255#16).toNat < 2 ^ Config.cfgA.w := by
  decide

theorem witness_StepKeepsInv :
    let s := { bothPending with turns := [.cmps] }
    s.Inv ∧ ∃ t, step s = .next t :=
  ⟨inv_of_soundCheck _ (by decide), _, rfl⟩

theorem witness_ConfigurationFixedAndTraceGrows : ∃ t, step (hostNext ⟨0x00001020, 5⟩ blockA) = .next t := ⟨_, rfl⟩

theorem witness_UnmaskedOverflowLosesNoTick :
    latePending.Inv ∧ latePending.mask.imask.getLsbD 0 = false ∧ latePending.clock.ovfPending = true ∧
    latePending.clock.raw.toNat = latePending.lat.ovfAge ∧ ∃ t, step latePending = .next t :=
  ⟨inv_of_soundCheck _ (by decide), by decide, rfl, rfl, _, rfl⟩

theorem witness_ConversionInWholeNumbers :
    Config.cfgA.legal = true ∧ Config.cfgA.convRound = .nearestTiesUp ∧
    { Config.cfgA with convRound := .floor }.legal = true ∧ { Config.cfgA with convRound := .ceil }.legal = true := by decide

/-- COUNTS, TICKS and REFUSED (CONV-1, CONV-8, CONV-10). -/
theorem witness_VariantFitsItsUnit :
    Config.cfgA.slotOfDuration .periodic ⟨1, .ms⟩ = .ok ⟨.periodic, .counts, 250⟩ ∧
    { Config.cfgA with p := 1 }.slotOfDuration .deadline ⟨200, .s⟩ = .ok ⟨.deadline, .ticks, 12500000⟩ ∧
    { Config.cfgA with p := 1 }.slotOfDuration .deadline ⟨40000, .s⟩ = .error .variantRefused := by decide +kernel

theorem witness_AssembledLinesPassTheirChecks :
    blockA.fault = none ∧ blockA.cfg.assemble (.vdlReset 2 (2 ^ 31 - 1)) = .ok ⟨0x00000213, 0x7FFFFFFF⟩ := by decide

/-! ### A fair execution (20_memory.md R58) -/

/-- A DELAY.T of one tick in progress, one count before a wrap. -/
def delaying : State := { clockAt 0 0xFF with dly := ⟨true, 0, 1, .ticks⟩ }

/-- The host polls on turns 0 and 3; on the others a pending overflow is serviced, else the counter steps. -/
def mover (n : Nat) (s : State) : Agent := if n = 0 ∨ n = 3 then .host else if s.ovfEff then .ovf else .cnt

/-- The execution under `mover`. -/
def fairRun : Nat → State
  | 0 => delaying
  | n + 1 => (next? (agentStep (mover n (fairRun n)) (fairRun n))).getD (fairRun n)

/-- Its schedule. -/
def fairSched (n : Nat) : Turn := ⟨mover n (fairRun n), [], (fairRun n).turns, (fairRun n).draws⟩

/-- What stays so along it. -/
def Quiet (s : State) : Prop :=
  s.cfg = Config.cfgA ∧ s.fault = none ∧ s.tx.cmpArmed = false ∧ s.tx.cmpPending = false ∧ s.mask.imask = 0 ∧
    s.clock.ovfIe = true

/-- Once the DELAY is over, each turn is the counter's or the overflow service's, and the state stays quiet. -/
theorem fairRun_late (n : Nat) : Quiet (fairRun (n + 4)) ∧ (fairRun (n + 4)).dly.active = false ∧
    (fairRun (n + 4)).hostCmds = [] := by
  induction n with
  | zero => exact ⟨⟨rfl, rfl, rfl, rfl, rfl, rfl⟩, rfl, rfl⟩
  | succ n ih =>
    obtain ⟨⟨hg, hf, ha, hp, hm, hi⟩, hd, hc⟩ := ih
    have hmv : ¬ (n + 4 = 0 ∨ n + 4 = 3) := by omega
    have hr : fairRun (n + 1 + 4) =
        if (fairRun (n + 4)).ovfEff then (fairRun (n + 4)).overflowService else (fairRun (n + 4)).counterStep := by
      show (next? (agentStep (mover (n + 4) (fairRun (n + 4))) (fairRun (n + 4)))).getD _ = _
      unfold mover
      rw [if_neg hmv]
      split <;> rfl
    rw [hr]
    cases ho : (fairRun (n + 4)).ovfEff with
    | true => exact ⟨⟨hg, hf, ha, hp, hm, hi⟩, hd, hc⟩
    | false =>
      have hov : (fairRun (n + 4)).clock.ovfPending = false := by
        simpa [State.ovfEff, State.ovfMasked, hi, hm] using ho
      rcases State.counterStep_cases (fairRun (n + 4)) with ⟨-, h, -⟩ | ⟨-, e⟩
      · rw [hov] at h; cases h
      · have hmc : (fairRun (n + 4)).counterStep =
            (fairRun (n + 4)).ageInterrupts.advanceRaw (fairRun (n + 4)).nextRaw := by
          rw [e]; simp [State.matchCheck, ha]
        have hie : (fairRun (n + 4)).counterStep.clock.ovfIe = true := by
          rw [hmc]; unfold State.advanceRaw; split <;> exact hi
        simp only [Bool.false_eq_true, if_false]
        exact ⟨⟨by simpa using hg, by rw [hmc]; simpa using hf, by rw [hmc]; simpa using ha,
          by rw [hmc]; simpa using hp, by simpa using hm, hie⟩, by simpa using hd, by simpa using hc⟩

/-- A quiet state's overflow service is enabled when the overflow is effectively pending, and else its counter. -/
theorem enabled_of_quiet {s : State} (h : Quiet s) : s.enabled (if s.ovfEff then .ovf else .cnt) = true := by
  obtain ⟨hg, hf, ha, hp, hm, hi⟩ := h
  cases ho : s.ovfEff <;> simp [State.enabled, State.latencyReached, State.cmpEff, hf, ho, hp]

/-- A turn of the schedule finds the state as the last one left it. -/
theorem fairRun_onTurn (n : Nat) : (fairRun n).onTurn (fairSched n) = fairRun n := by
  simp [State.onTurn, fairSched]

theorem fairRun_isExecution : IsExecution fairRun fairSched := by
  intro n
  rw [fairRun_onTurn]
  match n with
  | 0 => exact ⟨rfl, rfl, rfl⟩
  | 1 => exact ⟨rfl, rfl, rfl⟩
  | 2 => exact ⟨rfl, rfl, rfl⟩
  | 3 => exact ⟨rfl, rfl, rfl⟩
  | n + 4 =>
    obtain ⟨hq, -⟩ := fairRun_late n
    have hmv : mover (n + 4) (fairRun (n + 4)) = if (fairRun (n + 4)).ovfEff then .ovf else .cnt := by
      unfold mover; rw [if_neg (by omega)]
    refine ⟨by rw [hq.1]; rfl, ?_, ?_⟩
    · show (fairRun (n + 4)).enabled (mover (n + 4) (fairRun (n + 4))) = true
      rw [hmv]; exact enabled_of_quiet hq
    · show agentStep (mover (n + 4) (fairRun (n + 4))) (fairRun (n + 4)) =
        .next ((next? (agentStep (mover (n + 4) (fairRun (n + 4))) (fairRun (n + 4)))).getD (fairRun (n + 4)))
      rw [hmv]; split <;> rfl

theorem fairRun_weaklyFair : WeaklyFair fairRun fairSched := by
  rintro a (rfl | rfl) n hr
  · have hmv : ∀ k, (fairRun (k + 4)).ovfEff = false → Moves .cnt fairSched (k + 4) := fun k hk => by
      show mover (k + 4) (fairRun (k + 4)) = .cnt
      unfold mover
      rw [if_neg (by omega), hk]
      rfl
    cases ho : (fairRun (n + 4)).ovfEff with
    | false => exact ⟨n + 4, by omega, hmv n ho⟩
    | true =>
      refine ⟨n + 1 + 4, by omega, hmv (n + 1) ?_⟩
      have : fairRun (n + 1 + 4) = (fairRun (n + 4)).overflowService := by
        show (next? (agentStep (mover (n + 4) (fairRun (n + 4))) (fairRun (n + 4)))).getD _ = _
        unfold mover
        rw [if_neg (by omega), ho]
        rfl
      rw [this]
      simp [State.ovfEff]
  · have h := hr (n + 4) (by omega)
    obtain ⟨-, hd, hc⟩ := fairRun_late n
    simp [State.ready, State.hostHasWork, hd, hc] at h

theorem fairRun_baseAdvances : BaseAdvances fairRun fairSched 0 where
  forward := by
    have host : ∀ i, Moves .host fairSched i → i = 0 ∨ i = 3 := fun i h => by
      by_contra hn
      have hm : mover i (fairRun i) = .host := h
      unfold mover at hm
      rw [if_neg hn] at hm
      split at hm <;> cases hm
    intro i j _ hij hi hj _
    rcases host i hi with rfl | rfl <;> rcases host j hj with rfl | rfl
    · rfl
    · rfl
    · omega
    · rfl
  moving i w _ h := by
    have := (h (i + 4) (by omega)).1
    rw [(fairRun_late i).2.1] at this
    cases this

/-- `delay_completes` has an execution that meets all its hypotheses: a fair one, in which the counter wraps without end and
the host's DELAY.T completes at its second poll. -/
theorem witness_delay_completes : ∃ r sched, IsExecution r sched ∧ WeaklyFair r sched ∧ (r 0).dly.active = true ∧
    (r 0).dly.d.toNat < 2 ^ 31 ∧ BaseAdvances r sched 0 ∧ (r 4).dly.active = false :=
  ⟨fairRun, fairSched, fairRun_isExecution, fairRun_weaklyFair, rfl, by decide, fairRun_baseAdvances, rfl⟩

/-- The host program is an input (10_state.md R20), and one that issues a command on every turn without end has its
execution: here TICKS (word 0x00000001), with ticks 0 in RES each time. -/
theorem test_host_may_issue_for_ever :
    IsExecution (fun _ => blockA) fun _ => ⟨.host, [.command ⟨0x00000001, 0⟩], [], 0⟩ :=
  fun _ => ⟨(by decide : blockA.cfg.legal = true),
    (by decide : (blockA.onTurn ⟨.host, [.command ⟨0x00000001, 0⟩], [], 0⟩).enabled .host = true), rfl⟩

end Sys2Proof.Tests
end

section
/-! PROOFS. 00_scope.md: the signed delta (R9); the configuration is fixed (R6) and the event trace only grows
(10_state.md R35). -/

namespace Sys2Proof.Machine

/-! ### The signed delta -/

/-- The two's complement reading (R9). -/
theorem sdelta_eq_ite (a b : Word) :
    sdelta a b =
      if (a - b).toNat < 2 ^ 31 then ((a - b).toNat : Int) else ((a - b).toNat : Int) - 2 ^ 32 := by
  have hhalf : 2 * (a - b).toNat < 2 ^ 32 ↔ (a - b).toNat < 2 ^ 31 := by omega
  rw [sdelta, BitVec.toInt_eq_toNat_cond]
  simp only [hhalf]
  norm_cast

/-- "Has reached or passed" as R9 first says it; `reached_iff` is its form on the unsigned difference. -/
theorem reached_iff_sdelta_nonneg (a b : Word) : reached a b = true ↔ 0 ≤ sdelta a b := decide_eq_true_iff

/-- Settles O18: the two's complement reading, and the test in its two forms. -/
theorem signedDelta : Obligations.SignedDelta :=
  fun a b => ⟨sdelta_eq_ite a b, reached_iff_sdelta_nonneg a b, reached_iff a b⟩

/-! ### The configuration and the event trace -/

/-- The state keeps the configuration of `s` (R6), and its trace is that of `s` with at most one event more (R35). -/
def State.Extends (t s : State) : Prop :=
  t.cfg = s.cfg ∧ ∃ new, t.events = s.events ++ new ∧ new.length ≤ 1

theorem State.Extends.of_events_eq {s t : State} (hcfg : t.cfg = s.cfg) (hev : t.events = s.events) : t.Extends s :=
  ⟨hcfg, [], by simp [hev], by simp⟩

theorem State.Extends.of_events_append {s t : State} {e : Event} (hcfg : t.cfg = s.cfg)
    (hev : t.events = s.events ++ [e]) : t.Extends s :=
  ⟨hcfg, [e], hev, by simp⟩

/-- The compare-match service makes exactly one output event: the next pulse's, or the return to the idle level (R204). -/
theorem State.matchService_events (s : State) :
    ∃ count level, s.matchService.events = s.events ++ [.out s.tx.target count level] := by
  simp only [State.matchService]
  split <;> simp

theorem State.matchService_extends (s : State) : s.matchService.Extends s := by
  obtain ⟨count, level, hev⟩ := s.matchService_events
  exact .of_events_append s.matchService_cfg hev

/-- A DELAY poll completes silently or makes one Hook event (R130, R131). -/
theorem State.delayPoll_extends (s : State) : s.delayPoll.Extends s := by
  rcases s.delayPoll_cases with ⟨-, hdone⟩ | ⟨-, hwait⟩
  · rw [hdone]; exact .of_events_eq rfl rfl
  · rw [hwait]; exact .of_events_append rfl rfl

theorem exec_extends {i : Instr} {s t : State} (h : exec i s = .next t) : t.Extends s := by
  rcases exec_cases i s t h with ⟨f, rfl⟩ | ⟨-, -, -, hcfg, -, -, -, hnew⟩
  · exact .of_events_eq rfl rfl
  · exact ⟨hcfg, hnew⟩

/-- Every agent's step extends the state before it; that the step first uses up the model's inputs touches neither the
configuration nor the trace. -/
theorem step_extends {s t : State} (h : step s = .next t) : t.Extends s := by
  obtain ⟨-, -, turns, draws, -, -, hcnt | hovf | hcmps | hpoll | hidle | hissue⟩ := step_cases h
  · obtain ⟨-, rfl⟩ := hcnt
    exact .of_events_eq (State.counterStep_cfg _) (State.counterStep_events _)
  · obtain ⟨-, rfl⟩ := hovf
    exact .of_events_eq rfl rfl
  · obtain ⟨-, rfl⟩ := hcmps
    exact State.matchService_extends { s with turns := turns, draws := draws }
  · obtain ⟨-, -, rfl⟩ := hpoll
    exact State.delayPoll_extends { s with turns := turns, draws := draws }
  · obtain ⟨-, -, -, rfl⟩ := hidle
    exact .of_events_eq rfl rfl
  · obtain ⟨-, -, c, more, -, ⟨e, -, rfl⟩ | ⟨i, -, hexec⟩⟩ := hissue
    · exact .of_events_eq rfl rfl
    · exact (exec_extends hexec : t.Extends { s with turns := turns, draws := draws, hostCmds := more })

/-- Settles O56, by the agent that moves and, for the host's command, by what any command can leave of the state. -/
theorem configurationFixedAndTraceGrows : Obligations.ConfigurationFixedAndTraceGrows :=
  fun _ _ h => step_extends h

end Sys2Proof.Machine
end

section
/-! PROOFS. 10_state.md: what the counter step and the services leave alone (R36), and the true count in numbers (R25). -/

namespace Sys2Proof.Machine

/-! ### The fields an agent's step changes -/

/-- A state is its fields, so a frame is proved one field at a time. -/
theorem State.eq_of_fields {s t : State} (clock : s.clock = t.clock) (lat : s.lat = t.lat) (slots : s.slots = t.slots)
    (queue : s.queue = t.queue) (tx : s.tx = t.tx) (mask : s.mask = t.mask) (res : s.res = t.res) (dly : s.dly = t.dly)
    (fault : s.fault = t.fault) (events : s.events = t.events) (cfg : s.cfg = t.cfg) (hostCmds : s.hostCmds = t.hostCmds)
    (turns : s.turns = t.turns) (draws : s.draws = t.draws) : s = t := by
  cases s; cases t; simp_all

/-- The counter's advance changes `raw` alone, and a wrap sets the overflow flag (R120). -/
@[simp] theorem State.advanceRaw_clock (s : State) (r : BitVec 16) :
    (s.advanceRaw r).clock = ⟨r, s.clock.ticks, s.clock.ovfPending || decide (r = 0), s.clock.ovfIe⟩ := by
  unfold State.advanceRaw
  split
  · simp [*]
  · simp only [decide_eq_false ‹_›, Bool.or_false]

/-- A wrap gives the overflow flag the age 0 (R120). -/
@[simp] theorem State.advanceRaw_lat (s : State) (r : BitVec 16) :
    (s.advanceRaw r).lat = ⟨if r = 0 then 0 else s.lat.ovfAge, s.lat.cmpAge⟩ := by
  unfold State.advanceRaw
  split <;> simp [*]

/-- The comparator leaves the output, the target and the transmitter's state alone (R203). -/
theorem State.matchCheck_tx (s : State) :
    s.matchCheck.tx =
      ⟨s.tx.txState, s.tx.outLevel, s.tx.target, s.matchCheck.tx.cmpArmed, s.matchCheck.tx.cmpPending⟩ := by
  rcases s.matchCheck_cases with ⟨-, -, h⟩ | ⟨-, h⟩ <;> rw [h]

theorem State.counterStep_clock_frame (s : State) :
    s.counterStep.clock = ⟨s.counterStep.clock.raw, s.clock.ticks, s.counterStep.clock.ovfPending, s.clock.ovfIe⟩ := by
  rcases s.counterStep_cases with ⟨-, -, h⟩ | ⟨-, h⟩ <;> simp [h]

theorem State.counterStep_tx_frame (s : State) :
    s.counterStep.tx =
      ⟨s.tx.txState, s.tx.outLevel, s.tx.target, s.counterStep.tx.cmpArmed, s.counterStep.tx.cmpPending⟩ := by
  rcases s.counterStep_cases with ⟨-, -, h⟩ | ⟨-, h⟩
  · rw [h]; rfl
  · rw [h]; simpa using State.matchCheck_tx (s.ageInterrupts.advanceRaw s.nextRaw)

/-- Settles O51, field by field. -/
theorem agentStepsFrame : Obligations.AgentStepsFrame := by
  intro s
  refine ⟨?_, rfl, ?_⟩
  · exact State.eq_of_fields s.counterStep_clock_frame rfl (by simp) (by simp) s.counterStep_tx_frame (by simp) (by simp)
      (by simp) rfl (by simp) (by simp) (by simp) (by simp) (by simp)
  · exact State.eq_of_fields (by simp) (by simp) (by simp) rfl rfl (by simp) (by simp)
      (by simp) (by simp) rfl (by simp) (by simp) (by simp) (by simp)

/-! ### The true count -/

/-- E in numbers (R25). -/
theorem State.trueCount_toNat {s : State} (hlegal : s.cfg.legal = true) (hraw : s.clock.raw.toNat < 2 ^ s.cfg.w) :
    s.trueCount.toNat =
      ((s.clock.ticks.toNat + if s.clock.ovfPending then 1 else 0) * 2 ^ s.cfg.w + s.clock.raw.toNat) % 2 ^ 32 := by
  have hbit : (bitWord s.clock.ovfPending).toNat = if s.clock.ovfPending then 1 else 0 := by
    cases s.clock.ovfPending <;> rfl
  rw [State.trueCount, compose_toNat _ _ _ (Config_legal_width_le hlegal) hraw, BitVec.toNat_add, hbit]
  exact ((Nat.mod_modEq _ _).mul_right _).add_right _

/-- The clock after a counter step without a fault (R120). -/
theorem State.counterStep_clock_of_no_fault {s : State} (h : s.counterStep.fault = none) :
    (s.nextRaw ≠ 0 ∨ s.clock.ovfPending = false) ∧ s.counterStep.clock =
      ⟨s.nextRaw, s.clock.ticks, s.clock.ovfPending || decide (s.nextRaw = 0), s.clock.ovfIe⟩ := by
  rcases s.counterStep_cases with ⟨-, -, hstep⟩ | ⟨hno, hstep⟩
  · rw [hstep] at h; cases h
  · exact ⟨by simpa [imp_iff_not_or] using hno, by simp [hstep]⟩

theorem State.nextRaw_lt (s : State) (hw : s.cfg.w ≤ 16) : s.nextRaw.toNat < 2 ^ s.cfg.w :=
  s.nextRaw_toNat hw ▸ Nat.mod_lt _ (Nat.two_pow_pos _)

/-- `raw` wraps exactly at its greatest value (R120). -/
theorem State.nextRaw_eq_zero_iff {s : State} (hw : s.cfg.w ≤ 16) (hraw : s.clock.raw.toNat < 2 ^ s.cfg.w) :
    s.nextRaw = 0 ↔ s.clock.raw.toNat + 1 = 2 ^ s.cfg.w := by
  rw [← BitVec.toNat_inj, s.nextRaw_toNat hw]
  constructor
  · intro hzero
    by_contra hne
    rw [Nat.mod_eq_of_lt (by omega)] at hzero
    exact Nat.succ_ne_zero _ hzero
  · intro htop
    rw [htop, Nat.mod_self]
    rfl

/-- A counter step adds 1 to `raw`; where it wraps, the flag it sets stands for the 2^W that `raw` loses (R120). -/
theorem State.counterStep_trueCount {s : State} (hlegal : s.cfg.legal = true) (hraw : s.clock.raw.toNat < 2 ^ s.cfg.w)
    (hfault : s.counterStep.fault = none) : s.counterStep.trueCount = s.trueCount + 1 := by
  obtain ⟨hno, hclock⟩ := State.counterStep_clock_of_no_fault hfault
  have hw := Config_legal_width_le hlegal
  have hwraps := State.nextRaw_eq_zero_iff hw hraw
  have hcount :
      (s.clock.ticks.toNat + if (s.clock.ovfPending || decide (s.nextRaw = 0)) = true then 1 else 0) * 2 ^ s.cfg.w +
        s.nextRaw.toNat =
      (s.clock.ticks.toNat + if s.clock.ovfPending = true then 1 else 0) * 2 ^ s.cfg.w + s.clock.raw.toNat + 1 := by
    by_cases hwrap : s.nextRaw = 0
    · have hov : s.clock.ovfPending = false := hno.resolve_left (not_not_intro hwrap)
      simp [hwrap, hov, ← hwraps.1 hwrap]
      ring
    · have htop := mt hwraps.2 hwrap
      rw [decide_eq_false hwrap, Bool.or_false, s.nextRaw_toNat hw, Nat.mod_eq_of_lt (by omega), Nat.add_assoc]
  apply BitVec.eq_of_toNat_eq
  rw [BitVec.toNat_add, State.trueCount_toNat hlegal hraw,
    State.trueCount_toNat (by simpa using hlegal) (by simpa [hclock] using s.nextRaw_lt hw), hclock, State.counterStep_cfg]
  exact hcount ▸ (Nat.mod_add_mod _ _ _).symm

/-- Settles O19: the number, the counter step, and the two services, of which the first moves the pending tick into `ticks`
and the second leaves the clock alone. -/
theorem trueCountAdvancesByOne : Obligations.TrueCountAdvancesByOne := by
  intro s hs
  refine ⟨State.trueCount_toNat hs.legal hs.raw, fun _ => State.counterStep_trueCount hs.legal hs.raw, fun hen => ?_,
    fun _ => State.trueCount_congr s.matchService_clock s.matchService_cfg⟩
  have hov : s.clock.ovfPending = true := by
    simp only [State.enabled, State.ovfEff, Bool.and_eq_true] at hen
    obtain ⟨-, ⟨hov, -⟩, -⟩ := hen
    exact hov
  exact s.overflowService_trueCount_of_pending hov

end Sys2Proof.Machine
end

section
/-! PROOFS. 10_state.md R39: the invariant, at reset and across every step. -/

namespace Sys2Proof.Machine

/-! ### What the invariant depends on -/

theorem State.queueEntry_congr {s t : State} (hq : t.queue = s.queue) (hg : t.cfg = s.cfg) (k : Nat) :
    t.queueEntry k = s.queueEntry k := by
  simp only [State.queueEntry, State.queueIndex, hq, hg]

theorem State.QueueSound.congr {s t : State} (h : s.QueueSound) (hq : t.queue = s.queue) (hg : t.cfg = s.cfg) :
    t.QueueSound where
  length := by rw [hq, hg]; exact h.length
  head := by rw [hq, hg]; exact h.head
  count := by rw [hq, hg]; exact h.count
  live k hk := by rw [State.queueEntry_congr hq hg]; exact h.live k (hq ▸ hk)
  free k hk hcap := by rw [State.queueEntry_congr hq hg]; exact h.free k (hq ▸ hk) (hg ▸ hcap)

theorem State.TxSound.congr {s t : State} (h : s.TxSound) (hq : t.queue = s.queue) (htx : t.tx = s.tx) (hg : t.cfg = s.cfg) :
    t.TxSound where
  idle := by rw [hq, htx, hg]; exact h.idle
  transmitting := by rw [htx]; exact h.transmitting

/-- Of the state the invariant reads the clock, the ages, the number of slots, the queue, the transmitter, the depth of the
scopes and the configuration. -/
theorem State.Inv.congr {s t : State} (h : s.Inv) (hg : t.cfg = s.cfg) (hc : t.clock = s.clock) (hl : t.lat = s.lat)
    (hs : t.slots.length = s.slots.length) (hq : t.queue = s.queue) (htx : t.tx = s.tx) (hm : t.mask = s.mask) : t.Inv where
  legal := by rw [hg]; exact h.legal
  raw := by rw [hg, hc]; exact h.raw
  ovfIe := by rw [hc]; exact h.ovfIe
  ovfAge := by rw [hg, hl]; exact h.ovfAge
  cmpAge := by rw [hg, hl]; exact h.cmpAge
  slots := by rw [hg, hs]; exact h.slots
  queue := h.queue.congr hq hg
  tx := h.tx.congr hq htx hg
  scopes := by rw [hg, hm]; exact h.scopes

/-- A raised fault leaves every other item as it was (R256). -/
theorem State.Inv.raise {s : State} (h : s.Inv) (f : BlockFault) : (s.raise f).Inv :=
  h.congr rfl rfl rfl rfl rfl rfl rfl

/-- A step uses up the model's own inputs, which no clause of the invariant reads. -/
theorem State.Inv.withInputs {s : State} (h : s.Inv) (turns : List Agent) (draws : Nat) (cmds : List HostAccess) :
    State.Inv { s with turns := turns, draws := draws, hostCmds := cmds } :=
  h.congr rfl rfl rfl rfl rfl rfl rfl

/-! ### Reset -/

/-- A legal configuration's queue has room (R258). -/
theorem Config_legal_cap_pos {c : Config} (h : c.legal = true) : 0 < c.cap := by
  have hp := Config_legal_problem h
  unfold Config.problem at hp
  by_contra hcap
  rw [if_pos (by omega : c.cap = 0)] at hp
  split_ifs at hp

/-- At reset no entry of the queue is written (R281). -/
theorem State.resetWith_queueEntry (cfg : Config) (raw : BitVec 16) (pending : Bool) (k : Nat) :
    (State.resetWith cfg raw pending).queueEntry k = none := by
  simp only [State.queueEntry, State.resetWith, List.getElem?_replicate]
  split <;> rfl

/-- Settles O54: at reset the queue is empty, the transmitter IDLE and no scope open. -/
theorem invAtReset : Obligations.InvAtReset := fun cfg raw pending hlegal hraw =>
  { legal := hlegal
    raw := hraw
    ovfIe := rfl
    ovfAge := Nat.zero_le _
    cmpAge := Nat.zero_le _
    slots := List.length_replicate
    queue :=
      { length := List.length_replicate
        head := Config_legal_cap_pos hlegal
        count := Nat.zero_le _
        live := fun k hk => absurd hk (Nat.not_lt_zero k)
        free := fun k _ _ => State.resetWith_queueEntry cfg raw pending k }
    tx := { idle := fun _ => ⟨rfl, rfl, rfl, rfl⟩, transmitting := fun h => nomatch h }
    scopes := Nat.zero_le _ }

/-! ### The counter step -/

/-- An age grows only while the interrupt's wait has not reached LAT_MAX, so it stays within it (R26, R56). -/
theorem age_le_latMax {waits : Bool} {age latMax : Nat} (hage : age ≤ latMax) (hlat : (waits && age == latMax) = false) :
    (if waits then age + 1 else age) ≤ latMax := by
  cases waits with
  | false => simpa using hage
  | true =>
    have hne : age ≠ latMax := by simpa using hlat
    rw [if_pos rfl]
    omega

theorem State.Inv.ageInterrupts {s : State} (h : s.Inv) (hlat : s.latencyReached = false) : s.ageInterrupts.Inv :=
  have ⟨hovf, hcmp⟩ := Bool.or_eq_false_iff.1 hlat
  { h with
    ovfAge := age_le_latMax h.ovfAge hovf
    cmpAge := age_le_latMax h.cmpAge hcmp
    queue := h.queue.congr rfl rfl
    tx := h.tx.congr rfl rfl rfl }

theorem State.Inv.advanceRaw {s : State} (h : s.Inv) {r : BitVec 16} (hr : r.toNat < 2 ^ s.cfg.w) : (s.advanceRaw r).Inv where
  legal := by simpa using h.legal
  raw := by simpa using hr
  ovfIe := by simpa using h.ovfIe
  ovfAge := by
    have hage := h.ovfAge
    rw [State.advanceRaw_lat, State.advanceRaw_cfg]
    show (if r = 0 then 0 else s.lat.ovfAge) ≤ s.cfg.latMax
    split <;> omega
  cmpAge := by simpa using h.cmpAge
  slots := by simpa using h.slots
  queue := h.queue.congr (by simp) (by simp)
  tx := h.tx.congr (by simp) (by simp) (by simp)
  scopes := by simpa using h.scopes

/-- A match turns armed into pending, which keeps exactly one of the two (R203, R39 c). -/
theorem State.Inv.matchCheck {s : State} (h : s.Inv) : s.matchCheck.Inv := by
  rcases s.matchCheck_cases with ⟨harmed, -, e⟩ | ⟨-, e⟩
  · rw [e]
    have htx : s.tx.txState ≠ .idle := fun hidle => by
      obtain ⟨-, hnot, -, -⟩ := h.tx.idle hidle
      rw [hnot] at harmed; cases harmed
    exact { h with
      cmpAge := Nat.zero_le _
      queue := h.queue.congr rfl rfl
      tx := ⟨fun hidle => absurd hidle htx, fun _ => rfl⟩ }
  · rw [e]; exact h

/-- A counter step that is enabled keeps the invariant (R120). -/
theorem State.Inv.counterStep {s : State} (h : s.Inv) (hen : s.enabled .cnt = true) : s.counterStep.Inv := by
  rcases s.counterStep_cases with ⟨-, -, e⟩ | ⟨-, e⟩
  · rw [e]; exact h.raise _
  · have hlat : s.latencyReached = false := by
      simp only [State.enabled, Bool.and_eq_true, Bool.not_eq_true'] at hen
      exact hen.2
    rw [e]
    exact ((h.ageInterrupts hlat).advanceRaw (s.nextRaw_lt (Config_legal_width_le h.legal))).matchCheck

/-! ### The services -/

theorem State.Inv.overflowService {s : State} (h : s.Inv) : s.overflowService.Inv :=
  { h with ovfAge := Nat.zero_le _, queue := h.queue.congr rfl rfl, tx := h.tx.congr rfl rfl rfl }

/-- The transmitter after the compare-match service: armed for the pulse it took, or IDLE with nothing left to take (R204). -/
theorem State.matchService_tx_cases {s : State} (hq : s.QueueSound) :
    (∃ level target, s.matchService.tx = ⟨s.tx.txState, level, target, true, false⟩) ∨
    (s.qRead.2.queue.count = 0 ∧ s.matchService.tx = ⟨.idle, s.cfg.idleLevel, s.tx.target, false, false⟩) := by
  by_cases hn : s.queue.count = 0
  · right
    rcases s.qRead_cases with ⟨-, e⟩ | ⟨hne, -⟩
    · exact ⟨by rw [e]; exact hn, by simp [State.matchService, e, Pulse.empty]⟩
    · exact absurd hn hne
  · left
    obtain ⟨p, hp, -, hd, -⟩ := State.qRead_oldest s hq hn
    exact ⟨p.level, s.tx.target + p.duration, by simp only [State.matchService, hp, if_pos hd]; simp⟩

/-- A compare-match service that is enabled finds the transmitter TRANSMITTING, and leaves it armed or IDLE (R204, R39). -/
theorem State.Inv.matchService_txSound {s : State} (h : s.Inv) (hen : s.enabled .cmps = true) : s.matchService.TxSound := by
  have htx : s.tx.txState ≠ .idle := fun hidle => by
    obtain ⟨-, -, hnot, -⟩ := h.tx.idle hidle
    simp [State.enabled, State.cmpEff, hnot] at hen
  rcases State.matchService_tx_cases h.queue with ⟨level, target, e⟩ | ⟨hempty, e⟩
  · exact ⟨fun hidle => absurd (by simpa [e] using hidle) htx, fun _ => by rw [e]; rfl⟩
  · refine ⟨fun _ => ?_, fun htr => ?_⟩
    · rw [e]; exact ⟨by simpa using hempty, rfl, rfl, by simp⟩
    · rw [e] at htr; cases htr

theorem State.Inv.matchService {s : State} (h : s.Inv) (hen : s.enabled .cmps = true) : s.matchService.Inv where
  legal := by simpa using h.legal
  raw := by simpa using h.raw
  ovfIe := by simpa using h.ovfIe
  ovfAge := by simpa using h.ovfAge
  cmpAge := by simp
  slots := by simpa using h.slots
  queue := (State.qRead_queueSound s h.queue).congr (by simp) (by simp)
  tx := h.matchService_txSound hen
  scopes := by simpa using h.scopes

/-! ### The host's step -/

/-- Only TX.SEND writes the transmitter or the queue, and only the scope commands write the masks. -/
theorem exec_queue_tx_mask {i : Instr} {s t : State} (h : exec i s = .next t) :
    (t.queue = s.queue ∧ t.tx = s.tx ∧ t.mask = s.mask) ∨ (∃ level d, i = .txSend level d) ∨ (∃ m, i = .atomicEnter m) ∨
      i = .atomicExit := by
  cases i <;> simp only [exec] at h
  case txSend level d => exact .inr (.inl ⟨level, d, rfl⟩)
  case atomicEnter m => exact .inr (.inr (.inl ⟨m, rfl⟩))
  case atomicExit => exact .inr (.inr (.inr rfl))
  case ticks => rw [execTicks_eq] at h; cases h; exact .inl ⟨rfl, rfl, rfl⟩
  case counts => rw [execCounts_eq] at h; cases h; exact .inl ⟨rfl, rfl, rfl⟩
  case micros => rw [execMicros_eq] at h; cases h; exact .inl ⟨rfl, rfl, rfl⟩
  case millis => rw [execMillis_eq] at h; cases h; exact .inl ⟨rfl, rfl, rfl⟩
  case delay b d =>
    rcases execDelay_cases b d s with ⟨-, e⟩ | ⟨-, e⟩ <;> rw [e] at h <;> cases h <;> exact .inl ⟨rfl, rfl, rfl⟩
  case perInit n =>
    rcases execPerInit_cases n s with ⟨_, -, e⟩ | ⟨_, -, e⟩ <;> rw [e] at h <;> cases h <;> exact .inl ⟨rfl, rfl, rfl⟩
  case perIsNow n =>
    rcases execPerIsNow_cases n s with ⟨_, -, e⟩ | ⟨_, -, ⟨-, e⟩ | ⟨-, -, e⟩ | ⟨-, -, e⟩⟩ <;> rw [e] at h <;> cases h <;>
      exact .inl ⟨rfl, rfl, rfl⟩
  case dlReset n =>
    rcases execDlReset_cases n s with ⟨_, -, e⟩ | ⟨_, -, e⟩ <;> rw [e] at h <;> cases h <;> exact .inl ⟨rfl, rfl, rfl⟩
  case vdlReset n d =>
    rcases execVdlReset_cases n d s with ⟨_, -, e⟩ | ⟨_, -, ⟨-, e⟩ | ⟨-, e⟩⟩ <;> rw [e] at h <;> cases h <;>
      exact .inl ⟨rfl, rfl, rfl⟩
  case dlIsNow n =>
    rcases execDlIsNow_cases n s with ⟨_, -, e⟩ | ⟨_, -, ⟨-, e⟩ | ⟨-, -, e⟩ | ⟨-, -, -, e⟩ | ⟨-, -, -, e⟩⟩ <;>
      rw [e] at h <;> cases h <;> exact .inl ⟨rfl, rfl, rfl⟩

/-- TX.SEND queues only pulses of non-zero duration, and from IDLE it starts with a match armed (R202, R39). -/
theorem State.Inv.execTxSend {s t : State} (h : s.Inv) {level : Level} {d : Word} (hx : execTxSend level d s = .next t) :
    t.Inv := by
  rcases execTxSend_cases level d s with ⟨-, e⟩ | ⟨-, -, e⟩ | ⟨-, -, -, e⟩ | ⟨hd, -, htr, e⟩ <;> rw [e] at hx <;> cases hx
  · exact h.congr rfl rfl rfl rfl rfl rfl rfl
  · exact h.raise _
  · exact { h with
      queue := h.queue.congr rfl rfl
      tx := ⟨fun hidle => (nomatch hidle), fun _ => rfl⟩ }
  · have hq := State.qWrite_queueSound s ⟨level, d⟩ h.queue hd
    exact { h with
      queue := hq.congr rfl (s.qWrite_cfg _).symm
      tx := ⟨fun hidle => (nomatch htr.symm.trans hidle), h.tx.transmitting⟩ }

/-- The masking items enter the invariant by the depth of the scopes alone (R31). -/
theorem State.Inv.withMask {s : State} (h : s.Inv) (m : Masking) (hm : m.scopeStack.length ≤ s.cfg.scopeDepthMax) :
    State.Inv { s with mask := m } :=
  { h with queue := h.queue.congr rfl rfl, tx := h.tx.congr rfl rfl rfl, scopes := hm }

/-- ATOMIC.ENTER opens a scope only below the greatest depth (R230). -/
theorem State.Inv.execAtomicEnter {s t : State} (h : s.Inv) {m : BitVec 2} (hx : execAtomicEnter m s = .next t) : t.Inv := by
  rcases execAtomicEnter_cases m s with ⟨-, e⟩ | ⟨hne, e⟩ <;> rw [e] at hx <;> cases hx
  · exact h.raise _
  · have hdepth := h.scopes
    exact h.withMask _ (by simp; omega)

/-- ATOMIC.EXIT closes a scope (R231). -/
theorem State.Inv.execAtomicExit {s t : State} (h : s.Inv) (hx : execAtomicExit s = .next t) : t.Inv := by
  rcases execAtomicExit_cases s with ⟨-, e⟩ | ⟨outer, saved, hstack, e⟩ <;> rw [e] at hx <;> cases hx
  · exact h.raise _
  · have hdepth := h.scopes
    rw [hstack, List.length_append] at hdepth
    exact h.withMask _ (Nat.le_of_add_right_le hdepth)

/-- Every command keeps the invariant. -/
theorem State.Inv.exec {s t : State} (h : s.Inv) {i : Instr} (hx : exec i s = .next t) : t.Inv := by
  rcases exec_queue_tx_mask hx with ⟨hq, htx, hm⟩ | ⟨level, d, rfl⟩ | ⟨m, rfl⟩ | rfl
  · rcases exec_cases i s t hx with ⟨f, rfl⟩ | ⟨-, hc, hl, hg, -, -, hs, -⟩
    · exact h.raise f
    · exact h.congr hg hc hl hs hq htx hm
  · exact h.execTxSend hx
  · exact h.execAtomicEnter hx
  · exact h.execAtomicExit hx

theorem State.Inv.delayPoll {s : State} (h : s.Inv) : s.delayPoll.Inv :=
  h.congr (by simp) (by simp) (by simp) (by simp) (by simp) (by simp) (by simp)

/-- Settles O55, by the agent that moves. -/
theorem stepKeepsInv : Obligations.StepKeepsInv := by
  intro s t hs hstep
  obtain ⟨-, -, turns, draws, -, hen, hcnt | hovf | hcmps | hpoll | hidle | hissue⟩ := step_cases hstep
  · obtain ⟨hag, rfl⟩ := hcnt
    exact (hs.withInputs turns draws s.hostCmds).counterStep (hag ▸ hen)
  · obtain ⟨-, rfl⟩ := hovf
    exact (hs.withInputs turns draws s.hostCmds).overflowService
  · obtain ⟨hag, rfl⟩ := hcmps
    exact (hs.withInputs turns draws s.hostCmds).matchService (hag ▸ hen)
  · obtain ⟨-, -, rfl⟩ := hpoll
    exact (hs.withInputs turns draws s.hostCmds).delayPoll
  · obtain ⟨-, -, -, rfl⟩ := hidle
    exact hs.withInputs turns draws s.hostCmds
  · obtain ⟨-, -, c, more, -, ⟨e, -, rfl⟩ | ⟨i, -, hexec⟩⟩ := hissue
    · exact (hs.withInputs turns draws more).raise (.illegalCommand c.cmd)
    · exact (hs.withInputs turns draws more).exec hexec

end Sys2Proof.Machine
end

section
/-! PROOFS. 20_memory.md R52, R55, R56: which agents are enabled, that an enabled one moves, and what the host's turn does. -/

namespace Sys2Proof.Machine

/-! ### Enabledness -/

theorem State.hostHasWork_iff (s : State) : s.hostHasWork = true ↔ s.hostCmds ≠ [] ∨ s.dly.active = true := by
  simp [State.hostHasWork]

theorem State.latencyReached_eq_false_iff (s : State) :
    s.latencyReached = false ↔ ¬ (s.ovfEff = true ∧ s.lat.ovfAge = s.cfg.latMax) ∧
      ¬ (s.cmpEff = true ∧ s.lat.cmpAge = s.cfg.latMax) := by
  simp [State.latencyReached]

/-- The HOST line (R56). -/
theorem State.enabled_host_iff (s : State) :
    s.enabled .host = true ↔ s.fault = none ∧ ¬ s.ovfEff = true ∧ ¬ s.cmpEff = true ∧
      (s.hostCmds ≠ [] ∨ s.dly.active = true) := by
  rw [← State.hostHasWork_iff]
  simp [State.enabled, and_assoc]

/-- The CNT line (R56). -/
theorem State.enabled_cnt_iff (s : State) :
    s.enabled .cnt = true ↔ s.fault = none ∧ ¬ (s.ovfEff = true ∧ s.lat.ovfAge = s.cfg.latMax) ∧
      ¬ (s.cmpEff = true ∧ s.lat.cmpAge = s.cfg.latMax) := by
  rw [← State.latencyReached_eq_false_iff]
  simp [State.enabled]

/-- The OVF line (R56). -/
theorem State.enabled_ovf_iff (s : State) : s.enabled .ovf = true ↔ s.fault = none ∧ s.ovfEff = true := by
  simp [State.enabled]

/-- The CMPS line (R56). -/
theorem State.enabled_cmps_iff (s : State) : s.enabled .cmps = true ↔ s.fault = none ∧ s.cmpEff = true := by
  simp [State.enabled]

/-- Settles O9, agent by agent. -/
theorem enablednessOfAgents : Obligations.EnablednessOfAgents :=
  fun s => ⟨s.enabled_host_iff, s.enabled_cnt_iff, s.enabled_ovf_iff, s.enabled_cmps_iff⟩

/-- The turns to come do not decide which agents are enabled. -/
theorem State.enabled_withTurns (s : State) (turns : List Agent) (a : Agent) :
    State.enabled { s with turns := turns } a = s.enabled a := by
  cases a <;> rfl

/-! ### The agent that moves -/

/-- A turn that names an enabled agent is used up by that agent's step. -/
theorem step_of_turn {s : State} {a : Agent} {rest : List Agent} (hlegal : s.cfg.legal = true) (ht : s.turns = a :: rest)
    (hen : s.enabled a = true) : step s = agentStep a { s with turns := rest } := by
  rw [step_of_legal s hlegal (State.enabled_fault_none hen), s.takeTurn_of_enabled a rest ht hen]

/-- Settles O10: `takeTurn` picks an enabled agent, and a turn put in front of the others names whichever is wanted. -/
theorem enabledAgentsMove : Obligations.EnabledAgentsMove := by
  intro s hlegal hfault
  obtain ⟨hen, hinputs⟩ := s.takeTurn_cases hfault
  refine ⟨hen, step_of_legal s hlegal hfault, hinputs, fun a ha => ?_⟩
  exact step_of_turn (s := { s with turns := a :: s.turns }) hlegal rfl ((s.enabled_withTurns _ a).trans ha)

/-! ### Every step but a partial access answers a next state -/

theorem issue_answers_next (c : Command) (s : State) : ∃ t, issue c s = .next t := by
  rcases issue_cases c s with ⟨_, -, h⟩ | ⟨i, -, h⟩
  · exact ⟨_, h⟩
  · rw [h]; exact exec_answers_next i s

theorem hostStep_answers_next {s : State} (hwhole : ∀ bytes more, s.hostCmds ≠ .partialAccess bytes :: more) :
    ∃ t, hostStep s = .next t := by
  rcases hostStep_cases s with ⟨-, h⟩ | ⟨-, -, h⟩ | ⟨-, c, rest, -, h⟩ | ⟨-, bytes, more, hcmds, -⟩
  · exact ⟨_, h⟩
  · exact ⟨_, h⟩
  · rw [h]; exact issue_answers_next c _
  · exact absurd hcmds (hwhole bytes more)

/-- Only the host's step can stop the block; the other agents' are total. -/
theorem agentStep_answers_next (a : Agent) {s : State} (hwhole : ∀ bytes more, s.hostCmds ≠ .partialAccess bytes :: more) :
    ∃ t, agentStep a s = .next t := by
  cases a with
  | host => exact hostStep_answers_next hwhole
  | cnt => exact ⟨_, rfl⟩
  | ovf => exact ⟨_, rfl⟩
  | cmps => exact ⟨_, rfl⟩

/-- Settles O11: some agent moves, and its step answers. -/
theorem unfaultedBlockGoesOn : Obligations.UnfaultedBlockGoesOn := by
  intro s hlegal hfault hwhole
  rw [step_of_legal s hlegal hfault]
  exact agentStep_answers_next _ (s.takeTurn_hostCmds.symm ▸ hwhole)

/-! ### The host's turn -/

theorem issue_of_decode_ok {c : Command} {i : Instr} (h : decode c.cmd c.arg = .ok i) (s : State) : issue c s = exec i s := by
  rw [issue, h]

theorem issue_of_decode_error {c : Command} {e : DecodeReject} (h : decode c.cmd c.arg = .error e) (s : State) :
    issue c s = .next (s.raise (.illegalCommand c.cmd)) := by
  rw [issue, h]; rfl

theorem hostStep_of_command {s : State} {c : Command} {more : List HostAccess} (hdly : s.dly.active = false)
    (hcmds : s.hostCmds = .command c :: more) : hostStep s = issue c { s with hostCmds := more } := by
  simp [hostStep, hdly, hcmds]

theorem hostStep_of_partialAccess {s : State} {bytes : List Byte} {more : List HostAccess} (hdly : s.dly.active = false)
    (hcmds : s.hostCmds = .partialAccess bytes :: more) : hostStep s = .refused (.partialAccess bytes) := by
  simp [hostStep, hdly, hcmds]

section HostTurn

variable {s : State} {rest : List Agent} (hlegal : s.cfg.legal = true) (hfault : s.fault = none) (hovf : s.ovfEff = false)
  (hcmp : s.cmpEff = false) (hdly : s.dly.active = false) (hturns : s.turns = .host :: rest)

include hlegal hfault hovf hcmp hturns in
/-- On its turn a host that has an access to make, and no service to wait for, takes the step (R56). -/
theorem step_of_host_turn (hwork : s.hostCmds ≠ []) : step s = hostStep { s with turns := rest } :=
  step_of_turn hlegal hturns (s.enabled_host_iff.2 ⟨hfault, by simp [hovf], by simp [hcmp], .inl hwork⟩)

include hlegal hfault hovf hcmp hdly hturns

theorem step_of_host_command {c : Command} {more : List HostAccess} (hcmds : s.hostCmds = .command c :: more) :
    step s = issue c { s with hostCmds := more, turns := rest } := by
  rw [step_of_host_turn hlegal hfault hovf hcmp hturns (by simp [hcmds])]
  exact hostStep_of_command (s := { s with turns := rest }) hdly hcmds

theorem step_of_host_partialAccess {bytes : List Byte} {more : List HostAccess}
    (hcmds : s.hostCmds = .partialAccess bytes :: more) : step s = .refused (.partialAccess bytes) := by
  rw [step_of_host_turn hlegal hfault hovf hcmp hturns (by simp [hcmds])]
  exact hostStep_of_partialAccess (s := { s with turns := rest }) hdly hcmds

end HostTurn

/-- Settles O6: the host's turn issues the transaction, and the decoder answers. -/
theorem stepRunsDecodedCommand : Obligations.StepRunsDecodedCommand := by
  intro s c i more rest hlegal hfault hovf hcmp hdly hcmds hturns hdec
  rw [step_of_host_command hlegal hfault hovf hcmp hdly hturns hcmds, issue_of_decode_ok hdec]

/-- Settles O8: an illegal word is issued and raises its fault, a partial access is not issued. -/
theorem accessesThatAreNoCommand : Obligations.AccessesThatAreNoCommand := by
  intro s more rest hlegal hfault hovf hcmp hdly hturns
  refine ⟨fun c e hcmds hdec => ?_, fun bytes => step_of_host_partialAccess hlegal hfault hovf hcmp hdly hturns⟩
  rw [step_of_host_command hlegal hfault hovf hcmp hdly hturns hcmds, issue_of_decode_error hdec]
  rfl

/-- The narrow bus's decoder reads a transaction back from its bytes (R51). -/
theorem decodeBytes_bytesOfWord (cmd arg : Word) :
    decodeBytes (bytesOfWord cmd ++ bytesOfWord arg) = (decode cmd arg).map fun i => (i, []) := by
  simp only [bytesOfWord, List.cons_append, List.nil_append, decodeBytes, wordOfBytes_bytesOfWord]
  cases decode cmd arg <;> rfl

/-- A table word decodes as the transaction it stands for. -/
theorem decodeTableWord_eq_some_iff {nbits w : Nat} {i : Instr} :
    decodeTableWord nbits w = some i ↔ decode (tableCommand nbits w).cmd (tableCommand nbits w).arg = .ok i := by
  simp only [decodeTableWord, decodeBytes_bytesOfWord]
  cases decode (tableCommand nbits w).cmd (tableCommand nbits w).arg <;> simp [Except.map]

/-- Settles O7: placing the word puts its transaction and the host's turn in front, and the step uses up both. -/
theorem placedWordRuns : Obligations.PlacedWordRuns := by
  intro s nbits w i hlegal hfault hovf hcmp hdly hdec
  exact stepRunsDecodedCommand (s.withFetchWord nbits w) (tableCommand nbits w) i s.hostCmds s.turns hlegal hfault hovf hcmp
    hdly rfl rfl (decodeTableWord_eq_some_iff.1 hdec)

end Sys2Proof.Machine
end

section
/-! PROOFS. 20_memory.md R53: a command changes what its meaning names and leaves the rest of the block alone. -/

namespace Sys2Proof.Machine

/-! ### The reading commands -/

/-- Settles O48, command by command. -/
theorem readCommandsFrame : Obligations.ReadCommandsFrame := by
  intro i s t hi h
  simp only [List.mem_cons, List.not_mem_nil, or_false] at hi
  rcases hi with rfl | rfl | rfl | rfl <;> simp only [exec] at h
  · rw [execTicks_eq] at h; cases h; rfl
  · rw [execCounts_eq] at h; cases h; rfl
  · rw [execMicros_eq] at h; cases h; rfl
  · rw [execMillis_eq] at h; cases h; rfl

/-! ### The slot commands -/

/-- All that a slot command can do to the block: it leaves `v` in slot `slot`, and beside that only RES, the fault record and
the count of draws can differ (R53). A command that leaves its slot alone leaves there what the slot held. -/
structure State.SlotWritten (slot : Nat) (v : Slot) (s t : State) : Prop where
  slots : t.slots = s.slots.set slot v
  frame : t = { s with slots := t.slots, res := t.res, fault := t.fault, draws := t.draws }

/-- Writing back what a slot holds changes no slot. -/
theorem State.set_slotAt_self (s : State) (slot : Nat) : s.slots.set slot (s.slotAt slot) = s.slots := by
  apply List.ext_getElem?
  intro j
  by_cases hj : slot = j
  · subst hj
    by_cases hlt : slot < s.slots.length <;> simp [State.slotAt, hlt]
  · rw [List.getElem?_set_ne hj]

namespace State.SlotWritten

variable {slot : Nat} {v : Slot} {s t : State}

/-- A command that leaves the slots alone. -/
theorem of_slots_eq (hframe : t = { s with slots := t.slots, res := t.res, fault := t.fault, draws := t.draws })
    (hslots : t.slots = s.slots) : SlotWritten slot (s.slotAt slot) s t :=
  ⟨hslots.trans (s.set_slotAt_self slot).symm, hframe⟩

theorem raise (s : State) (slot : Nat) (f : BlockFault) : SlotWritten slot (s.slotAt slot) s (s.raise f) :=
  of_slots_eq rfl rfl

theorem length (h : SlotWritten slot v s t) : t.slots.length = s.slots.length := by rw [h.slots, List.length_set]

theorem slotAt_eq (h : SlotWritten slot v s t) (j : Nat) : t.slotAt j = (s.setSlot slot v).slotAt j :=
  State.slotAt_congr h.slots j

theorem slotAt_ne (h : SlotWritten slot v s t) (j : Nat) (hj : j ≠ slot) : t.slotAt j = s.slotAt j :=
  (h.slotAt_eq j).trans (s.slotAt_setSlot_ne slot j v hj)

/-- An item of the slot that `v` keeps is kept, and so it is where the slot does not exist. -/
theorem slotAt_item {α : Type} (h : SlotWritten slot v s t) (item : Slot → α) (hv : item v = item (s.slotAt slot)) :
    item (t.slotAt slot) = item (s.slotAt slot) := by
  by_cases hlt : slot < s.slots.length
  · rw [h.slotAt_eq, s.slotAt_setSlot_self slot v hlt, hv]
  · rw [State.slotAt_congr (h.slots.trans (List.set_eq_of_length_le (by omega)))]

end State.SlotWritten

open State (SlotWritten)

variable {slot : Nat} {s t : State}

/-- PER.INIT keeps `elapsed` and RES (R152). -/
theorem execPerInit_frame (h : execPerInit slot s = .next t) :
    ∃ v, SlotWritten slot v s t ∧ t.res = s.res ∧ v.elapsed = (s.slotAt slot).elapsed := by
  rcases execPerInit_cases slot s with ⟨f, -, e⟩ | ⟨c, -, e⟩ <;> rw [e] at h <;> cases h
  · exact ⟨_, .raise s slot f, rfl, rfl⟩
  · exact ⟨_, ⟨rfl, rfl⟩, rfl, rfl⟩

/-- PER.ISNOW keeps `elapsed` (R153). -/
theorem execPerIsNow_frame (h : execPerIsNow slot s = .next t) :
    ∃ v, SlotWritten slot v s t ∧ v.elapsed = (s.slotAt slot).elapsed := by
  rcases execPerIsNow_cases slot s with ⟨f, -, e⟩ | ⟨c, -, ⟨-, e⟩ | ⟨-, -, e⟩ | ⟨-, -, e⟩⟩ <;> rw [e] at h <;> cases h
  · exact ⟨_, .raise s slot f, rfl⟩
  · exact ⟨_, .raise s slot _, rfl⟩
  · exact ⟨_, ⟨rfl, rfl⟩, rfl⟩
  · exact ⟨_, .of_slots_eq rfl rfl, rfl⟩

/-- DL.RESET keeps RES (R154). -/
theorem execDlReset_frame (h : execDlReset slot s = .next t) : (∃ v, SlotWritten slot v s t) ∧ t.res = s.res := by
  rcases execDlReset_cases slot s with ⟨f, -, e⟩ | ⟨c, -, e⟩ <;> rw [e] at h <;> cases h
  · exact ⟨⟨_, .raise s slot f⟩, rfl⟩
  · exact ⟨⟨_, rfl, rfl⟩, rfl⟩

/-- VDL.RESET keeps RES (R155). -/
theorem execVdlReset_frame {d : Word} (h : execVdlReset slot d s = .next t) :
    (∃ v, SlotWritten slot v s t) ∧ t.res = s.res := by
  rcases execVdlReset_cases slot d s with ⟨f, -, e⟩ | ⟨c, -, ⟨-, e⟩ | ⟨-, e⟩⟩ <;> rw [e] at h <;> cases h
  · exact ⟨⟨_, .raise s slot f⟩, rfl⟩
  · exact ⟨⟨_, .raise s slot _⟩, rfl⟩
  · exact ⟨⟨_, rfl, rfl⟩, rfl⟩

/-- DL.ISNOW keeps `next` and `valid` (R156). -/
theorem execDlIsNow_frame (h : execDlIsNow slot s = .next t) :
    ∃ v, SlotWritten slot v s t ∧ v.next = (s.slotAt slot).next ∧ v.valid = (s.slotAt slot).valid := by
  rcases execDlIsNow_cases slot s with
    ⟨f, -, e⟩ | ⟨c, -, ⟨-, e⟩ | ⟨-, -, e⟩ | ⟨hvalid, -, -, e⟩ | ⟨-, -, -, e⟩⟩ <;> rw [e] at h <;> cases h
  · exact ⟨_, .raise s slot f, rfl, rfl⟩
  · exact ⟨_, .raise s slot _, rfl, rfl⟩
  · exact ⟨_, .of_slots_eq rfl rfl, rfl, rfl⟩
  · exact ⟨_, ⟨rfl, rfl⟩, rfl, hvalid.symm⟩
  · exact ⟨_, .of_slots_eq rfl rfl, rfl, rfl⟩

/-- Settles O49, command by command: each writes at most its own slot. -/
theorem slotCommandsFrame : Obligations.SlotCommandsFrame := by
  intro i s t slot d hi h
  simp only [List.mem_cons, List.not_mem_nil, or_false] at hi
  rcases hi with rfl | rfl | rfl | rfl | rfl
  · obtain ⟨v, hw, hres, hel⟩ := execPerInit_frame h
    exact ⟨hw.frame, hw.length, hw.slotAt_ne, fun _ => hres, fun _ => hw.slotAt_item Slot.elapsed hel, nofun⟩
  · obtain ⟨v, hw, hel⟩ := execPerIsNow_frame h
    exact ⟨hw.frame, hw.length, hw.slotAt_ne, by simp, fun _ => hw.slotAt_item Slot.elapsed hel, nofun⟩
  · obtain ⟨⟨v, hw⟩, hres⟩ := execDlReset_frame h
    exact ⟨hw.frame, hw.length, hw.slotAt_ne, fun _ => hres, by simp, nofun⟩
  · obtain ⟨⟨v, hw⟩, hres⟩ := execVdlReset_frame h
    exact ⟨hw.frame, hw.length, hw.slotAt_ne, fun _ => hres, by simp, nofun⟩
  · obtain ⟨v, hw, hnext, hvalid⟩ := execDlIsNow_frame h
    exact ⟨hw.frame, hw.length, hw.slotAt_ne, by simp, by simp,
      fun _ => ⟨hw.slotAt_item Slot.next hnext, hw.slotAt_item Slot.valid hvalid⟩⟩

/-! ### DELAY, TX.SEND and the scope commands -/

theorem execDelay_frame {base : Base} {d : Word} (h : execDelay base d s = .next t) :
    t = { s with dly := t.dly, fault := t.fault, draws := t.draws } := by
  rcases execDelay_cases base d s with ⟨-, e⟩ | ⟨-, e⟩ <;> rw [e] at h <;> cases h <;> rfl

/-- Q_WRITE keeps the head, and every entry but the one behind the live ones (R181). -/
theorem State.qWrite_frame (s : State) (p : Pulse) :
    (s.qWrite p).2.queue.head = s.queue.head ∧
      ∀ j, j ≠ s.queueIndex s.queue.count → (s.qWrite p).2.queue.buf[j]? = s.queue.buf[j]? := by
  rcases s.qWrite_cases p with ⟨-, e⟩ | ⟨-, e⟩ <;> rw [e]
  · exact ⟨rfl, fun _ _ => rfl⟩
  · exact ⟨rfl, fun j hj => List.getElem?_set_ne hj.symm⟩

/-- TX.SEND starts a train from IDLE and queues its pulse while TRANSMITTING, never both (R202). -/
theorem execTxSend_frame {level : Level} {d : Word} (h : execTxSend level d s = .next t) :
    t = { s with tx := t.tx, queue := t.queue, res := t.res, events := t.events, fault := t.fault, draws := t.draws } ∧
    (t.queue = s.queue ∨ t.queue = (s.qWrite ⟨level, d⟩).2.queue) ∧ (s.tx.txState = .idle → t.queue = s.queue) ∧
    (s.tx.txState = .transmitting → t.tx = s.tx ∧ t.events = s.events) := by
  rcases execTxSend_cases level d s with ⟨-, e⟩ | ⟨-, -, e⟩ | ⟨-, -, hidle, e⟩ | ⟨-, -, htransmitting, e⟩ <;>
    rw [e] at h <;> cases h
  · exact ⟨rfl, .inl rfl, fun _ => rfl, fun _ => ⟨rfl, rfl⟩⟩
  · exact ⟨rfl, .inl rfl, fun _ => rfl, fun _ => ⟨rfl, rfl⟩⟩
  · have hne : s.tx.txState ≠ .transmitting := by simp [hidle]
    exact ⟨rfl, .inl rfl, fun _ => rfl, fun htransmitting => absurd htransmitting hne⟩
  · have hne : s.tx.txState ≠ .idle := by simp [htransmitting]
    exact ⟨rfl, .inr rfl, fun hidle => absurd hidle hne, fun _ => ⟨rfl, rfl⟩⟩

theorem execAtomicEnter_frame {m : BitVec 2} (h : execAtomicEnter m s = .next t) :
    t = { s with mask := t.mask, fault := t.fault } := by
  rcases execAtomicEnter_cases m s with ⟨-, e⟩ | ⟨-, e⟩ <;> rw [e] at h <;> cases h <;> rfl

theorem execAtomicExit_frame (h : execAtomicExit s = .next t) : t = { s with mask := t.mask, fault := t.fault } := by
  rcases execAtomicExit_cases s with ⟨-, e⟩ | ⟨_, _, -, e⟩ <;> rw [e] at h <;> cases h <;> rfl

/-- Settles O50, command by command; what TX.SEND keeps of the queue is what Q_WRITE keeps. -/
theorem otherCommandsFrame : Obligations.OtherCommandsFrame := by
  intro s t
  refine ⟨fun _ _ => execDelay_frame, fun level d h => ?_, fun _ h => h.elim execAtomicEnter_frame execAtomicExit_frame⟩
  obtain ⟨hframe, hqueue, hidle, htransmitting⟩ := execTxSend_frame h
  obtain ⟨hhead, hbuf⟩ := s.qWrite_frame ⟨level, d⟩
  refine ⟨hframe, ?_, hidle, htransmitting, fun j hj => ?_⟩ <;> rcases hqueue with e | e <;> rw [e]
  · exact hhead
  · exact hbuf j hj

end Sys2Proof.Machine
end

section
/-! PROOFS. 30_encoding.md: the table's rows exclude each other (R73), what the decoder answers on every word (R75, R76), that
decoding and encoding undo each other (R71, R74; 20_memory.md R51), how RES is written (R80), and the assembler's checks
(R78, R79). -/

namespace Sys2Proof

/-! ### What a row fixes of the words it selects -/

/-- Where a row's mask is all ones, a word the row selects holds the row's bits (R73). -/
theorem Row.extractLsb'_of_selects {r : Row} {w : Word} (h : r.selects w = true) {start len : Nat}
    (hmask : r.mask.extractLsb' start len = BitVec.allOnes len) : w.extractLsb' start len = r.value.extractLsb' start len := by
  have hval : w &&& r.mask = r.value := eq_of_beq h
  rw [← hval, BitVec.extractLsb'_and, hmask, BitVec.and_allOnes]

/-- Every row fixes the OP field to its opcode and bits 31:16 to 0 (R72, R73). -/
theorem rows_fix_op_and_reserved : ∀ r ∈ rows,
    r.mask.extractLsb' 0 8 = BitVec.allOnes 8 ∧ (r.value.extractLsb' 0 8).toNat = r.name.op ∧
    r.mask.extractLsb' 16 16 = BitVec.allOnes 16 ∧ r.value.extractLsb' 16 16 = 0#16 := by decide

theorem Row.op_of_selects {r : Row} (hr : r ∈ rows) {w : Word} (h : r.selects w = true) : r.name.op = w.toNat % 256 := by
  obtain ⟨hmask, hop, -, -⟩ := rows_fix_op_and_reserved r hr
  rw [← hop, ← Row.extractLsb'_of_selects h hmask, BitVec.extractLsb'_toNat, Nat.shiftRight_zero]

theorem Row.reserved_of_selects {r : Row} (hr : r ∈ rows) {w : Word} (h : r.selects w = true) : w.toNat / 65536 = 0 := by
  obtain ⟨-, -, hmask, hzero⟩ := rows_fix_op_and_reserved r hr
  have hbits := congrArg BitVec.toNat ((Row.extractLsb'_of_selects h hmask).trans hzero)
  rw [BitVec.extractLsb'_toNat, Nat.shiftRight_eq_div_pow, BitVec.toNat_zero] at hbits
  have := w.isLt
  omega

/-- The opcode tells the rows apart (R72). -/
theorem rows_op_injective : ∀ r₁ ∈ rows, ∀ r₂ ∈ rows, r₁.name.op = r₂.name.op → r₁ = r₂ := by decide

/-- Settles O3: both rows have the word's OP for their opcode. -/
theorem rowsNeverOverlap : Obligations.RowsNeverOverlap := fun r₁ hr₁ r₂ hr₂ _ h₁ h₂ =>
  rows_op_injective r₁ hr₁ r₂ hr₂ ((Row.op_of_selects hr₁ h₁).trans (Row.op_of_selects hr₂ h₂).symm)

/-! ### What the decoder answers -/

/-- A word a row selects decodes to that row's command, for no other row selects it (R75). -/
theorem decode_of_selects {r : Row} (hr : r ∈ rows) {cmd : Word} (h : r.selects cmd = true) (arg : Word) :
    decode cmd arg = .ok (r.name.build cmd arg) := by
  rw [decode]
  cases hfind : rows.find? (fun r => r.selects cmd) with
  | none => exact absurd h (List.find?_eq_none.1 hfind r hr)
  | some r' =>
    have hsel : r'.selects cmd = true := List.find?_some (p := fun r : Row => r.selects cmd) hfind
    rw [rowsNeverOverlap r hr r' (List.mem_of_find?_eq_some hfind) cmd h hsel]

/-- A word no row selects is illegal (R75). -/
theorem decode_of_not_selects {cmd : Word} (h : ∀ r ∈ rows, r.selects cmd ≠ true) (arg : Word) :
    decode cmd arg = .error (rejectReason cmd) := by
  rw [decode, List.find?_eq_none.2 h]

/-- A word decodes to the commands of the rows that select it (R75). -/
theorem decode_eq_ok_iff {cmd arg : Word} {i : Instr} :
    decode cmd arg = .ok i ↔ ∃ r ∈ rows, r.selects cmd = true ∧ r.name.build cmd arg = i := by
  constructor
  · intro h
    by_cases hsel : ∃ r ∈ rows, r.selects cmd = true
    · obtain ⟨r, hr, hr'⟩ := hsel
      rw [decode_of_selects hr hr'] at h
      exact ⟨r, hr, hr', Except.ok.inj h⟩
    · rw [decode_of_not_selects (by simpa using hsel)] at h
      cases h
  · rintro ⟨r, hr, hsel, rfl⟩
    exact decode_of_selects hr hsel arg

theorem rejectReason_of_no_op {cmd : Word} (h : ∀ r ∈ rows, r.name.op ≠ cmd.toNat % 256) :
    rejectReason cmd = .unassignedOp := by
  have hany : (rows.any fun r => r.name.op == cmd.toNat % 256) = false := by simpa using h
  rw [rejectReason, hany]
  rfl

theorem rejectReason_of_op {cmd : Word} (h : ∃ r ∈ rows, r.name.op = cmd.toNat % 256) :
    rejectReason cmd = if cmd.toNat / 65536 = 0 then .unusedField else .reservedBits := by
  have hany : (rows.any fun r => r.name.op == cmd.toNat % 256) = true := by simpa using h
  rw [rejectReason, hany]
  by_cases hres : cmd.toNat / 65536 = 0 <;> simp [hres]

theorem Mnemonic.build_mnemonic (m : Mnemonic) (cmd arg : Word) : (m.build cmd arg).mnemonic = m := by
  cases m <;> rfl

/-- Settles O4: a row that selects a word has the word's OP and needs bits 31:16 to be 0, so the first two kinds of word are
selected by none; of an assigned OP only its own row can select the word. -/
theorem illegalWordsRejected : Obligations.IllegalWordsRejected := by
  intro cmd arg
  refine ⟨fun hno => ?_, fun hop hres => ?_, fun r hr hop hres hne => ?_, fun r hr _ hsel => ?_⟩
  · rw [decode_of_not_selects fun r hr hsel => hno r hr (Row.op_of_selects hr hsel), rejectReason_of_no_op hno]
  · rw [decode_of_not_selects fun r hr hsel => hres (Row.reserved_of_selects hr hsel), rejectReason_of_op hop, if_neg hres]
  · have hother : ∀ r' ∈ rows, r'.selects cmd ≠ true := fun r' hr' hsel => by
      cases rows_op_injective r' hr' r hr ((Row.op_of_selects hr' hsel).trans hop.symm)
      exact hne (eq_of_beq hsel)
    rw [decode_of_not_selects hother, rejectReason_of_op ⟨r, hr, hop⟩, if_pos hres]
  · exact ⟨_, decode_of_selects hr (beq_iff_eq.2 hsel) arg, Mnemonic.build_mnemonic _ _ _⟩

/-- Settles O5: nine fixed words, decoded. -/
theorem specWordsDecode : Obligations.SpecWordsDecode := by
  unfold Obligations.SpecWordsDecode
  decide

/-! ### The fields of CMD -/

theorem fieldSlot_lt (w : Word) : fieldSlot w < 16 := (w.extractLsb' 8 4).isLt

theorem fieldSlot_or {v : Word} (hv : v.extractLsb' 8 4 = 0#4) (w : Word) : fieldSlot (v ||| w) = fieldSlot w := by
  rw [fieldSlot, BitVec.extractLsb'_or, hv, BitVec.zero_or, fieldSlot]

/-- The SLOT field is read where it is placed (R71). -/
theorem fieldSlot_placeSlot {slot : Nat} (h : slotFits slot = true) : fieldSlot (placeSlot slot) = slot :=
  (by decide : ∀ k : Fin 16, fieldSlot (placeSlot k) = k) ⟨slot, of_decide_eq_true h⟩

/-- A slot row's word holds the slot it was given (R71). -/
theorem fieldSlot_or_placeSlot {v : Word} (hv : v.extractLsb' 8 4 = 0#4) {slot : Nat} (h : slotFits slot = true) :
    fieldSlot (v ||| placeSlot slot) = slot := (fieldSlot_or hv _).trans (fieldSlot_placeSlot h)

theorem fieldBase_or_placeBase (base : Base) : fieldBase (0x00000005#32 ||| placeBase base) = base := by
  cases base <;> decide

theorem fieldLvl_or_placeLvl (level : Level) : fieldLvl (0x00000020#32 ||| placeLvl level) = level := by
  cases level <;> decide

theorem fieldMask_or_placeMask : ∀ mask : BitVec 2, fieldMask (0x00000030#32 ||| placeMask mask) = mask := by decide

/-- A field put back where it was read is the word with every other bit 0 (R71). -/
theorem extractLsb'_shiftLeft_eq_and (w : Word) (start len : Nat) :
    (w.extractLsb' start len).setWidth 32 <<< start = w &&& (BitVec.allOnes len).setWidth 32 <<< start := by
  apply BitVec.eq_of_getLsbD_eq
  intro k hk
  by_cases hlow : k < start
  · simp [hlow]
  · simp [hlow, hk, Nat.add_sub_cancel' (Nat.le_of_not_lt hlow), Bool.and_comm]

theorem placeSlot_fieldSlot (w : Word) : placeSlot (fieldSlot w) = w &&& 0x00000F00#32 := by
  rw [placeSlot, fieldSlot, BitVec.ofNat_toNat]
  exact extractLsb'_shiftLeft_eq_and w 8 4

theorem placeMask_fieldMask (w : Word) : placeMask (fieldMask w) = w &&& 0x0000C000#32 :=
  extractLsb'_shiftLeft_eq_and w 14 2

theorem placeBase_fieldBase (w : Word) : placeBase (fieldBase w) = w &&& 0x00002000#32 := by
  rw [fieldBase, show 0x00002000#32 = BitVec.twoPow 32 13 from rfl, BitVec.and_twoPow]
  split <;> rfl

theorem placeLvl_fieldLvl (w : Word) : placeLvl (fieldLvl w) = w &&& 0x00001000#32 := by
  rw [fieldLvl, show 0x00001000#32 = BitVec.twoPow 32 12 from rfl, BitVec.and_twoPow]
  split <;> rfl

/-! ### Decoding and encoding undo each other -/

/-- The row a command belongs to reads the command back from its encoding (R71, R74). -/
theorem Instr.build_encode {i : Instr} (h : i.wellFormed = true) : i.mnemonic.build (encode i).cmd (encode i).arg = i := by
  cases i with
  | ticks => rfl
  | counts => rfl
  | micros => rfl
  | millis => rfl
  | delay base d => exact congrArg (Instr.delay · d) (fieldBase_or_placeBase base)
  | perInit slot => exact congrArg Instr.perInit (fieldSlot_or_placeSlot (by decide) h)
  | perIsNow slot => exact congrArg Instr.perIsNow (fieldSlot_or_placeSlot (by decide) h)
  | dlReset slot => exact congrArg Instr.dlReset (fieldSlot_or_placeSlot (by decide) h)
  | vdlReset slot d => exact congrArg (Instr.vdlReset · d) (fieldSlot_or_placeSlot (by decide) h)
  | dlIsNow slot => exact congrArg Instr.dlIsNow (fieldSlot_or_placeSlot (by decide) h)
  | txSend level d => exact congrArg (Instr.txSend · d) (fieldLvl_or_placeLvl level)
  | atomicEnter mask => exact congrArg Instr.atomicEnter (fieldMask_or_placeMask mask)
  | atomicExit => rfl

/-- Every well-formed command's CMD word selects its own row (R73). -/
theorem Instr.encodesOwnRow : ∀ i : Instr, Laws.EncodesOwnRow.Statement i
  | .ticks => Laws.EncodesOwnRow.ticks
  | .counts => Laws.EncodesOwnRow.counts
  | .micros => Laws.EncodesOwnRow.micros
  | .millis => Laws.EncodesOwnRow.millis
  | .delay base d => Laws.EncodesOwnRow.delay base d
  | .perInit slot => Laws.EncodesOwnRow.perInit slot
  | .perIsNow slot => Laws.EncodesOwnRow.perIsNow slot
  | .dlReset slot => Laws.EncodesOwnRow.dlReset slot
  | .vdlReset slot d => Laws.EncodesOwnRow.vdlReset slot d
  | .dlIsNow slot => Laws.EncodesOwnRow.dlIsNow slot
  | .txSend level d => Laws.EncodesOwnRow.txSend level d
  | .atomicEnter mask => Laws.EncodesOwnRow.atomicEnter mask
  | .atomicExit => Laws.EncodesOwnRow.atomicExit

theorem decode_encode {i : Instr} (h : i.wellFormed = true) : decode (encode i).cmd (encode i).arg = .ok i := by
  obtain ⟨r, hr, hname, hsel⟩ := i.encodesOwnRow h
  rw [decode_of_selects hr hsel, hname, i.build_encode h]

/-- The narrow bus's decoder takes the eight bytes of one transaction and leaves the rest (R51). -/
theorem decodeBytes_bytesOfWord_append (cmd arg : Word) (rest : List Byte) :
    decodeBytes (bytesOfWord cmd ++ bytesOfWord arg ++ rest) = (decode cmd arg).map fun i => (i, rest) := by
  simp only [bytesOfWord, List.cons_append, List.nil_append, decodeBytes, wordOfBytes_bytesOfWord]
  cases decode cmd arg <;> rfl

/-- Settles O1: the encoding selects the command's own row, which reads the operands back, and a word's bytes give it back. -/
theorem decodeOfEncode : Obligations.DecodeOfEncode := by
  intro i rest h
  refine ⟨decode_encode h, ?_, littleEndian_two_words _ _⟩
  rw [encodeBytes, decodeBytes_bytesOfWord_append, decode_encode h]
  rfl

theorem Mnemonic.build_wellFormed (m : Mnemonic) (cmd arg : Word) : (m.build cmd arg).wellFormed = true := by
  have hslot : slotFits (fieldSlot cmd) = true := decide_eq_true (fieldSlot_lt cmd)
  cases m
  case perInit | perIsNow | dlReset | vdlReset | dlIsNow => exact hslot
  all_goals rfl

/-- A command of a row encodes to the row's value, with the operand's bits as the row's mask leaves them free (R73, R74). -/
theorem Row.encode_build_cmd {r : Row} (hr : r ∈ rows) (cmd arg : Word) :
    (encode (r.name.build cmd arg)).cmd = r.value ||| (cmd &&& ~~~r.mask) := by
  rw [rows] at hr
  fin_cases hr <;>
    simp [Mnemonic.build, encode, placeSlot_fieldSlot, placeMask_fieldMask, placeBase_fieldBase, placeLvl_fieldLvl]

theorem Mnemonic.encode_build_arg {m : Mnemonic} {cmd arg : Word} (h : (m.build cmd arg).usesArg = true) :
    (encode (m.build cmd arg)).arg = arg := by
  cases m
  case delay | vdlReset | txSend => rfl
  all_goals cases h

/-- Settles O2: a row that selects the word holds the bits under its mask, and the operand holds the others. -/
theorem encodeOfDecode : Obligations.EncodeOfDecode := by
  intro cmd arg i h
  obtain ⟨r, hr, hsel, rfl⟩ := decode_eq_ok_iff.1 h
  refine ⟨r.name.build_wellFormed cmd arg, ?_, Mnemonic.encode_build_arg⟩
  have hval : cmd &&& r.mask = r.value := eq_of_beq hsel
  rw [Row.encode_build_cmd hr, ← hval, ← BitVec.and_or_distrib_left, BitVec.or_not_self, BitVec.and_allOnes]

/-! ### The assembler's checks -/

/-- The slot fits its field and lies in the configuration, and its kind is one the command takes (R78). -/
def Config.HasSlot (c : Config) (kinds : List SlotKind) (slot : Nat) : Prop :=
  slotFits slot = true ∧ ∃ sc, c.slotCfg[slot]? = some sc ∧ sc.kind ∈ kinds

/-- What the assembler has checked of a command it puts out (R78). -/
def Instr.Checked (c : Config) : Instr → Prop
  | .delay _ d => d.toNat < 2 ^ 31
  | .perInit slot => c.HasSlot [.periodic] slot
  | .perIsNow slot => c.HasSlot [.periodic] slot
  | .dlReset slot => c.HasSlot [.deadline] slot
  | .vdlReset slot d => c.HasSlot [.vdeadline] slot ∧ d.toNat < 2 ^ 31
  | .dlIsNow slot => c.HasSlot [.deadline, .vdeadline] slot
  | _ => True

/-- A number below 2^31 stays below it as a word. -/
theorem ofNat_toNat_lt {d : Nat} (h : d < 2 ^ 31) : (BitVec.ofNat 32 d).toNat < 2 ^ 31 :=
  (Nat.mod_le _ _).trans_lt h

section

variable {c : Config} {i j : Instr}

theorem Instr.Checked.wellFormed (h : i.Checked c) : i.wellFormed = true := by
  cases i with
  | perInit | perIsNow | dlReset | dlIsNow =>
    obtain ⟨hfits, -⟩ := h
    exact hfits
  | vdlReset =>
    obtain ⟨⟨hfits, -⟩, -⟩ := h
    exact hfits
  | _ => rfl

theorem Config.asmSlot_ok {kinds : List SlotKind} {n : Nat} (h : c.asmSlot kinds n i = .ok j) :
    c.HasSlot kinds n ∧ i = j := by
  unfold Config.asmSlot at h
  split at h
  · cases h
  · have hfits : slotFits n = true := by simpa using ‹¬slotFits n = false›
    split at h
    · cases h
    · split at h
      · cases h
        exact ⟨⟨hfits, _, ‹_›, by simpa using ‹kinds.contains _ = true›⟩, rfl⟩
      · cases h

/-- A number the assembler takes for a delay keeps its value in ARG (R78). -/
theorem asmDelay_ok {d : Nat} {line : Word → Except AsmProblem Instr} (h : asmDelay d line = .ok j) :
    ∃ v : Word, v.toNat < 2 ^ 31 ∧ line v = .ok j := by
  unfold asmDelay at h
  split at h
  · exact ⟨_, ofNat_toNat_lt ‹_›, h⟩
  · cases h

theorem asmSend_ok {level : Level} {d : Nat} (h : asmSend level d = .ok j) : ∃ v, .txSend level v = j := by
  unfold asmSend at h
  split at h
  · exact ⟨_, Except.ok.inj h⟩
  · cases h

theorem Config.asmSendDur_ok {level : Level} {dur : Duration} (h : c.asmSendDur level dur = .ok j) :
    ∃ v, .txSend level v = j := by
  unfold Config.asmSendDur at h
  split at h
  · cases h
  · exact ⟨_, Except.ok.inj h⟩

/-- A variant's delay is in range, else it is REFUSED (R105). -/
theorem Config.variant_lt {dur : Duration} {base : Base} {d : Nat} (h : c.variant dur = some (base, d)) : d < 2 ^ 31 := by
  unfold Config.variant at h
  split at h
  · cases h; assumption
  · split at h
    · cases h; assumption
    · cases h

theorem Config.assembleInstr_checked {l : AsmLine} (h : c.assembleInstr l = .ok i) : i.Checked c := by
  cases l with
  | ticks | counts | micros | millis | atomicEnter | atomicExit | atomicAll => cases h; trivial
  | delayC | delayT =>
    simp only [Config.assembleInstr] at h
    obtain ⟨v, hv, e⟩ := asmDelay_ok h
    cases e
    exact hv
  | perInit | perIsNow | dlReset | dlIsNow =>
    obtain ⟨hslot, rfl⟩ := Config.asmSlot_ok h
    exact hslot
  | vdlReset =>
    simp only [Config.assembleInstr] at h
    obtain ⟨v, hv, e⟩ := asmDelay_ok h
    obtain ⟨hslot, rfl⟩ := Config.asmSlot_ok e
    exact ⟨hslot, hv⟩
  | txSend | txHigh | txLow =>
    obtain ⟨v, rfl⟩ := asmSend_ok h
    trivial
  | txHighDur | txLowDur =>
    obtain ⟨v, rfl⟩ := Config.asmSendDur_ok h
    trivial
  | delayDur dur =>
    simp only [Config.assembleInstr] at h
    split at h
    · cases h
      exact ofNat_toNat_lt (Config.variant_lt ‹_›)
    · cases h

theorem Config.assemble_ok {l : AsmLine} {cmd : Command} (h : c.assemble l = .ok cmd) :
    ∃ i, c.assembleInstr l = .ok i ∧ encode i = cmd := by
  unfold Config.assemble at h
  cases hi : c.assembleInstr l with
  | error => rw [hi] at h; cases h
  | ok i => rw [hi] at h; exact ⟨i, rfl, Except.ok.inj h⟩

end

end Sys2Proof

namespace Sys2Proof.Machine

/-! ### How RES is written -/

variable {s t : State}

/-- A command that raises a fault does nothing else (R256). -/
theorem exec_res_of_fault_ne {i : Instr} (h : exec i s = .next t) (hne : t.fault ≠ s.fault) : t.res = s.res := by
  rcases exec_cases i s t h with ⟨f, rfl⟩ | ⟨hkeep, -⟩
  · rfl
  · exact absurd hkeep hne

/-- RES holds a Boolean, or the command has raised a fault and left RES alone (R80). -/
def State.BoolWritten (s t : State) : Prop := t.res = 0 ∨ t.res = 1 ∨ (t.res = s.res ∧ ∃ f, t = s.raise f)

theorem State.BoolWritten.raise (s : State) (f : BlockFault) : s.BoolWritten (s.raise f) := .inr (.inr ⟨rfl, f, rfl⟩)

theorem execPerIsNow_boolWritten {slot : Nat} (h : execPerIsNow slot s = .next t) : s.BoolWritten t := by
  rcases execPerIsNow_cases slot s with ⟨f, -, e⟩ | ⟨c, -, ⟨-, e⟩ | ⟨-, -, e⟩ | ⟨-, -, e⟩⟩ <;> rw [e] at h <;> cases h
  · exact .raise s f
  · exact .raise s _
  · exact .inr (.inl rfl)
  · exact .inl rfl

theorem execDlIsNow_boolWritten {slot : Nat} (h : execDlIsNow slot s = .next t) : s.BoolWritten t := by
  rcases execDlIsNow_cases slot s with
    ⟨f, -, e⟩ | ⟨c, -, ⟨-, e⟩ | ⟨-, -, e⟩ | ⟨-, -, -, e⟩ | ⟨-, -, -, e⟩⟩ <;> rw [e] at h <;> cases h
  · exact .raise s f
  · exact .raise s _
  · exact .inl rfl
  · exact .inr (.inl rfl)
  · exact .inl rfl

theorem execTxSend_boolWritten {level : Level} {d : Word} (h : execTxSend level d s = .next t) : s.BoolWritten t := by
  rcases execTxSend_cases level d s with ⟨-, e⟩ | ⟨-, -, e⟩ | ⟨-, -, -, e⟩ | ⟨-, -, -, e⟩ <;> rw [e] at h <;> cases h
  · exact .inl rfl
  · exact .raise s _
  · exact .inr (.inl rfl)
  · cases hq : (s.qWrite ⟨level, d⟩).1
    · exact .inl (by simp)
    · exact .inr (.inl (by simp))

/-- DELAY, the three slot writers and the scope commands have no result (R80). -/
theorem exec_res_of_no_result {i : Instr} {base : Base} {slot : Nat} {d : Word} {m : BitVec 2}
    (hi : i ∈ [Instr.delay base d, .perInit slot, .dlReset slot, .vdlReset slot d, .atomicEnter m, .atomicExit])
    (h : exec i s = .next t) : t.res = s.res := by
  simp only [List.mem_cons, List.not_mem_nil, or_false] at hi
  rcases hi with rfl | rfl | rfl | rfl | rfl | rfl
  · rw [execDelay_frame h]
  · obtain ⟨_, -, hres, -⟩ := execPerInit_frame h
    exact hres
  · exact (execDlReset_frame h).2
  · exact (execVdlReset_frame h).2
  · rw [execAtomicEnter_frame h]
  · rw [execAtomicExit_frame h]

/-- Settles O52, command by command; RES's bytes are its two words', the low one first. -/
theorem resultEncoding : Obligations.ResultEncoding := by
  intro s t
  refine ⟨fun h => ?_, fun h => ?_, fun _ => exec_res_of_fault_ne, fun i slot level d hi h => ?_,
    fun _ _ _ _ _ => exec_res_of_no_result, fun h => ?_, fun h => ?_, bytesOfDWord_length _, littleEndian_bytesOfDWord _⟩
  · cases (execTicks_eq s).symm.trans h
    exact BitVec.toNat_setWidth_of_le (by decide)
  · cases (execCounts_eq s).symm.trans h
    exact BitVec.toNat_setWidth_of_le (by decide)
  · simp only [List.mem_cons, List.not_mem_nil, or_false] at hi
    rcases hi with rfl | rfl | rfl
    · exact execPerIsNow_boolWritten h
    · exact execDlIsNow_boolWritten h
    · exact execTxSend_boolWritten h
  · cases (execMicros_eq s).symm.trans h
    exact BitVec.toNat_ofNat _ _
  · cases (execMillis_eq s).symm.trans h
    exact BitVec.toNat_ofNat _ _

/-! ### The faults the assembler checks for -/

/-- The faults whose conditions the assembler checks (R78). -/
def BlockFault.checkedByAssembler : BlockFault → Bool
  | .slotRange _ => true
  | .slotKind _ _ => true
  | .delayRange _ => true
  | _ => false

/-- The fault record is kept, or holds a fault for which the assembler does not check. -/
def State.FaultUnforeseen (s t : State) : Prop :=
  t.fault = s.fault ∨ ∃ f, t.fault = some f ∧ f.checkedByAssembler = false

/-- The block's slot check passes wherever the assembler's does (R78, R151). -/
theorem State.slotCheck_ne_error {kinds : List SlotKind} {slot : Nat} (h : s.cfg.HasSlot kinds slot) (op : Nat)
    (f : BlockFault) : s.slotCheck kinds op slot ≠ .error f := by
  obtain ⟨-, sc, hslot⟩ := h
  rw [(s.slotCheck_ok_iff kinds op slot sc).2 hslot]
  exact nofun

/-- A command that meets the assembler's checks raises none of the faults they stand for. -/
theorem exec_faultUnforeseen {i : Instr} (hi : i.Checked s.cfg) (h : exec i s = .next t) : s.FaultUnforeseen t := by
  cases i with
  | ticks => cases (execTicks_eq s).symm.trans h; exact .inl rfl
  | counts => cases (execCounts_eq s).symm.trans h; exact .inl rfl
  | micros => cases (execMicros_eq s).symm.trans h; exact .inl rfl
  | millis => cases (execMillis_eq s).symm.trans h; exact .inl rfl
  | delay base d =>
    rcases execDelay_cases base d s with ⟨hd, -⟩ | ⟨-, e⟩
    · exact absurd hd (Nat.not_le_of_lt hi)
    · cases e.symm.trans h; exact .inl rfl
  | perInit slot =>
    rcases execPerInit_cases slot s with ⟨f, hf, -⟩ | ⟨_, -, e⟩
    · exact absurd hf (State.slotCheck_ne_error hi _ f)
    · cases e.symm.trans h; exact .inl rfl
  | perIsNow slot =>
    rcases execPerIsNow_cases slot s with ⟨f, hf, -⟩ | ⟨_, -, ⟨-, e⟩ | ⟨-, -, e⟩ | ⟨-, -, e⟩⟩
    · exact absurd hf (State.slotCheck_ne_error hi _ f)
    · cases e.symm.trans h; exact .inr ⟨_, rfl, rfl⟩
    · cases e.symm.trans h; exact .inl rfl
    · cases e.symm.trans h; exact .inl rfl
  | dlReset slot =>
    rcases execDlReset_cases slot s with ⟨f, hf, -⟩ | ⟨_, -, e⟩
    · exact absurd hf (State.slotCheck_ne_error hi _ f)
    · cases e.symm.trans h; exact .inl rfl
  | vdlReset slot d =>
    obtain ⟨hslot, hd⟩ := hi
    rcases execVdlReset_cases slot d s with ⟨f, hf, -⟩ | ⟨_, -, ⟨hlong, -⟩ | ⟨-, e⟩⟩
    · exact absurd hf (State.slotCheck_ne_error hslot _ f)
    · exact absurd hlong (Nat.not_le_of_lt hd)
    · cases e.symm.trans h; exact .inl rfl
  | dlIsNow slot =>
    rcases execDlIsNow_cases slot s with
      ⟨f, hf, -⟩ | ⟨_, -, ⟨-, e⟩ | ⟨-, -, e⟩ | ⟨-, -, -, e⟩ | ⟨-, -, -, e⟩⟩
    · exact absurd hf (State.slotCheck_ne_error hi _ f)
    · cases e.symm.trans h; exact .inr ⟨_, rfl, rfl⟩
    · cases e.symm.trans h; exact .inl rfl
    · cases e.symm.trans h; exact .inl rfl
    · cases e.symm.trans h; exact .inl rfl
  | txSend level d =>
    rcases execTxSend_cases level d s with ⟨-, e⟩ | ⟨-, -, e⟩ | ⟨-, -, -, e⟩ | ⟨-, -, -, e⟩ <;> cases e.symm.trans h
    · exact .inl rfl
    · exact .inr ⟨_, rfl, rfl⟩
    · exact .inl rfl
    · exact .inl rfl
  | atomicEnter m =>
    rcases execAtomicEnter_cases m s with ⟨-, e⟩ | ⟨-, e⟩ <;> cases e.symm.trans h
    · exact .inr ⟨_, rfl, rfl⟩
    · exact .inl rfl
  | atomicExit =>
    rcases execAtomicExit_cases s with ⟨-, e⟩ | ⟨_, _, -, e⟩ <;> cases e.symm.trans h
    · exact .inr ⟨_, rfl, rfl⟩
    · exact .inl rfl

theorem State.FaultUnforeseen.ne_checked (h : s.FaultUnforeseen t) (hs : s.fault = none) {f : BlockFault}
    (hf : f.checkedByAssembler = true) : t.fault ≠ some f := by
  intro ht
  rcases h with hkeep | ⟨f', hf', hleft⟩
  · cases ht.symm.trans (hkeep.trans hs)
  · cases ht.symm.trans hf'
    cases hf.symm.trans hleft

/-- Settles O60: the line's command meets the assembler's checks, so it is well-formed and decodes back, and the block's own
checks of the same conditions pass. -/
theorem assembledLinesPassTheirChecks : Obligations.AssembledLinesPassTheirChecks := by
  intro l s cmd hs hasm
  obtain ⟨i, hi, rfl⟩ := Config.assemble_ok hasm
  have hchecked := Config.assembleInstr_checked hi
  obtain ⟨t, ht⟩ := exec_answers_next i s
  have hfault := exec_faultUnforeseen hchecked ht
  exact ⟨i, t, hi, decode_encode hchecked.wellFormed, ht, fun _ _ _ =>
    ⟨hfault.ne_checked hs rfl, hfault.ne_checked hs rfl, hfault.ne_checked hs rfl⟩⟩

end Sys2Proof.Machine
end

section
/-! PROOFS. 40_conversion.md: conversion in whole numbers (R101 to R103), and the slot a duration gives (R105). -/

namespace Sys2Proof

/-! ### Conversion in whole numbers -/

/-- The prescaler of a legal configuration is a power of two, so not 0 (R258). -/
theorem Config.p_pos_of_legal {c : Config} (h : c.legal = true) : 0 < c.p := by
  have hp := Machine.Config_legal_problem h
  by_contra hzero
  have hnot : isPowerOfTwo c.p = false := by
    rw [Nat.eq_zero_of_not_pos hzero]
    decide
  unfold Config.problem at hp
  rw [if_pos hnot] at hp
  split_ifs at hp

theorem TimeUnit.perSecond_pos (u : TimeUnit) : 0 < u.perSecond := by
  cases u <;> decide

variable (c : Config) (d : Duration)

/-- `count_exact` as one quotient of naturals (R100, R101). -/
theorem Config.countExact_eq_div :
    c.countExact d = ((d.n * c.fCpu : Nat) : Rat) / ((d.unit.perSecond * c.p : Nat) : Rat) := by
  rw [Config.countExact, Duration.seconds, div_mul_eq_mul_div, div_div, Nat.cast_mul, Nat.cast_mul]

/-- `conv_counts` rounds a quotient of naturals (R102). -/
theorem Config.convCounts_eq_apply_div :
    c.convCounts d =
      (c.convRound.apply (((d.n * c.fCpu : Nat) : Rat) / ((d.unit.perSecond * c.p : Nat) : Rat))).toNat := by
  rw [Config.convCounts, Config.countExact_eq_div]

/-- `conv_ticks` rounds the quotient with the further divisor 2^W (R103). -/
theorem Config.convTicks_eq_apply_div :
    c.convTicks d =
      (c.convRound.apply (((d.n * c.fCpu : Nat) : Rat) / ((d.unit.perSecond * c.p * 2 ^ c.w : Nat) : Rat))).toNat := by
  rw [Config.convTicks, Config.countExact_eq_div, div_div, ← Nat.cast_mul]

/-- Settles O58: both conversions round a quotient of naturals whose divisor is not 0, and `Rounding.apply_div` says that
rounding in whole numbers. -/
theorem conversionInWholeNumbers : Obligations.ConversionInWholeNumbers := by
  intro c d hlegal num den
  have hden : 0 < den := Nat.mul_pos d.unit.perSecond_pos (Config.p_pos_of_legal hlegal)
  have hdenTicks : 0 < den * 2 ^ c.w := Nat.mul_pos hden (Nat.two_pow_pos _)
  rw [Config.convCounts_eq_apply_div, Config.convTicks_eq_apply_div]
  refine ⟨fun hr => ?_, fun hr => ?_, fun hr => ?_⟩ <;> rw [hr] <;>
    exact ⟨Rounding.apply_div _ num den hden, Rounding.apply_div _ num _ hdenTicks⟩

/-! ### The slot a duration gives -/

/-- The variant is COUNTS where that is below 2^31, else TICKS where that is, else REFUSED (R105); a slot takes its base and
delay from it (R150). -/
theorem Config.slotOfDuration_cases (kind : SlotKind) :
    (c.convCounts d < 2 ^ 31 ∧
      c.slotOfDuration kind d = .ok ⟨kind, .counts, BitVec.ofNat 32 (c.convCounts d)⟩) ∨
    (2 ^ 31 ≤ c.convCounts d ∧ c.convTicks d < 2 ^ 31 ∧
      c.slotOfDuration kind d = .ok ⟨kind, .ticks, BitVec.ofNat 32 (c.convTicks d)⟩) ∨
    (2 ^ 31 ≤ c.convCounts d ∧ 2 ^ 31 ≤ c.convTicks d ∧ c.slotOfDuration kind d = .error .variantRefused) := by
  unfold Config.slotOfDuration Config.variant
  by_cases hcounts : c.convCounts d < 2 ^ 31
  · rw [if_pos hcounts]
    exact .inl ⟨hcounts, rfl⟩
  · rw [if_neg hcounts]
    by_cases hticks : c.convTicks d < 2 ^ 31
    · rw [if_pos hticks]
      exact .inr (.inl ⟨Nat.le_of_not_lt hcounts, hticks, rfl⟩)
    · rw [if_neg hticks]
      exact .inr (.inr ⟨Nat.le_of_not_lt hcounts, Nat.le_of_not_lt hticks, rfl⟩)

/-- A number below 2^31 keeps its value in a slot's delay. -/
theorem toNat_ofNat_of_lt_half {n : Nat} (h : n < 2 ^ 31) : (BitVec.ofNat 32 n).toNat = n :=
  (BitVec.toNat_ofNat n 32).trans (Nat.mod_eq_of_lt (h.trans (by decide)))

/-- Settles O59, by the variant. -/
theorem variantFitsItsUnit : Obligations.VariantFitsItsUnit := by
  intro c kind d
  rcases c.slotOfDuration_cases d kind with ⟨hcounts, e⟩ | ⟨hcounts, hticks, e⟩ | ⟨hcounts, hticks, e⟩ <;> rw [e]
  · refine ⟨?_, nofun, fun hrefused => absurd hrefused.1 (Nat.not_le_of_lt hcounts)⟩
    rintro _ ⟨⟩
    exact ⟨rfl, ofNat_toNat_lt hcounts, fun _ => toNat_ofNat_of_lt_half hcounts, nofun⟩
  · refine ⟨?_, nofun, fun hrefused => absurd hrefused.2 (Nat.not_le_of_lt hticks)⟩
    rintro _ ⟨⟩
    exact ⟨rfl, ofNat_toNat_lt hticks, nofun, fun _ => ⟨hcounts, toNat_ofNat_of_lt_half hticks⟩⟩
  · exact ⟨nofun, fun _ => ⟨hcounts, hticks⟩, fun _ => rfl⟩

end Sys2Proof
end

section
/-! PROOFS. 41_clock.md: the reads of the clock and their error bound (R123 to R128, R133), DELAY (R129 to R131), and what
the counter step and the overflow service do to the clock (R120, R121, R132). -/

namespace Sys2Proof.Machine

/-! ### TICKS, MICROS and MILLIS -/

/-- Settles O21. -/
theorem ticksResult : Obligations.TicksResult := execTicks_eq

/-- Settles O23: each of the two is a floor of `elapsedUnits`. -/
theorem microsAndMillisResult : Obligations.MicrosAndMillisResult :=
  fun s => ⟨execMicros_eq s, execMillis_eq s⟩

/-- The floor of the milliseconds is that of the whole microseconds over 1000 (R128). -/
theorem State.elapsedUnits_millis (s : State) : s.elapsedUnits 1000 = s.elapsedUnits 1000000 / 1000 := by
  unfold State.elapsedUnits
  rw [Nat.div_div_eq_div_mul, ← Nat.mul_div_mul_right (_ * 1000) s.cfg.fCpu (by decide : 0 < 1000),
    Nat.mul_assoc _ 1000 1000]

/-- Settles O24: where the microseconds have not wrapped, neither have the fewer milliseconds. -/
theorem millisIsMicrosOverThousand : Obligations.MillisIsMicrosOverThousand := by
  intro s t u hlt hmicros hmillis
  have hmicrosLt : s.elapsedUnits 1000000 < 2 ^ 64 := hlt
  have hmillisLt : s.elapsedUnits 1000 < 2 ^ 64 := s.elapsedUnits_millis ▸ (Nat.div_le_self _ _).trans_lt hmicrosLt
  cases (execMicros_eq s).symm.trans hmicros
  cases (execMillis_eq s).symm.trans hmillis
  show (BitVec.ofNat 64 (s.elapsedUnits 1000)).toNat = (BitVec.ofNat 64 (s.elapsedUnits 1000000)).toNat / 1000
  rw [BitVec.toNat_ofNat, BitVec.toNat_ofNat, Nat.mod_eq_of_lt hmillisLt, Nat.mod_eq_of_lt hmicrosLt, s.elapsedUnits_millis]

/-! ### Reads of counts -/

theorem State.inRaceWindow_iff (s : State) :
    s.inRaceWindow = true ↔ s.clock.ovfPending = false ∧ s.clock.raw.toNat < s.cfg.raceWindow := by
  simp [State.inRaceWindow]

/-- One tick is 2^W counts (R123). -/
theorem State.tickCounts_eq (s : State) : s.tickCounts = BitVec.ofNat 32 (2 ^ s.cfg.w) := by
  apply BitVec.eq_of_toNat_eq
  simp [State.tickCounts, Nat.shiftLeft_eq]

/-- A read of counts gives the composite count, or in the race window, where the draw is stale, one tick less (R123). -/
theorem State.readCounts_value_cases (s : State) :
    s.readCounts.1 = compose s.cfg.w s.clock.ticks s.clock.raw ∨
    (s.clock.ovfPending = false ∧ s.clock.raw.toNat < s.cfg.raceWindow ∧ Config.freeStale s.draws = true ∧
      s.readCounts.1 = compose s.cfg.w s.clock.ticks s.clock.raw - s.tickCounts) := by
  rcases s.readCounts_cases with h | ⟨hwindow, h⟩ <;> rw [h]
  · exact .inl rfl
  · obtain ⟨hov, hraw⟩ := s.inRaceWindow_iff.1 hwindow
    cases hstale : Config.freeStale s.draws
    · exact .inl rfl
    · exact .inr ⟨hov, hraw, rfl, rfl⟩

/-- Settles O22, by what a read of counts gives. -/
theorem countsResult : Obligations.CountsResult := by
  intro s
  refine ⟨s.readCounts.1, s.readCounts.2.draws, execCounts_eq s, ?_⟩
  rw [← s.tickCounts_eq]
  rcases s.readCounts_value_cases with h | ⟨hov, hraw, -, h⟩
  · exact .inl h
  · exact .inr ⟨hov, hraw, h⟩

/-! ### The error of a read of counts -/

/-- One tick more is 2^W counts more, for a `raw` of W bits (R25). -/
theorem compose_succ (w : Nat) (t : Word) (raw : BitVec 16) (hw : w ≤ 16) (hr : raw.toNat < 2 ^ w) :
    compose w (t + 1) raw = compose w t raw + BitVec.ofNat 32 (2 ^ w) := by
  apply BitVec.eq_of_toNat_eq
  rw [BitVec.toNat_add, compose_toNat w _ raw hw hr, compose_toNat w _ raw hw hr, BitVec.toNat_add, BitVec.toNat_ofNat,
    ← Nat.add_mod]
  calc ((t.toNat + 1) % 2 ^ 32 * 2 ^ w + raw.toNat) % 2 ^ 32
      = ((t.toNat + 1) * 2 ^ w + raw.toNat) % 2 ^ 32 := ((Nat.mod_modEq _ _).mul_right _).add_right _
    _ = (t.toNat * 2 ^ w + raw.toNat + 2 ^ w) % 2 ^ 32 := by ring_nf

/-- With no overflow pending, E is the composite count (R25). -/
theorem State.trueCount_of_not_pending {s : State} (hov : s.clock.ovfPending = false) :
    s.trueCount = compose s.cfg.w s.clock.ticks s.clock.raw := by
  simp [State.trueCount, hov]

/-- A pending overflow is one tick that the composite count lacks (R25, R123). -/
theorem State.Inv.trueCount_of_pending {s : State} (h : s.Inv) (hov : s.clock.ovfPending = true) :
    s.trueCount = compose s.cfg.w s.clock.ticks s.clock.raw + s.tickCounts := by
  rw [State.trueCount, hov, bitWord_true, compose_succ _ _ _ (Config_legal_width_le h.legal) h.raw, s.tickCounts_eq]

/-- `ovf_eff` (R251). -/
theorem State.ovfEff_iff (s : State) :
    s.ovfEff = true ↔ s.clock.ovfPending = true ∧ s.clock.ovfIe = true ∧ s.mask.imask.getLsbD 0 = false := by
  simp [State.ovfEff, State.ovfMasked, and_assoc]

/-- A host that may step, with OVF not masked, finds no overflow pending: the service goes first (R56). -/
theorem State.Inv.ovfPending_of_host_enabled {s : State} (h : s.Inv) (hmask : s.mask.imask.getLsbD 0 = false)
    (hen : s.enabled .host = true) : s.clock.ovfPending = false := by
  obtain ⟨-, hnot, -, -⟩ := s.enabled_host_iff.1 hen
  exact Bool.eq_false_iff.2 fun hov => hnot (s.ovfEff_iff.2 ⟨hov, h.ovfIe, hmask⟩)

/-- Settles O20. A pending overflow closes the race window and costs the composite count its one tick; without one the
composite count is E, and only a stale draw in the window takes a tick from it. -/
theorem countsErrorBound : Obligations.CountsErrorBound := by
  intro s hs
  cases hov : s.clock.ovfPending with
  | true =>
    have hread : s.readCounts.1 = s.trueCount - s.tickCounts := by
      rcases s.readCounts_value_cases with h | ⟨hnot, -⟩
      · rw [h, hs.trueCount_of_pending hov, BitVec.add_sub_cancel]
      · rw [hov] at hnot; cases hnot
    refine ⟨.inr hread, fun _ => .inl rfl, fun _ hmask hen => ?_⟩
    exact absurd (hs.ovfPending_of_host_enabled hmask hen) (by simp [hov])
  | false =>
    have hcomposite := State.trueCount_of_not_pending hov
    rcases s.readCounts_value_cases with h | ⟨-, hraw, hstale, h⟩
    · have hread : s.readCounts.1 = s.trueCount := h.trans hcomposite.symm
      exact ⟨.inl hread, fun hne => absurd hread hne, fun _ _ _ => hread⟩
    · refine ⟨.inr (by rw [h, hcomposite]), fun _ => .inr ⟨hraw, hstale⟩, fun hzero => ?_⟩
      exact absurd hraw (by simp [hzero])

/-! ### DELAY -/

/-- Settles O25. -/
theorem delayIssue : Obligations.DelayIssue := by
  intro s base d
  rcases execDelay_cases base d s with ⟨hlong, e⟩ | ⟨hshort, e⟩
  · exact ⟨fun hshort => absurd hlong (Nat.not_le_of_lt hshort), fun _ => e⟩
  · exact ⟨fun _ => e, fun hlong => absurd hlong (Nat.not_le_of_lt hshort)⟩

/-- The unsigned difference of two words (R130). -/
theorem toNat_sub_word (a b : Word) : (a - b).toNat = (a.toNat + 2 ^ 32 - b.toNat) % 2 ^ 32 := by
  rw [BitVec.toNat_sub]
  have := b.isLt
  congr 1
  omega

/-- Settles O26: the host's step is the poll, and the poll compares the unsigned difference. -/
theorem delayPoll : Obligations.DelayPoll := by
  intro s hactive
  have hpoll : hostStep s = .next s.delayPoll := by simp [hostStep, hactive]
  rw [hpoll, ← toNat_sub_word]
  rcases s.delayPoll_cases with ⟨hdone, e⟩ | ⟨hwait, e⟩
  · rw [if_pos hdone, e]
  · rw [if_neg (Nat.not_le_of_lt hwait), e]

/-! ### The counter step -/

/-- Below its greatest value `raw` adds one (R120). -/
theorem State.nextRaw_of_lt {s : State} (hw : s.cfg.w ≤ 16) (hlt : s.clock.raw.toNat < 2 ^ s.cfg.w - 1) :
    s.nextRaw = s.clock.raw + 1 := by
  have h16 : 2 ^ s.cfg.w ≤ 2 ^ 16 := Nat.pow_le_pow_right (by decide) hw
  apply BitVec.eq_of_toNat_eq
  rw [s.nextRaw_toNat hw, Nat.mod_eq_of_lt (by omega), BitVec.toNat_add_of_lt (show s.clock.raw.toNat + 1 < 2 ^ 16 by omega)]
  rfl

/-- The comparator leaves the overflow's age alone (R203). -/
theorem State.matchCheck_ovfAge (s : State) : s.matchCheck.lat.ovfAge = s.lat.ovfAge := by
  rcases s.matchCheck_cases with ⟨-, -, e⟩ | ⟨-, e⟩ <;> rw [e]

/-- The clock and the overflow's age after a counter step that loses no tick (R120). -/
theorem State.counterStep_clock_ovfAge {s : State} (hkeeps : ¬ (s.nextRaw = 0 ∧ s.clock.ovfPending = true)) :
    s.counterStep.clock =
      ⟨s.nextRaw, s.clock.ticks, s.clock.ovfPending || decide (s.nextRaw = 0), s.clock.ovfIe⟩ ∧
    s.counterStep.lat.ovfAge = if s.nextRaw = 0 then 0 else if s.ovfEff then s.lat.ovfAge + 1 else s.lat.ovfAge := by
  rcases s.counterStep_cases with ⟨hwrap, hov, -⟩ | ⟨-, e⟩
  · exact absurd ⟨hwrap, hov⟩ hkeeps
  · rw [e, State.matchCheck_ovfAge]
    exact ⟨by simp, by simp [State.ageInterrupts]⟩

/-- Settles O27: `raw` wraps exactly at 2^W - 1, and a tick is lost exactly where it wraps with the flag set. -/
theorem counterStepResult : Obligations.CounterStepResult := by
  intro s hs
  have hw := Config_legal_width_le hs.legal
  have hwraps := State.nextRaw_eq_zero_iff hw hs.raw
  have hpos := Nat.two_pow_pos s.cfg.w
  refine ⟨fun htop hov => ?_, fun htop hov => ?_, fun hlt => ?_⟩
  · rcases s.counterStep_cases with ⟨-, -, e⟩ | ⟨hkeeps, -⟩
    · exact e
    · exact absurd ⟨hwraps.2 (by omega), hov⟩ hkeeps
  · obtain ⟨hclock, hage⟩ := State.counterStep_clock_ovfAge (s := s) (by simp [hov])
    have hwrap : s.nextRaw = 0 := hwraps.2 (by omega)
    simp [hclock, hage, hwrap]
  · have hno : s.nextRaw ≠ 0 := mt hwraps.1 (by omega)
    obtain ⟨hclock, hage⟩ := State.counterStep_clock_ovfAge (s := s) (fun hlost => hno hlost.1)
    refine ⟨?_, by rw [hage, if_neg hno]⟩
    rw [hclock, decide_eq_false hno, Bool.or_false, State.nextRaw_of_lt hw hlt]

/-! ### The overflow service -/

/-- `ticks` adds one mod 2^32, in numbers (R121). -/
theorem word_succ_eq_ofNat (a : Word) : a + 1 = BitVec.ofNat 32 ((a.toNat + 1) % 2 ^ 32) := by
  apply BitVec.eq_of_toNat_eq
  simp [BitVec.toNat_add]

/-- Settles O28. E is kept because an overflow that may be serviced is pending. -/
theorem overflowServiceResult : Obligations.OverflowServiceResult := by
  intro s
  refine ⟨s.enabled_ovf_iff, ?_, fun hen => ?_⟩
  · rw [← word_succ_eq_ofNat]
    rfl
  · obtain ⟨-, heff⟩ := s.enabled_ovf_iff.1 hen
    exact s.overflowService_trueCount_of_pending (s.ovfEff_iff.1 heff).1

/-- Every command leaves the clock alone (R132). -/
theorem exec_clock {i : Instr} {s t : State} (h : exec i s = .next t) : t.clock = s.clock := by
  rcases exec_cases i s t h with ⟨f, rfl⟩ | ⟨-, hclock, -⟩
  · rfl
  · exact hclock

/-- Settles O29, by the agent that moves. -/
theorem ticksChangeOnlyInOverflowService : Obligations.TicksChangeOnlyInOverflowService := by
  intro s t h
  obtain ⟨-, -, turns, draws, -, hen, hcnt | hovf | hcmps | hpoll | hidle | hissue⟩ := step_cases h
  · obtain ⟨-, rfl⟩ := hcnt
    exact .inl (by rw [State.counterStep_clock_frame])
  · obtain ⟨hag, rfl⟩ := hovf
    exact .inr ⟨hag, hag ▸ hen, rfl⟩
  · obtain ⟨-, rfl⟩ := hcmps
    exact .inl (by rw [State.matchService_clock])
  · obtain ⟨-, -, rfl⟩ := hpoll
    exact .inl (by rw [State.delayPoll_clock])
  · obtain ⟨-, -, -, rfl⟩ := hidle
    exact .inl rfl
  · obtain ⟨-, -, c, more, -, ⟨e, -, rfl⟩ | ⟨i, -, hexec⟩⟩ := hissue
    · exact .inl rfl
    · exact .inl (by rw [exec_clock hexec])

end Sys2Proof.Machine
end

section
/-! PROOFS. 42_deadline.md: the firing window (R157), the five slot commands (R152 to R156), the latch of a deadline (R156)
and the catch-up of a Periodic (R158). -/

namespace Sys2Proof.Machine

/-! ### The firing window -/

/-- The window in which a target `e` after `a` is reached opens at `e` and lasts 2^31; where that runs past 2^32 its end is
found before `e` (R9). -/
theorem reached_add_iff (now a e : Word) :
    reached now (a + e) = true ↔
      (e.toNat ≤ (now - a).toNat ∧ (now - a).toNat < e.toNat + 2 ^ 31) ∨ (now - a).toNat + 2 ^ 31 < e.toNat := by
  have hx := (now - a).isLt
  have he := e.isLt
  rw [reached_iff, ← BitVec.sub_sub, toNat_sub_word]
  omega

/-- Settles O36: a delay below 2^31 leaves the window in one piece. -/
theorem firingWindow : Obligations.FiringWindow := by
  intro a d now hd
  rw [reached_add_iff, or_iff_left (by omega)]

theorem reached_eq_false_iff_sdelta_neg (a b : Word) : reached a b = false ↔ sdelta a b < 0 := by
  rw [← Bool.not_eq_true, reached_iff_sdelta_nonneg, not_le]

/-! ### The slot commands -/

/-- Of the two ways a slot command can answer, a slot of a kind the command takes leaves the one after the slot check
(R151). -/
theorem State.of_slotCheck_cases {s : State} {kinds : List SlotKind} {op slot : Nat} {c : SlotCfg} {P : BlockFault → Prop}
    {Q : SlotCfg → Prop} (hslot : s.cfg.slotCfg[slot]? = some c) (hkind : c.kind ∈ kinds)
    (h : (∃ f, s.slotCheck kinds op slot = .error f ∧ P f) ∨ ∃ c', s.slotCheck kinds op slot = .ok c' ∧ Q c') : Q c := by
  have hok := (s.slotCheck_ok_iff kinds op slot c).2 ⟨hslot, hkind⟩
  rcases h with ⟨f, hf, -⟩ | ⟨c', hc', hQ⟩
  · cases hok.symm.trans hf
  · cases hok.symm.trans hc'
    exact hQ

/-- Settles O31. -/
theorem perInitResult : Obligations.PerInitResult :=
  fun s slot _ hslot hkind => State.of_slotCheck_cases hslot (by simp [hkind]) (execPerInit_cases slot s)

/-- Settles O33. -/
theorem dlResetResult : Obligations.DlResetResult :=
  fun s slot _ hslot hkind => State.of_slotCheck_cases hslot (by simp [hkind]) (execDlReset_cases slot s)

/-- Settles O34. -/
theorem vdlResetResult : Obligations.VdlResetResult := by
  intro s slot d c hslot hkind hd
  rcases State.of_slotCheck_cases hslot (by simp [hkind]) (execVdlReset_cases slot d s) with ⟨hlong, -⟩ | ⟨-, e⟩
  · exact absurd hlong (Nat.not_le_of_lt hd)
  · exact e

/-- Settles O32, by whether the base has reached `next`. -/
theorem perIsNowResult : Obligations.PerIsNowResult := by
  intro s slot c hslot hkind hvalid
  rw [← reached_iff_sdelta_nonneg, ← reached_eq_false_iff_sdelta_neg]
  rcases State.of_slotCheck_cases hslot (by simp [hkind]) (execPerIsNow_cases slot s) with
    ⟨hnot, -⟩ | ⟨-, hdue, e⟩ | ⟨-, hearly, e⟩
  · cases hnot.symm.trans hvalid
  · exact ⟨fun _ => e, fun hearly => nomatch hdue.symm.trans hearly⟩
  · exact ⟨fun hdue => (nomatch hdue.symm.trans hearly), fun _ => e⟩

/-- Settles O35, by the latch and then by whether the base has reached `next`. -/
theorem dlIsNowResult : Obligations.DlIsNowResult := by
  intro s slot c hslot hkind hvalid
  rw [← reached_iff_sdelta_nonneg, ← reached_eq_false_iff_sdelta_neg]
  rcases State.of_slotCheck_cases hslot (by simpa using hkind) (execDlIsNow_cases slot s) with
    ⟨hnot, -⟩ | ⟨-, hset, e⟩ | ⟨-, hclear, hdue, e⟩ | ⟨-, hclear, hearly, e⟩
  · cases hnot.symm.trans hvalid
  · rw [hset]
    exact ⟨fun _ => e, nofun, nofun⟩
  · rw [hclear, hdue]
    exact ⟨nofun, fun _ _ => e, nofun⟩
  · rw [hclear, hearly]
    exact ⟨nofun, nofun, fun _ _ => e⟩

/-! ### The latch -/

section Latch

variable {slot : Nat} {s t : State}

/-- A slot command keeps the latch of every slot but its own, and of its own where what it leaves there does (R53). -/
theorem State.SlotWritten.elapsed_eq {n : Nat} {v : Slot} (h : s.SlotWritten n v t)
    (hv : n = slot → v.elapsed = (s.slotAt n).elapsed) : (t.slotAt slot).elapsed = (s.slotAt slot).elapsed := by
  by_cases hn : n = slot
  · subst hn
    exact h.slotAt_item Slot.elapsed (hv rfl)
  · rw [h.slotAt_ne slot (Ne.symm hn)]

/-- DL.ISNOW never clears a latch: it writes a slot only where it sets that slot's own (R156). -/
theorem execDlIsNow_elapsed {n : Nat} (h : execDlIsNow n s = .next t) (hset : (s.slotAt slot).elapsed = true) :
    (t.slotAt slot).elapsed = true := by
  rcases execDlIsNow_cases n s with
    ⟨f, -, e⟩ | ⟨c, -, ⟨-, e⟩ | ⟨-, -, e⟩ | ⟨-, hclear, -, e⟩ | ⟨-, -, -, e⟩⟩ <;> rw [e] at h <;> cases h
  · exact hset
  · exact hset
  · exact hset
  · have hn : n ≠ slot := by
      rintro rfl
      cases hset.symm.trans hclear
    exact (State.SlotWritten.elapsed_eq ⟨rfl, rfl⟩ fun hself => absurd hself hn).trans hset
  · exact hset

/-- A command keeps a latch that is set, unless it is that slot's own reset command (R27, R154 to R156). -/
theorem exec_elapsed_cases {i : Instr} (h : exec i s = .next t) (hset : (s.slotAt slot).elapsed = true) :
    (t.slotAt slot).elapsed = true ∨ i = .dlReset slot ∨ ∃ d, i = .vdlReset slot d := by
  have of_frame {u : State} (hframe : t = u) (hslots : u.slots = s.slots) : (t.slotAt slot).elapsed = true := by
    rwa [State.slotAt_congr (hframe ▸ hslots)]
  cases i with
  | ticks => exact .inl (of_frame (readCommandsFrame .ticks s t (by simp) h) rfl)
  | counts => exact .inl (of_frame (readCommandsFrame .counts s t (by simp) h) rfl)
  | micros => exact .inl (of_frame (readCommandsFrame .micros s t (by simp) h) rfl)
  | millis => exact .inl (of_frame (readCommandsFrame .millis s t (by simp) h) rfl)
  | delay base d => exact .inl (of_frame (execDelay_frame h) rfl)
  | txSend level d => exact .inl (of_frame (execTxSend_frame h).1 rfl)
  | atomicEnter m => exact .inl (of_frame (execAtomicEnter_frame h) rfl)
  | atomicExit => exact .inl (of_frame (execAtomicExit_frame h) rfl)
  | perInit n =>
    obtain ⟨v, hw, -, hv⟩ := execPerInit_frame h
    exact .inl ((hw.elapsed_eq fun _ => hv).trans hset)
  | perIsNow n =>
    obtain ⟨v, hw, hv⟩ := execPerIsNow_frame h
    exact .inl ((hw.elapsed_eq fun _ => hv).trans hset)
  | dlIsNow n => exact .inl (execDlIsNow_elapsed h hset)
  | dlReset n =>
    obtain ⟨⟨v, hw⟩, -⟩ := execDlReset_frame h
    by_cases hn : n = slot
    · exact .inr (.inl (hn ▸ rfl))
    · exact .inl ((hw.elapsed_eq fun e => absurd e hn).trans hset)
  | vdlReset n d =>
    obtain ⟨⟨v, hw⟩, -⟩ := execVdlReset_frame h
    by_cases hn : n = slot
    · exact .inr (.inr ⟨d, hn ▸ rfl⟩)
    · exact .inl ((hw.elapsed_eq fun e => absurd e hn).trans hset)

/-- A step leaves the slots alone, or it is the host's and runs the command its next transaction decodes to (R36). -/
theorem step_slots_cases (h : step s = .next t) :
    t.slots = s.slots ∨ (s.takeTurn.1 = .host ∧ ∃ c more i turns draws, s.hostCmds = .command c :: more ∧
      decode c.cmd c.arg = .ok i ∧ exec i { s with turns := turns, draws := draws, hostCmds := more } = .next t) := by
  obtain ⟨-, -, turns, draws, -, -, hcnt | hovf | hcmps | hpoll | hidle | hissue⟩ := step_cases h
  · obtain ⟨-, rfl⟩ := hcnt
    exact .inl (State.counterStep_slots _)
  · obtain ⟨-, rfl⟩ := hovf
    exact .inl rfl
  · obtain ⟨-, rfl⟩ := hcmps
    exact .inl (State.matchService_slots _)
  · obtain ⟨-, -, rfl⟩ := hpoll
    exact .inl (State.delayPoll_slots _)
  · obtain ⟨-, -, -, rfl⟩ := hidle
    exact .inl rfl
  · obtain ⟨hag, -, c, more, hcmds, ⟨e, -, rfl⟩ | ⟨i, hdec, hexec⟩⟩ := hissue
    · exact .inl rfl
    · exact .inr ⟨hag, c, more, i, turns, draws, hcmds, hdec, hexec⟩

end Latch

/-- Settles O38: only a command writes the slots, and only the slot's own reset command clears its latch. -/
theorem latchClearedOnlyByReset : Obligations.LatchClearedOnlyByReset := by
  intro s t slot h hset hclear
  rcases step_slots_cases h with hslots | ⟨hag, c, more, i, turns, draws, hcmds, hdec, hexec⟩
  · rw [State.slotAt_congr hslots, hset] at hclear
    cases hclear
  · refine ⟨c, more, hag, hcmds, ?_⟩
    rcases exec_elapsed_cases hexec hset with hkept | rfl | ⟨d, rfl⟩
    · cases hkept.symm.trans hclear
    · exact .inl hdec
    · exact .inr ⟨d, hdec⟩

/-! ### Catching up -/

section CatchUp

/-- A read uses up one draw at most (R123). -/
theorem State.readBase_draws (s : State) (b : Base) :
    (s.readBase b).2.draws = s.draws ∨ (s.readBase b).2.draws = s.draws + 1 := by
  cases b with
  | counts => rcases s.readCounts_cases with h | ⟨-, h⟩ <;> simp [State.readBase, h]
  | ticks => exact .inl rfl

/-- What a read gives depends on the clock, the configuration and the draw alone (R122, R123). -/
theorem State.readBase_fst_congr {s t : State} (hclock : t.clock = s.clock) (hcfg : t.cfg = s.cfg)
    (hdraws : t.draws = s.draws) (b : Base) : (t.readBase b).1 = (s.readBase b).1 := by
  cases b with
  | counts =>
    have hwindow : t.inRaceWindow = s.inRaceWindow := by simp [State.inRaceWindow, hclock, hcfg]
    simp only [State.readBase, State.readCounts, State.drawStale, State.tickCounts, hwindow, hclock, hcfg, hdraws]
    split <;> rfl
  | ticks => exact congrArg Clock.ticks hclock

/-- The premise of R158: a valid Periodic slot, of which each of the next `n` polls reads `now` (log 6). -/
structure State.PeriodicAt (slot : Nat) (b : Base) (d now : Word) (n : Nat) (s : State) : Prop where
  slotCfg : s.cfg.slotCfg[slot]? = some ⟨.periodic, b, d⟩
  present : slot < s.slots.length
  valid   : (s.slotAt slot).valid = true
  reads   : ∀ j, j < n → (State.readBase b { s with draws := s.draws + j }).1 = now

variable {slot n : Nat} {b : Base} {d now : Word} {s : State}

theorem State.PeriodicAt.readBase (h : s.PeriodicAt slot b d now (n + 1)) : (s.readBase b).1 = now :=
  h.reads 0 (Nat.succ_pos n)

/-- The polls after the first read `now` as before, whether or not the first used up a draw. -/
theorem State.PeriodicAt.reads_afterRead (h : s.PeriodicAt slot b d now (n + 1)) (j : Nat) (hj : j < n) :
    (State.readBase b { s with draws := (s.readBase b).2.draws + j }).1 = now := by
  rcases s.readBase_draws b with e | e <;> rw [e]
  · exact h.reads j (by omega)
  · rw [Nat.add_right_comm]
    exact h.reads (j + 1) (by omega)

/-- A poll of a Periodic that is due answers 1 and moves `next` on by the delay (R153). -/
theorem State.PeriodicAt.poll_due (h : s.PeriodicAt slot b d now (n + 1))
    (hdue : reached now (s.slotAt slot).next = true) :
    ∃ t, exec (.perIsNow slot) s = .next t ∧ t.res = 1 ∧ (t.slotAt slot).next = (s.slotAt slot).next + d ∧
      t.PeriodicAt slot b d now n := by
  rw [← h.readBase] at hdue
  have hpoll := (perIsNowResult s slot _ h.slotCfg rfl h.valid).1 ((reached_iff_sdelta_nonneg _ _).1 hdue)
  have hself := s.slotAt_setSlot_self slot ⟨(s.slotAt slot).next + d, (s.slotAt slot).elapsed, true⟩ h.present
  refine ⟨_, hpoll, rfl, congrArg Slot.next hself, h.slotCfg, ?_, congrArg Slot.valid hself, fun j hj => ?_⟩
  · simpa using h.present
  · rw [← h.reads_afterRead j hj]
    refine State.readBase_fst_congr ?_ ?_ ?_ b <;> rfl

/-- A poll of a Periodic that is not due answers 0 and leaves the slot alone (R153). -/
theorem State.PeriodicAt.poll_early (h : s.PeriodicAt slot b d now (n + 1))
    (hearly : reached now (s.slotAt slot).next = false) :
    ∃ t, exec (.perIsNow slot) s = .next t ∧ t.res = 0 ∧ t.slotAt slot = s.slotAt slot := by
  rw [← h.readBase] at hearly
  have hpoll := (perIsNowResult s slot _ h.slotCfg rfl h.valid).2 ((reached_eq_false_iff_sdelta_neg _ _).1 hearly)
  exact ⟨_, hpoll, rfl, rfl⟩

/-- The first poll, then the others from the state it leaves. -/
theorem periodicPolls_succ_iff {k : Nat} {u : State} {rs : List DWord} :
    periodicPolls slot (k + 1) s = some (rs, u) ↔
      ∃ t rest, exec (.perIsNow slot) s = .next t ∧ periodicPolls slot k t = some (rest, u) ∧ rs = t.res :: rest := by
  obtain ⟨t, ht⟩ := exec_answers_next (.perIsNow slot) s
  simp [periodicPolls, ht, eq_comm]

/-- One poll more behind the others. -/
theorem periodicPolls_concat {k : Nat} {t u : State} {rs : List DWord} (hfirst : periodicPolls slot k s = some (rs, t))
    (hlast : exec (.perIsNow slot) t = .next u) : periodicPolls slot (k + 1) s = some (rs ++ [u.res], u) := by
  induction k generalizing s rs with
  | zero =>
    cases hfirst
    exact periodicPolls_succ_iff.2 ⟨u, [], hlast, rfl, rfl⟩
  | succ k ih =>
    obtain ⟨v, rest, hv, hrest, rfl⟩ := periodicPolls_succ_iff.1 hfirst
    exact periodicPolls_succ_iff.2 ⟨v, rest ++ [u.res], hv, ih hrest, rfl⟩

/-- `j + 1` delays are `j` and one more, mod 2^32. -/
theorem ofNat_succ_mul (j : Nat) (d : Word) :
    BitVec.ofNat 32 ((j + 1) * d.toNat) = BitVec.ofNat 32 (j * d.toNat) + d := by
  rw [Nat.succ_mul, BitVec.ofNat_add, BitVec.ofNat_toNat, BitVec.setWidth_eq]

/-- While the slot is due at each of them, `m` polls all answer 1, and `next` has moved by `m` whole delays (R158). -/
theorem State.PeriodicAt.polls_due {m : Nat} (h : s.PeriodicAt slot b d now (m + n))
    (hdue : ∀ j, j < m → reached now ((s.slotAt slot).next + BitVec.ofNat 32 (j * d.toNat)) = true) :
    ∃ t, periodicPolls slot m s = some (List.replicate m 1, t) ∧
      (t.slotAt slot).next = (s.slotAt slot).next + BitVec.ofNat 32 (m * d.toNat) ∧ t.PeriodicAt slot b d now n := by
  induction m generalizing n with
  | zero => exact ⟨s, rfl, by simp, Nat.zero_add n ▸ h⟩
  | succ m ih =>
    obtain ⟨t, hpolls, hnext, ht⟩ := ih (n := n + 1) (by rwa [← Nat.add_assoc, Nat.add_right_comm])
      fun j hj => hdue j (by omega)
    obtain ⟨u, hpoll, hres, hmoved, hu⟩ := ht.poll_due (hnext ▸ hdue m (Nat.lt_succ_self m))
    refine ⟨u, ?_, ?_, hu⟩
    · rw [periodicPolls_concat hpolls hpoll, hres, List.replicate_succ']
    · rw [hmoved, hnext, ofNat_succ_mul, BitVec.add_assoc]

end CatchUp

/-- Of the targets `next + j * d`, a base k whole delays and r past `next` has reached exactly those up to j = k (R158). -/
theorem reached_add_mul_iff {now next d : Word} {k r j : Nat} (hlate : (now - next).toNat = k * d.toNat + r) (hr : r < d.toNat)
    (hhalf : k * d.toNat + r < 2 ^ 31) (hd : d.toNat < 2 ^ 31) (hj : j ≤ k + 1) :
    reached now (next + BitVec.ofNat 32 (j * d.toNat)) = true ↔ j ≤ k := by
  have hmul : j * d.toNat ≤ (k + 1) * d.toNat := Nat.mul_le_mul_right _ hj
  have hsucc : (k + 1) * d.toNat = k * d.toNat + d.toNat := Nat.succ_mul k d.toNat
  rw [reached_add_iff, hlate, BitVec.toNat_ofNat, Nat.mod_eq_of_lt (by omega)]
  constructor
  · intro hreached
    by_contra hlt
    obtain rfl : j = k + 1 := by omega
    omega
  · intro hle
    have hwithin : j * d.toNat ≤ k * d.toNat := Nat.mul_le_mul_right _ hle
    exact .inl (by omega)

/-- Settles O37: the polls up to the k-th delay find the slot due, and the one after finds it not. -/
theorem periodicCatchUp : Obligations.PeriodicCatchUp := by
  intro s slot k r b d hslot hreads hlt hvalid hr hlate hhalf hd
  have hs : s.PeriodicAt slot b d (s.readBase b).1 (k + 2) :=
    ⟨hslot, hlt, hvalid, fun j hj => hreads j (Nat.le_of_lt_succ hj)⟩
  have hdue (j : Nat) (hj : j < k + 1) :
      reached (s.readBase b).1 ((s.slotAt slot).next + BitVec.ofNat 32 (j * d.toNat)) = true :=
    (reached_add_mul_iff hlate hr hhalf hd hj.le).2 (Nat.le_of_lt_succ hj)
  have hpolls (j n : Nat) (hj : j + n = k + 2) (hle : j ≤ k + 1) :=
    State.PeriodicAt.polls_due (hj ▸ hs) fun i hi => hdue i (hi.trans_le hle)
  obtain ⟨t, hones, hnext, ht⟩ := hpolls (k + 1) 1 rfl le_rfl
  have hearly : reached (s.readBase b).1 (t.slotAt slot).next = false := by
    rw [hnext, ← Bool.not_eq_true, reached_add_mul_iff hlate hr hhalf hd le_rfl]
    exact Nat.not_succ_le_self k
  obtain ⟨u, hpoll, hres, hkept⟩ := ht.poll_early hearly
  refine ⟨u, ?_, by rw [hkept, hnext], fun j hj => ?_⟩
  · rw [periodicPolls_concat hones hpoll, hres]
  · obtain ⟨v, hv, hmoved, -⟩ := hpolls j (k + 2 - j) (by omega) hj
    exact ⟨_, v, hv, hmoved⟩

end Sys2Proof.Machine
end

section
/-! PROOFS. 43_queue.md: the queue's two operations (R181, R182), first in and first out (R185), and who changes the queue
(R184). -/

namespace Sys2Proof.Machine

/-! ### Q_WRITE and Q_READ -/

/-- Q_WRITE on a full queue is rejected (R181). -/
theorem State.qWrite_of_full {s : State} (hfull : s.queue.count = s.cfg.cap) (p : Pulse) : s.qWrite p = (false, s) := by
  rcases s.qWrite_cases p with ⟨-, e⟩ | ⟨hroom, -⟩
  · exact e
  · exact absurd hfull hroom

/-- Q_WRITE with room puts the pulse at the index behind the live entries (R181). -/
theorem State.qWrite_of_room {s : State} (hroom : s.queue.count ≠ s.cfg.cap) (p : Pulse) :
    s.qWrite p = (true, { s with queue :=
      ⟨s.queue.buf.set (s.queueIndex s.queue.count) (some p), s.queue.head, s.queue.count + 1⟩ }) := by
  rcases s.qWrite_cases p with ⟨hfull, -⟩ | ⟨-, e⟩
  · exact absurd hfull hroom
  · exact e

/-- Q_READ from an empty queue answers EMPTY (R182). -/
theorem State.qRead_of_empty {s : State} (hempty : s.queue.count = 0) : s.qRead = (Pulse.empty, s) := by
  rcases s.qRead_cases with ⟨-, e⟩ | ⟨hheld, -⟩
  · exact e
  · exact absurd hempty hheld

/-- Q_READ from a queue that holds a pulse takes the entry at the head out (R182). -/
theorem State.qRead_of_held {s : State} (hheld : s.queue.count ≠ 0) :
    s.qRead = (((s.queue.buf[s.queue.head]?).join).getD Pulse.empty, { s with queue :=
      ⟨s.queue.buf.set s.queue.head none, (s.queue.head + 1) % s.cfg.cap, s.queue.count - 1⟩ }) := by
  rcases s.qRead_cases with ⟨hempty, -⟩ | ⟨-, e⟩
  · exact absurd hempty hheld
  · exact e

/-- The live entries of an empty queue are none (R28). -/
theorem State.liveQueue_of_empty {s : State} (hempty : s.queue.count = 0) : s.liveQueue = [] :=
  List.eq_nil_of_length_eq_zero (s.liveQueue_length.trans hempty)

/-- A sound queue that is not full has room for one more pulse (R28). -/
theorem State.QueueSound.count_lt {s : State} (h : s.QueueSound) (hroom : s.queue.count ≠ s.cfg.cap) :
    s.queue.count < s.cfg.cap :=
  Nat.lt_of_le_of_ne h.count hroom

/-- Settles O39: rejected when full; with room, one entry of the ring is set, and it is in the ring. -/
theorem queueWriteResult : Obligations.QueueWriteResult := by
  intro s p hs
  refine ⟨fun hfull => State.qWrite_of_full hfull p, fun hroom => ?_⟩
  have hindex : s.queueIndex s.queue.count < s.queue.buf.length := hs.queue.length ▸ Nat.mod_lt _ hs.queue.cap_pos
  have hlive := s.qWrite_liveQueue p hs.queue.cap_pos hs.queue.length (hs.queue.count_lt hroom)
  rw [State.qWrite_of_room hroom] at hlive
  exact ⟨_, State.qWrite_of_room hroom p, rfl, rfl, rfl, List.getElem?_set_self hindex,
    fun _ hj => List.getElem?_set_ne hj.symm, hlive⟩

/-- Settles O40: EMPTY when empty; otherwise the entry at the head is the oldest pulse, and it leaves. -/
theorem queueReadResult : Obligations.QueueReadResult := by
  intro s hs
  refine ⟨State.qRead_of_empty, fun hheld => ?_⟩
  obtain ⟨p, hread, -, -, hhead⟩ := s.qRead_oldest hs.queue hheld
  have hlive := s.qRead_liveQueue hs.queue hheld
  rw [hread] at hlive
  refine ⟨p, s.qRead.2, Prod.ext hread rfl, ?_, hhead, ?_, ?_, s.qRead_count hheld, hlive⟩ <;>
    rw [State.qRead_of_held hheld]

/-! ### First in, first out -/

/-- A write adds the pulse to those accepted when it is accepted. -/
theorem runQueue_write (p : Pulse) (ops : List QueueOp) (s : State) :
    runQueue (.write p :: ops) s =
      (if (s.qWrite p).1 then p :: (runQueue ops (s.qWrite p).2).1 else (runQueue ops (s.qWrite p).2).1,
        (runQueue ops (s.qWrite p).2).2) := rfl

/-- A read adds the pulse to those read unless the queue is empty. -/
theorem runQueue_read (ops : List QueueOp) (s : State) :
    runQueue (.read :: ops) s =
      ((runQueue ops s.qRead.2).1,
        if s.queue.count = 0 then (runQueue ops s.qRead.2).2.1 else s.qRead.1 :: (runQueue ops s.qRead.2).2.1,
        (runQueue ops s.qRead.2).2.2) := rfl

/-- From any sound queue, what is live and then accepted is what is read and then left, in this order (R185). -/
theorem runQueue_fifo {ops : List QueueOp} {s : State} (hs : s.QueueSound)
    (hops : ∀ p, QueueOp.write p ∈ ops → p.duration ≠ 0) :
    s.liveQueue ++ (runQueue ops s).1.map some = (runQueue ops s).2.1.map some ++ (runQueue ops s).2.2.liveQueue := by
  induction ops generalizing s with
  | nil => exact List.append_nil _
  | cons op ops ih =>
    have hrest (p : Pulse) (hp : QueueOp.write p ∈ ops) : p.duration ≠ 0 := hops p (List.mem_cons_of_mem op hp)
    cases op with
    | write p =>
      have hnext := ih (s.qWrite_queueSound p hs (hops p List.mem_cons_self)) hrest
      rw [runQueue_write, ← hnext]
      by_cases hfull : s.queue.count = s.cfg.cap
      · simp [State.qWrite_of_full hfull]
      · have haccepted : (s.qWrite p).1 = true := by rw [State.qWrite_of_room hfull]
        simp [haccepted, s.qWrite_liveQueue p hs.cap_pos hs.length (hs.count_lt hfull)]
    | read =>
      have hnext := ih (s.qRead_queueSound hs) hrest
      rw [runQueue_read]
      by_cases hempty : s.queue.count = 0
      · rw [State.qRead_of_empty hempty] at hnext ⊢
        simpa [hempty] using hnext
      · simpa [hempty, s.qRead_liveQueue hs hempty] using hnext

/-- Settles O41: the case of no live entry at the start. -/
theorem queueIsFirstInFirstOut : Obligations.QueueIsFirstInFirstOut := by
  refine ⟨fun s => State.qRead_of_empty, fun s ops hs hempty hops => ?_⟩
  have hfifo := runQueue_fifo hs.queue hops
  rwa [State.liveQueue_of_empty hempty, List.nil_append] at hfifo

/-! ### Who changes the queue -/

/-- A command that changes the queue is a TX.SEND given while TRANSMITTING (R184, R202). -/
theorem exec_changes_queue {i : Instr} {s t : State} (h : exec i s = .next t) (hne : t.queue ≠ s.queue) :
    s.tx.txState = .transmitting ∧ ∃ level d, i = .txSend level d := by
  rcases exec_queue_tx_mask h with ⟨hkept, -⟩ | ⟨level, d, rfl⟩ | ⟨m, rfl⟩ | rfl
  · exact absurd hkept hne
  · obtain ⟨-, -, hidle, -⟩ := execTxSend_frame h
    cases htx : s.tx.txState with
    | idle => exact absurd (hidle htx) hne
    | transmitting => exact ⟨rfl, level, d, rfl⟩
  · exact absurd (congrArg State.queue (execAtomicEnter_frame h)) hne
  · exact absurd (congrArg State.queue (execAtomicExit_frame h)) hne

/-- Settles O45, by the agent that moves. -/
theorem queueOwnership : Obligations.QueueOwnership := by
  intro s t h hne
  obtain ⟨-, -, turns, draws, -, -, hcnt | hovf | hcmps | hpoll | hidle | hissue⟩ := step_cases h
  · obtain ⟨-, rfl⟩ := hcnt
    exact absurd (State.counterStep_queue _) hne
  · obtain ⟨-, rfl⟩ := hovf
    exact absurd (State.overflowService_queue _) hne
  · exact .inl hcmps.1
  · obtain ⟨-, -, rfl⟩ := hpoll
    exact absurd (State.delayPoll_queue _) hne
  · obtain ⟨-, -, -, rfl⟩ := hidle
    exact absurd rfl hne
  · obtain ⟨hag, -, c, more, hcmds, ⟨e, -, rfl⟩ | ⟨i, hdec, hexec⟩⟩ := hissue
    · exact absurd rfl hne
    · obtain ⟨htx, level, d, rfl⟩ := exec_changes_queue hexec hne
      exact .inr ⟨hag, htx, c, more, level, d, hcmds, hdec⟩

end Sys2Proof.Machine
end

section
/-! PROOFS. 44_pulsetx.md: TX.SEND (R202), the comparator in the counter step (R203) and the compare-match service (R204). -/

namespace Sys2Proof.Machine

/-! ### TX.SEND -/

/-- Q_WRITE answers whether the queue had room (R181). -/
theorem State.qWrite_accepts_iff (s : State) (p : Pulse) : (s.qWrite p).1 = true ↔ s.queue.count ≠ s.cfg.cap := by
  rcases s.qWrite_cases p with ⟨hfull, e⟩ | ⟨hroom, e⟩ <;> rw [e]
  · simp [hfull]
  · simp [hroom]

/-- Settles O42, by the branch TX.SEND takes; while TRANSMITTING its answer is Q_WRITE's. -/
theorem txSendResult : Obligations.TxSendResult := by
  intro s level d
  rcases execTxSend_cases level d s with ⟨hzero, e⟩ | ⟨hpos, hshort, -⟩ | ⟨hpos, -, hidle, e⟩ | ⟨hpos, -, htransmitting, e⟩
  · exact ⟨fun _ => e, fun hpos => absurd hzero hpos, fun hpos => absurd hzero hpos⟩
  · exact ⟨fun hzero => absurd hzero hpos, fun _ hlong => absurd hshort (Nat.not_lt_of_le hlong),
      fun _ hlong => absurd hshort (Nat.not_lt_of_le hlong)⟩
  · have hne : s.tx.txState ≠ .transmitting := by simp [hidle]
    exact ⟨fun hzero => absurd hzero hpos, fun _ _ _ => e, fun _ _ htransmitting => absurd htransmitting hne⟩
  · have hne : s.tx.txState ≠ .idle := by simp [htransmitting]
    refine ⟨fun hzero => absurd hzero hpos, fun _ _ hidle => absurd hidle hne, fun _ _ _ => ?_⟩
    simpa only [exec, State.qWrite_accepts_iff, ite_not] using e

/-! ### The comparator in the counter step -/

/-- A counter step without a fault flags a match where one is armed and the count it reaches, E + 1, is the target; elsewhere
it leaves the transmitter alone and a match that may be serviced has waited one step more (R120, R203). -/
theorem State.Inv.counterStep_match_cases {s : State} (hs : s.Inv) (hstep : s.counterStep.fault = none) :
    (s.tx.cmpArmed = true ∧ s.trueCount + 1 = s.tx.target ∧
      s.counterStep.tx = { s.tx with cmpArmed := false, cmpPending := true } ∧ s.counterStep.lat.cmpAge = 0) ∨
    ((s.tx.cmpArmed = false ∨ s.trueCount + 1 ≠ s.tx.target) ∧
      s.counterStep.tx = s.tx ∧ s.counterStep.lat.cmpAge = if s.cmpEff then s.lat.cmpAge + 1 else s.lat.cmpAge) := by
  rcases s.counterStep_cases with ⟨-, -, e⟩ | ⟨-, e⟩
  · rw [e] at hstep; cases hstep
  · have hcount : (s.ageInterrupts.advanceRaw s.nextRaw).trueCount = s.trueCount + 1 := by
      rw [← State.counterStep_trueCount hs.legal hs.raw hstep, e]
      exact (State.trueCount_congr (by simp) (by simp)).symm
    have hcases := (s.ageInterrupts.advanceRaw s.nextRaw).matchCheck_cases
    rw [hcount, State.advanceRaw_tx, State.ageInterrupts_tx] at hcases
    rw [e]
    rcases hcases with ⟨harmed, hreached, hmatch⟩ | ⟨hno, hnone⟩
    · exact .inl ⟨harmed, hreached, by rw [hmatch], by rw [hmatch]⟩
    · exact .inr ⟨hno, by simp [hnone], by rw [hnone, State.advanceRaw_lat]; rfl⟩

/-- Settles O43. -/
theorem counterStepMatches : Obligations.CounterStepMatches := by
  intro s hs _ hstep
  have hexclude (harmed : s.tx.cmpArmed = true) (hreached : s.trueCount + 1 = s.tx.target) :
      ¬ (s.tx.cmpArmed = false ∨ s.trueCount + 1 ≠ s.tx.target) := by rw [harmed, hreached]; simp
  rcases hs.counterStep_match_cases hstep with ⟨harmed, hreached, hmatch⟩ | ⟨hno, hnone⟩
  · exact ⟨fun _ _ => hmatch, fun hno => absurd hno (hexclude harmed hreached)⟩
  · exact ⟨fun harmed hreached => absurd hno (hexclude harmed hreached), fun _ => hnone⟩

/-! ### The compare-match service -/

/-- Q_READ changes the queue alone (R182). -/
theorem State.qRead_state (s : State) : s.qRead.2 = { s with queue := s.qRead.2.queue } := by
  rcases s.qRead_cases with ⟨-, e⟩ | ⟨-, e⟩ <;> rw [e]

theorem State.liveQueue_congr {s t : State} (hq : t.queue = s.queue) (hg : t.cfg = s.cfg) : t.liveQueue = s.liveQueue := by
  simp only [State.liveQueue, State.queueEntry_congr hq hg, hq]

/-- With a pulse read, the service drives its level and arms a match its duration after the previous target (R204). -/
theorem State.matchService_of_pulse {s : State} (hpulse : s.qRead.1.duration ≠ 0) :
    s.matchService = { s with
      queue := s.qRead.2.queue
      tx := ⟨s.tx.txState, s.qRead.1.level, s.tx.target + s.qRead.1.duration, true, false⟩
      lat := ⟨s.lat.ovfAge, 0⟩
      events := s.events ++ [.out s.tx.target s.trueCount s.qRead.1.level] } := by
  simp only [State.matchService, if_pos hpulse]
  conv_lhs => rw [State.qRead_state]
  rfl

/-- With nothing to read, the service drives the idle level and arms nothing (R204). -/
theorem State.matchService_of_empty {s : State} (hempty : s.queue.count = 0) :
    s.matchService = { s with
      tx := ⟨.idle, s.cfg.idleLevel, s.tx.target, false, false⟩
      lat := ⟨s.lat.ovfAge, 0⟩
      events := s.events ++ [.out s.tx.target s.trueCount s.cfg.idleLevel] } := by
  simp only [State.matchService, State.qRead_of_empty hempty]
  rfl

/-- Settles O44. The oldest live pulse is the one Q_READ takes, and its duration is not 0. -/
theorem matchServiceResult : Obligations.MatchServiceResult := by
  intro s hs
  refine ⟨s.enabled_cmps_iff, fun p rest hlive => ?_, fun hlive => ?_⟩
  · have hheld : s.queue.count ≠ 0 := fun hempty => by simp [State.liveQueue_of_empty hempty] at hlive
    obtain ⟨q, hread, -, hpulse, -⟩ := s.qRead_oldest hs.queue hheld
    have holdest := hlive.symm.trans (s.qRead_liveQueue hs.queue hheld)
    simp only [List.cons.injEq, Option.some.injEq] at holdest
    obtain ⟨rfl, rfl⟩ := holdest
    exact ⟨State.matchService_of_pulse (hread ▸ hpulse), State.liveQueue_congr s.matchService_queue (by simp)⟩
  · exact State.matchService_of_empty (s.liveQueue_length.symm.trans (congrArg List.length hlive))

end Sys2Proof.Machine
end

section
/-! PROOFS. 45_scope.md: a masked service does not run (R232), ATOMIC.ENTER (R230) and ATOMIC.EXIT (R231). -/

namespace Sys2Proof.Machine

/-! ### Masked services -/

/-- `cmp_eff` (R251). -/
theorem State.cmpEff_iff (s : State) :
    s.cmpEff = true ↔ s.tx.cmpPending = true ∧ s.mask.imask.getLsbD 1 = false := by
  simp [State.cmpEff, State.cmpMasked]

theorem State.not_enabled_ovf_of_masked {s : State} (hmask : s.mask.imask.getLsbD 0 = true) : ¬ s.enabled .ovf = true := by
  intro hen
  obtain ⟨-, heff⟩ := s.enabled_ovf_iff.1 hen
  obtain ⟨-, -, hopen⟩ := s.ovfEff_iff.1 heff
  cases hmask.symm.trans hopen

theorem State.not_enabled_cmps_of_masked {s : State} (hmask : s.mask.imask.getLsbD 1 = true) :
    ¬ s.enabled .cmps = true := by
  intro hen
  obtain ⟨-, heff⟩ := s.enabled_cmps_iff.1 hen
  obtain ⟨-, hopen⟩ := s.cmpEff_iff.1 heff
  cases hmask.symm.trans hopen

/-- A step that is neither the host's nor CMPS's keeps the queue, and of the transmitter all but the comparator's two flags
(R120, R121). -/
theorem step_keeps_transmitter {s t : State} (h : step s = .next t) (hhost : s.takeTurn.1 ≠ .host)
    (hcmps : s.takeTurn.1 ≠ .cmps) :
    t.tx.txState = s.tx.txState ∧ t.tx.outLevel = s.tx.outLevel ∧ t.tx.target = s.tx.target ∧ t.queue = s.queue := by
  obtain ⟨-, -, turns, draws, -, -, hcnt | hovf | hservice | hpoll | hidle | hissue⟩ := step_cases h
  · obtain ⟨-, rfl⟩ := hcnt
    rw [State.counterStep_tx_frame, State.counterStep_queue]
    exact ⟨rfl, rfl, rfl, rfl⟩
  · obtain ⟨-, rfl⟩ := hovf
    exact ⟨rfl, rfl, rfl, rfl⟩
  · exact absurd hservice.1 hcmps
  · exact absurd hpoll.1 hhost
  · exact absurd hidle.1 hhost
  · exact absurd hissue.1 hhost

/-- Settles O30: the agent that moves is enabled, and a masked service is not. -/
theorem maskedServicesCannotRun : Obligations.MaskedServicesCannotRun := by
  intro s t h
  refine ⟨fun hmask => ?_, fun hmask hhost => ?_⟩
  · rcases ticksChangeOnlyInOverflowService s t h with hkept | ⟨-, hen, -⟩
    · exact hkept
    · exact absurd hen (State.not_enabled_ovf_of_masked hmask)
  · obtain ⟨-, -, -, -, -, hen, -⟩ := step_cases h
    exact step_keeps_transmitter h hhost fun hag => State.not_enabled_cmps_of_masked hmask (hag ▸ hen)

/-! ### ATOMIC.ENTER and ATOMIC.EXIT -/

/-- With room on the stack, ATOMIC.ENTER saves the mask in force and ors MASK in (R230). -/
theorem execAtomicEnter_of_room {s : State} (hroom : s.mask.scopeStack.length ≠ s.cfg.scopeDepthMax) (m : BitVec 2) :
    execAtomicEnter m s = .next { s with mask := ⟨s.mask.imask ||| m, s.mask.scopeStack ++ [s.mask.imask]⟩ } := by
  rcases execAtomicEnter_cases m s with ⟨hfull, -⟩ | ⟨-, e⟩
  · exact absurd hfull hroom
  · exact e

/-- Settles O46. -/
theorem atomicEnterResult : Obligations.AtomicEnterResult := by
  intro s m
  refine ⟨fun hfull => ?_, fun hroom => execAtomicEnter_of_room hroom m, fun j hmasked => ?_⟩
  · rcases execAtomicEnter_cases m s with ⟨-, e⟩ | ⟨hroom, -⟩
    · exact e
    · exact absurd hfull hroom
  · rw [BitVec.getLsbD_or, hmasked, Bool.true_or]

/-- With a scope open, ATOMIC.EXIT puts the last saved mask in force and takes it off the stack (R231). -/
theorem execAtomicExit_of_open {s : State} {outer : List (BitVec 2)} {saved : BitVec 2}
    (hopen : s.mask.scopeStack = outer ++ [saved]) : execAtomicExit s = .next { s with mask := ⟨saved, outer⟩ } := by
  rcases execAtomicExit_cases s with ⟨hempty, -⟩ | ⟨outer', saved', hopen', e⟩
  · simp [hopen] at hempty
  · obtain ⟨rfl, rfl⟩ := List.append_singleton_inj.1 (hopen.symm.trans hopen')
    exact e

/-- An effectively pending interrupt goes before the host (R56). -/
theorem State.enabled_host_eq_false_of_eff {s : State} (heff : s.ovfEff = true ∨ s.cmpEff = true) :
    s.enabled .host = false := by
  refine Bool.eq_false_iff.2 fun hen => ?_
  obtain ⟨-, hovf, hcmp, -⟩ := s.enabled_host_iff.1 hen
  exact heff.elim hovf hcmp

/-- Settles O47. The mask and the stack that EXIT puts back after an ENTER are the ones ENTER saved, so the state is the one
before it. -/
theorem atomicExitResult : Obligations.AtomicExitResult := by
  intro s
  refine ⟨fun hempty => ?_, fun saved outer => execAtomicExit_of_open, fun m t hroom henter => ?_,
    fun t _ => State.enabled_host_eq_false_of_eff⟩
  · rcases execAtomicExit_cases s with ⟨-, e⟩ | ⟨outer, saved, hopen, -⟩
    · exact e
    · simp [hempty] at hopen
  · cases (execAtomicEnter_of_room (Nat.ne_of_lt hroom) m).symm.trans henter
    exact execAtomicExit_of_open rfl

end Sys2Proof.Machine
end

section
/-! PROOFS. 60_exceptions.md: which configurations are refused (R258), what a raised fault is (R255) and that it is precise
and sticky (R256), the order of a command's checks (R257), effective pending (R251) and the order of the services (R252). -/

namespace Sys2Proof

/-! ### Configurations -/

theorem isPowerOfTwo_iff (n : Nat) : isPowerOfTwo n = true ↔ ∃ k, n = 2 ^ k := by
  rw [isPowerOfTwo, beq_iff_eq]
  constructor
  · exact fun h => ⟨_, h⟩
  · rintro ⟨k, rfl⟩
    rw [Nat.log2_two_pow]

/-- Only a PERIODIC or DEADLINE slot's delay is bounded (R258). -/
theorem SlotCfg.legal_iff (c : SlotCfg) : c.legal = true ↔ (c.kind ≠ .vdeadline → c.delay.toNat < 2 ^ 31) := by
  rw [SlotCfg.legal, Bool.or_eq_true, beq_iff_eq, decide_eq_true_iff, or_iff_not_imp_left]

/-- A configuration is legal exactly when it breaks no item of R258. -/
theorem Config.legal_iff (c : Config) :
    c.legal = true ↔
      (c.w = 8 ∨ c.w = 16) ∧ (∃ k, c.p = 2 ^ k) ∧ c.fCpu ≠ 0 ∧ c.cap ≠ 0 ∧ c.numSlots ≤ 16 ∧
      (∀ sc ∈ c.slotCfg, sc.kind ≠ .vdeadline → sc.delay.toNat < 2 ^ 31) ∧ c.minPulse ≠ 0 ∧
      c.latMax < 2 ^ c.w ∧ c.raceWindow ≤ 2 ^ c.w ∧ c.scopeDepthMax ≠ 0 := by
  have hwidth : ¬ (c.w ≠ 8 ∧ c.w ≠ 16) ↔ c.w = 8 ∨ c.w = 16 := by omega
  simp only [Config.legal, Option.isNone_iff_eq_none, Config.problem, ite_eq_iff, reduceCtorEq, and_false, false_or,
    hwidth, Bool.not_eq_false, isPowerOfTwo_iff, List.all_eq_true, SlotCfg.legal_iff, not_lt, not_le, and_true, ne_eq]

end Sys2Proof

namespace Sys2Proof.Machine

variable {s t : State}

/-- A configuration that is not legal has a first item that it breaks, and `step` refuses it for that item (R258). -/
theorem step_of_illegal (h : s.cfg.legal = false) : ∃ p, step s = .refused (.illegalConfiguration p) := by
  rw [Config.legal, Option.isNone_eq_false_iff, Option.isSome_iff_exists] at h
  obtain ⟨p, hp⟩ := h
  exact ⟨p, by rw [step, hp]⟩

/-- Settles O12. -/
theorem refusedConfigurations : Obligations.RefusedConfigurations :=
  fun s => ⟨s.cfg.legal_iff, step_of_illegal⟩

/-! ### Faults -/

/-- Settles O13, by the two tables. -/
theorem raiseRecordsCodeAndInfo : Obligations.RaiseRecordsCodeAndInfo :=
  fun _ _ _ _ _ =>
    ⟨rfl, rfl, rfl, rfl, rfl, rfl, rfl, rfl, rfl, rfl, rfl, rfl, rfl, rfl, rfl, rfl, rfl, rfl, rfl⟩

/-- A command that records a fault has raised it, and so has done nothing else (R256). -/
theorem exec_eq_raise_of_fault {i : Instr} {f : BlockFault} (h : exec i s = .next t) (hs : s.fault = none)
    (ht : t.fault = some f) : t = s.raise f := by
  rcases exec_cases i s t h with ⟨f', rfl⟩ | ⟨hkept, -⟩
  · cases ht; rfl
  · cases (hkept.trans hs).symm.trans ht

/-- A counter step that records a fault has lost a tick, and has done nothing else (R120, R256). -/
theorem State.counterStep_eq_raise_of_fault {f : BlockFault} (hs : s.fault = none) (ht : s.counterStep.fault = some f) :
    s.counterStep = s.raise f := by
  rcases s.counterStep_cases with ⟨-, -, e⟩ | ⟨-, e⟩
  · rw [e] at ht ⊢
    cases ht; rfl
  · rw [e] at ht
    cases hs.symm.trans (by simpa using ht)

/-- A fault is recorded by the counter step or by the host's command, and each only raises it (R255, R256). -/
theorem step_eq_raise_of_fault {f : BlockFault} (h : step s = .next t) (ht : t.fault = some f) :
    t = { s with fault := some f, hostCmds := t.hostCmds, turns := t.turns, draws := t.draws } := by
  obtain ⟨-, hs, turns, draws, -, -, hcnt | hovf | hcmps | hpoll | hidle | hissue⟩ := step_cases h
  · obtain ⟨-, rfl⟩ := hcnt
    rw [State.counterStep_eq_raise_of_fault (s := { s with turns := turns, draws := draws }) hs ht]
    rfl
  · obtain ⟨-, rfl⟩ := hovf
    cases hs.symm.trans ht
  · obtain ⟨-, rfl⟩ := hcmps
    rw [State.matchService_fault] at ht
    cases hs.symm.trans ht
  · obtain ⟨-, -, rfl⟩ := hpoll
    rw [State.delayPoll_fault] at ht
    cases hs.symm.trans ht
  · obtain ⟨-, -, -, rfl⟩ := hidle
    cases hs.symm.trans ht
  · obtain ⟨-, -, c, more, -, ⟨e, -, rfl⟩ | ⟨i, -, hexec⟩⟩ := hissue
    · cases ht; rfl
    · rw [exec_eq_raise_of_fault hexec hs ht]
      rfl

/-- Once a fault is recorded no agent is enabled (R56). -/
theorem State.enabled_eq_false_of_fault {f : BlockFault} (hf : s.fault = some f) (a : Agent) : s.enabled a = false := by
  refine Bool.eq_false_iff.2 fun hen => ?_
  cases hf.symm.trans (State.enabled_fault_none hen)

theorem step_of_fault {f : BlockFault} (hlegal : s.cfg.legal = true) (hf : s.fault = some f) :
    step s = .fault (.halted f) := by
  rw [step, Config_legal_problem hlegal, hf]

/-- Settles O14. -/
theorem faultIsPreciseAndSticky : Obligations.FaultIsPreciseAndSticky :=
  ⟨fun _ _ _ => step_eq_raise_of_fault,
    fun _ _ hlegal hf => ⟨State.enabled_eq_false_of_fault hf, step_of_fault hlegal hf⟩⟩

/-! ### The order of a command's checks -/

section Checks

variable {kinds : List SlotKind} {op slot : Nat}

/-- The range is checked first (R151). -/
theorem State.slotCheck_of_out_of_range (h : s.cfg.numSlots ≤ slot) : s.slotCheck kinds op slot = .error (.slotRange slot) := by
  rw [State.slotCheck, List.getElem?_eq_none h]

/-- A slot in range is checked for its kind (R151). -/
theorem State.slotCheck_of_slot {c : SlotCfg} (h : s.cfg.slotCfg[slot]? = some c) :
    s.slotCheck kinds op slot = if c.kind ∈ kinds then .ok c else .error (.slotKind slot op) := by
  simp only [State.slotCheck, h, List.contains_iff_mem]

/-- Of the two ways a slot command can answer, a slot check that fails leaves the first (R257). -/
theorem State.of_slotCheck_error {f : BlockFault} {P : BlockFault → Prop} {Q : SlotCfg → Prop}
    (hcheck : s.slotCheck kinds op slot = .error f)
    (h : (∃ f', s.slotCheck kinds op slot = .error f' ∧ P f') ∨ ∃ c, s.slotCheck kinds op slot = .ok c ∧ Q c) : P f := by
  rcases h with ⟨f', hf', hP⟩ | ⟨c, hc, -⟩
  · cases hcheck.symm.trans hf'
    exact hP
  · cases hcheck.symm.trans hc

/-- Of the two ways a slot command can answer, a slot check that passes leaves the second (R257). -/
theorem State.of_slotCheck_ok {c : SlotCfg} {P : BlockFault → Prop} {Q : SlotCfg → Prop}
    (hcheck : s.slotCheck kinds op slot = .ok c)
    (h : (∃ f, s.slotCheck kinds op slot = .error f ∧ P f) ∨ ∃ c', s.slotCheck kinds op slot = .ok c' ∧ Q c') : Q c :=
  have ⟨hslot, hkind⟩ := (s.slotCheck_ok_iff kinds op slot c).1 hcheck
  State.of_slotCheck_cases hslot hkind h

end Checks

/-- After its slot check VDL.RESET checks its argument (R155). -/
theorem execVdlReset_of_delay_too_long {slot : Nat} {d : Word} {c : SlotCfg}
    (hcheck : s.slotCheck [.vdeadline] Mnemonic.vdlReset.op slot = .ok c) (hlong : 2 ^ 31 ≤ d.toNat) :
    execVdlReset slot d s = .next (s.raise (.delayRange d)) := by
  rcases State.of_slotCheck_ok hcheck (execVdlReset_cases slot d s) with ⟨-, e⟩ | ⟨hshort, -⟩
  · exact e
  · exact absurd hlong (Nat.not_le_of_lt hshort)

/-- After its slot check PER.ISNOW checks that the slot is valid (R153). -/
theorem execPerIsNow_of_not_valid {slot : Nat} {c : SlotCfg}
    (hcheck : s.slotCheck [.periodic] Mnemonic.perIsNow.op slot = .ok c) (hvalid : (s.slotAt slot).valid = false) :
    execPerIsNow slot s = .next (s.raise (.slotUninit slot)) := by
  rcases State.of_slotCheck_ok hcheck (execPerIsNow_cases slot s) with ⟨-, e⟩ | ⟨h, -⟩ | ⟨h, -⟩
  · exact e
  · cases hvalid.symm.trans h
  · cases hvalid.symm.trans h

/-- After its slot check DL.ISNOW checks that the slot is valid (R156). -/
theorem execDlIsNow_of_not_valid {slot : Nat} {c : SlotCfg}
    (hcheck : s.slotCheck [.deadline, .vdeadline] Mnemonic.dlIsNow.op slot = .ok c)
    (hvalid : (s.slotAt slot).valid = false) : execDlIsNow slot s = .next (s.raise (.slotUninit slot)) := by
  rcases State.of_slotCheck_ok hcheck (execDlIsNow_cases slot s) with ⟨-, e⟩ | ⟨h, -⟩ | ⟨h, -⟩ | ⟨h, -⟩
  · exact e
  · cases hvalid.symm.trans h
  · cases hvalid.symm.trans h
  · cases hvalid.symm.trans h

/-- After the zero duration TX.SEND checks the shortest pulse (R202). -/
theorem execTxSend_of_short {d : Word} (hpos : d ≠ 0) (hshort : d.toNat < s.cfg.minPulse) (level : Level) :
    execTxSend level d s = .next (s.raise (.shortPulse d)) := by
  rcases execTxSend_cases level d s with ⟨hzero, -⟩ | ⟨-, -, e⟩ | ⟨-, hlong, -⟩ | ⟨-, hlong, -⟩
  · exact absurd hzero hpos
  · exact e
  · exact absurd hshort (Nat.not_lt_of_le hlong)
  · exact absurd hshort (Nat.not_lt_of_le hlong)

/-- Settles O17, check by check. -/
theorem firstFailingCheckIsReported : Obligations.FirstFailingCheckIsReported :=
  fun s slot d _ _ =>
    ⟨State.slotCheck_of_out_of_range, fun _ => State.slotCheck_of_slot,
      fun _ hcheck => State.of_slotCheck_error hcheck (execPerInit_cases slot s),
      fun _ hcheck => State.of_slotCheck_error hcheck (execPerIsNow_cases slot s),
      fun _ hcheck => State.of_slotCheck_error hcheck (execDlReset_cases slot s),
      fun _ hcheck => State.of_slotCheck_error hcheck (execVdlReset_cases slot d s),
      fun _ hcheck => State.of_slotCheck_error hcheck (execDlIsNow_cases slot s),
      fun _ => execVdlReset_of_delay_too_long, fun _ => execPerIsNow_of_not_valid, fun _ => execDlIsNow_of_not_valid,
      execTxSend_of_short⟩

/-! ### Effective pending -/

/-- The counter step clears no pending overflow (R250). -/
theorem State.counterStep_ovfPending (h : s.clock.ovfPending = true) : s.counterStep.clock.ovfPending = true := by
  rcases s.counterStep_cases with ⟨-, -, e⟩ | ⟨-, e⟩ <;> rw [e]
  · exact h
  · simp [h]

/-- The comparator clears no pending match (R250). -/
theorem State.matchCheck_cmpPending (h : s.tx.cmpPending = true) : s.matchCheck.tx.cmpPending = true := by
  rcases s.matchCheck_cases with ⟨-, -, e⟩ | ⟨-, e⟩
  · rw [e]
  · rwa [e]

/-- The counter step clears no pending match (R250). -/
theorem State.counterStep_cmpPending (h : s.tx.cmpPending = true) : s.counterStep.tx.cmpPending = true := by
  rcases s.counterStep_cases with ⟨-, -, e⟩ | ⟨-, e⟩ <;> rw [e]
  · exact h
  · exact State.matchCheck_cmpPending (by simpa using h)

/-- No command clears a pending match: TX.SEND does so only from IDLE, where none is pending (R250). -/
theorem State.Inv.exec_cmpPending {i : Instr} (hs : s.Inv) (h : Machine.exec i s = .next t) (hpending : s.tx.cmpPending = true) :
    t.tx.cmpPending = true := by
  rcases exec_queue_tx_mask h with ⟨-, htx, -⟩ | ⟨level, d, rfl⟩ | ⟨m, rfl⟩ | rfl
  · rw [htx, hpending]
  · obtain ⟨-, -, -, hkept⟩ := execTxSend_frame h
    cases htx : s.tx.txState with
    | idle =>
      obtain ⟨-, -, hnone, -⟩ := hs.tx.idle htx
      cases hpending.symm.trans hnone
    | transmitting => rw [(hkept htx).1, hpending]
  · rw [execAtomicEnter_frame h, hpending]
  · rw [execAtomicExit_frame h, hpending]

/-- Only its service clears a pending overflow (R250). -/
theorem step_keeps_ovfPending (h : step s = .next t) (hpending : s.clock.ovfPending = true)
    (hmoved : s.takeTurn.1 ≠ .ovf) : t.clock.ovfPending = true := by
  obtain ⟨-, -, turns, draws, -, -, hcnt | hovf | hcmps | hpoll | hidle | hissue⟩ := step_cases h
  · obtain ⟨-, rfl⟩ := hcnt
    exact State.counterStep_ovfPending hpending
  · exact absurd hovf.1 hmoved
  · obtain ⟨-, rfl⟩ := hcmps
    rwa [State.matchService_clock]
  · obtain ⟨-, -, rfl⟩ := hpoll
    rwa [State.delayPoll_clock]
  · obtain ⟨-, -, -, rfl⟩ := hidle
    exact hpending
  · obtain ⟨-, -, c, more, -, ⟨e, -, rfl⟩ | ⟨i, -, hexec⟩⟩ := hissue
    · exact hpending
    · rwa [exec_clock hexec]

/-- Only its service clears a pending match (R250). -/
theorem State.Inv.step_keeps_cmpPending (hs : s.Inv) (h : step s = .next t) (hpending : s.tx.cmpPending = true)
    (hmoved : s.takeTurn.1 ≠ .cmps) : t.tx.cmpPending = true := by
  obtain ⟨-, -, turns, draws, -, -, hcnt | hovf | hcmps | hpoll | hidle | hissue⟩ := step_cases h
  · obtain ⟨-, rfl⟩ := hcnt
    exact State.counterStep_cmpPending hpending
  · obtain ⟨-, rfl⟩ := hovf
    exact hpending
  · exact absurd hcmps.1 hmoved
  · obtain ⟨-, -, rfl⟩ := hpoll
    rwa [State.delayPoll_tx]
  · obtain ⟨-, -, -, rfl⟩ := hidle
    exact hpending
  · obtain ⟨-, -, c, more, -, ⟨e, -, rfl⟩ | ⟨i, -, hexec⟩⟩ := hissue
    · exact hpending
    · exact (hs.withInputs turns draws more).exec_cmpPending hexec hpending

/-- Settles O15: a masked interrupt's service is not the agent that moves, and nothing else clears its pending bit. -/
theorem effectivePending : Obligations.EffectivePending := by
  refine ⟨fun s => ⟨s.ovfEff_iff, s.cmpEff_iff, s.enabled_ovf_iff.trans and_comm, s.enabled_cmps_iff.trans and_comm⟩,
    fun s t hs h => ?_,
    fun s hs hfault => ⟨fun hpending hopen => ?_, fun hpending hopen => ?_⟩⟩
  · obtain ⟨-, -, -, -, -, hen, -⟩ := step_cases h
    exact
      ⟨fun hpending hmask => step_keeps_ovfPending h hpending fun hag =>
          State.not_enabled_ovf_of_masked hmask (hag ▸ hen),
        fun hpending hmask => hs.step_keeps_cmpPending h hpending fun hag =>
          State.not_enabled_cmps_of_masked hmask (hag ▸ hen)⟩
  · exact s.enabled_ovf_iff.2 ⟨hfault, s.ovfEff_iff.2 ⟨hpending, hs.ovfIe, hopen⟩⟩
  · exact s.enabled_cmps_iff.2 ⟨hfault, s.cmpEff_iff.2 ⟨hpending, hopen⟩⟩

/-! ### The order of the services -/

/-- Q_READ reads and writes the queue alone, which the overflow service leaves alone (R121, R182). -/
theorem State.overflowService_qRead (s : State) : s.overflowService.qRead = (s.qRead.1, s.qRead.2.overflowService) := by
  by_cases hempty : s.queue.count = 0
  · rw [State.qRead_of_empty hempty, State.qRead_of_empty (s := s.overflowService) hempty]
  · rw [State.qRead_of_held hempty, State.qRead_of_held (s := s.overflowService) hempty]
    rfl

/-- With EMPTY read, the service drives the idle level and arms nothing (R204). -/
theorem State.matchService_of_no_pulse (hnone : s.qRead.1.duration = 0) :
    s.matchService = { s with
      queue := s.qRead.2.queue
      tx := ⟨.idle, s.cfg.idleLevel, s.tx.target, false, false⟩
      lat := ⟨s.lat.ovfAge, 0⟩
      events := s.events ++ [.out s.tx.target s.trueCount s.cfg.idleLevel] } := by
  simp only [State.matchService, hnone, ne_eq, not_true_eq_false, if_false]
  conv_lhs => rw [State.qRead_state]
  rfl

/-- Settles O16: what the compare-match service reads, which is the queue, the target and E, the overflow service of a pending
overflow leaves as it is. -/
theorem servicesCommute : Obligations.ServicesCommute := by
  intro s hovf _
  have hcount : s.overflowService.trueCount = s.trueCount :=
    s.overflowService_trueCount_of_pending (s.ovfEff_iff.1 hovf).1
  have hread := s.overflowService_qRead
  by_cases hnone : s.qRead.1.duration = 0
  · rw [State.matchService_of_no_pulse hnone, State.matchService_of_no_pulse (by rwa [hread]), hread, hcount]
    rfl
  · rw [State.matchService_of_pulse hnone, State.matchService_of_pulse (by rwa [hread]), hread, hcount]
    rfl

end Sys2Proof.Machine
end

section
/-! PROOFS. 70_reset_and_hazards.md: the values at reset (R281), and that while OVF is not masked no tick is lost (R286). -/

namespace Sys2Proof.Machine

variable {s t : State}

/-! ### The values at reset -/

/-- At reset every slot holds its reset items, whether it exists or not (R281). -/
theorem State.resetWith_slotAt (cfg : Config) (raw : BitVec 16) (pending : Bool) (i : Nat) :
    (State.resetWith cfg raw pending).slotAt i = Slot.reset := by
  simp only [State.slotAt, State.resetWith, List.getD_eq_getElem?_getD, List.getElem?_replicate]
  split <;> rfl

/-- An overflow drawn pending at reset is effectively pending: the interrupt is enabled and nothing masks it (R281). -/
theorem State.resetWith_ovfEff (cfg : Config) (raw : BitVec 16) : (State.resetWith cfg raw true).ovfEff = true :=
  (State.ovfEff_iff _).2 ⟨rfl, rfl, BitVec.getLsbD_zero⟩

/-- Settles O53, item by item; a pending overflow that is effective goes before the host. -/
theorem resetValues : Obligations.ResetValues := by
  intro cfg raw pending _
  refine ⟨rfl, rfl, List.length_replicate, fun i => ?_, List.length_replicate, fun _ => List.eq_of_mem_replicate, rfl, rfl,
    rfl, rfl, rfl, rfl, rfl, rfl, rfl, rfl, rfl, fun hpending => ?_⟩
  · rw [State.resetWith_slotAt]
    exact ⟨rfl, rfl⟩
  · subst hpending
    have heff := State.resetWith_ovfEff cfg raw
    exact ⟨State.enabled_host_eq_false_of_eff (.inl heff), (State.enabled_ovf_iff _).2 ⟨rfl, heff⟩, rfl⟩

/-! ### The age of a pending overflow -/

/-- A pending overflow has waited as many counter steps as the counter has made since its wrap (R26, R120). -/
def State.AgeIsRaw (s : State) : Prop := s.clock.ovfPending = true → s.clock.raw.toNat = s.lat.ovfAge

theorem State.AgeIsRaw.congr (h : s.AgeIsRaw) (hclock : t.clock = s.clock) (hage : t.lat.ovfAge = s.lat.ovfAge) :
    t.AgeIsRaw := by
  rw [State.AgeIsRaw, hclock, hage]
  exact h

/-- The counter waits for an effectively pending overflow of age LAT_MAX, which is below 2^W, so an age that is `raw` keeps
`raw` off its greatest value (R56, R258). -/
theorem State.Inv.raw_succ_lt_of_ovfEff (hs : s.Inv) (hage : s.clock.raw.toNat = s.lat.ovfAge) (heff : s.ovfEff = true)
    (hen : s.enabled .cnt = true) : s.clock.raw.toNat + 1 < 2 ^ s.cfg.w := by
  obtain ⟨-, hwaits, -⟩ := s.enabled_cnt_iff.1 hen
  obtain ⟨-, -, -, -, -, -, -, hlat, -⟩ := s.cfg.legal_iff.1 hs.legal
  have hle := hs.ovfAge
  have hne : s.lat.ovfAge ≠ s.cfg.latMax := fun e => hwaits ⟨heff, e⟩
  omega

/-- A counter step that does not wrap on a pending overflow records no fault (R120). -/
theorem State.counterStep_fault_of_kept (hkeeps : ¬ (s.nextRaw = 0 ∧ s.clock.ovfPending = true)) :
    s.counterStep.fault = s.fault := by
  rcases s.counterStep_cases with ⟨hwrap, hov, -⟩ | ⟨-, e⟩
  · exact absurd ⟨hwrap, hov⟩ hkeeps
  · simp [e]

/-- With OVF not masked the counter step loses no tick: a pending overflow ages with `raw`, and a new one starts with both
at 0 (R120, R286). -/
theorem State.Inv.counterStep_ageIsRaw (hs : s.Inv) (hmask : s.mask.imask.getLsbD 0 = false) (hage : s.AgeIsRaw)
    (hen : s.enabled .cnt = true) : s.counterStep.fault = s.fault ∧ s.counterStep.AgeIsRaw := by
  cases hov : s.clock.ovfPending with
  | true =>
    have hw := Config_legal_width_le hs.legal
    have heff : s.ovfEff = true := s.ovfEff_iff.2 ⟨hov, hs.ovfIe, hmask⟩
    have hlt := hs.raw_succ_lt_of_ovfEff (hage hov) heff hen
    have hno : s.nextRaw ≠ 0 := mt (State.nextRaw_eq_zero_iff hw hs.raw).1 (Nat.ne_of_lt hlt)
    have hkeeps : ¬ (s.nextRaw = 0 ∧ s.clock.ovfPending = true) := fun hlost => hno hlost.1
    obtain ⟨hclock, hage'⟩ := State.counterStep_clock_ovfAge hkeeps
    refine ⟨State.counterStep_fault_of_kept hkeeps, fun _ => ?_⟩
    rw [hclock, hage', if_neg hno, if_pos heff, ← hage hov, s.nextRaw_toNat hw, Nat.mod_eq_of_lt hlt]
  | false =>
    have hkeeps : ¬ (s.nextRaw = 0 ∧ s.clock.ovfPending = true) := by simp [hov]
    obtain ⟨hclock, hage'⟩ := State.counterStep_clock_ovfAge hkeeps
    refine ⟨State.counterStep_fault_of_kept hkeeps, fun hpending => ?_⟩
    have hwrap : s.nextRaw = 0 := by simpa [hclock, hov] using hpending
    simp [hclock, hage', hwrap]

/-! ### The commands lose no tick -/

/-- Every command leaves the ages alone (R26). -/
theorem exec_lat {i : Instr} (h : exec i s = .next t) : t.lat = s.lat := by
  rcases exec_cases i s t h with ⟨f, rfl⟩ | ⟨-, -, hlat, -⟩
  · rfl
  · exact hlat

theorem exec_ageIsRaw {i : Instr} (h : exec i s = .next t) (hage : s.AgeIsRaw) : t.AgeIsRaw :=
  hage.congr (exec_clock h) (by rw [exec_lat h])

/-- The slot check raises SlotRange and SlotKind only (R151). -/
theorem State.raise_slotCheck_ne_tickLost {kinds : List SlotKind} {op slot : Nat} {f : BlockFault}
    (h : s.slotCheck kinds op slot = .error f) (k : Word) : (s.raise f).fault ≠ some (.tickLost k) := by
  rcases s.slotCheck_error kinds op slot f h with rfl | rfl <;> exact nofun

/-- No command raises TickLost: only the counter step does (R255). -/
theorem exec_ne_tickLost {i : Instr} {k : Word} (h : exec i s = .next t) (hs : s.fault ≠ some (.tickLost k)) :
    t.fault ≠ some (.tickLost k) := by
  cases i with
  | ticks => cases (execTicks_eq s).symm.trans h; exact hs
  | counts => cases (execCounts_eq s).symm.trans h; exact hs
  | micros => cases (execMicros_eq s).symm.trans h; exact hs
  | millis => cases (execMillis_eq s).symm.trans h; exact hs
  | delay base d =>
    rcases execDelay_cases base d s with ⟨-, e⟩ | ⟨-, e⟩ <;> cases e.symm.trans h
    · exact nofun
    · exact hs
  | perInit slot =>
    rcases execPerInit_cases slot s with ⟨f, hf, e⟩ | ⟨_, -, e⟩ <;> cases e.symm.trans h
    · exact State.raise_slotCheck_ne_tickLost hf k
    · exact hs
  | perIsNow slot =>
    rcases execPerIsNow_cases slot s with ⟨f, hf, e⟩ | ⟨_, -, ⟨-, e⟩ | ⟨-, -, e⟩ | ⟨-, -, e⟩⟩ <;> cases e.symm.trans h
    · exact State.raise_slotCheck_ne_tickLost hf k
    · exact nofun
    · exact hs
    · exact hs
  | dlReset slot =>
    rcases execDlReset_cases slot s with ⟨f, hf, e⟩ | ⟨_, -, e⟩ <;> cases e.symm.trans h
    · exact State.raise_slotCheck_ne_tickLost hf k
    · exact hs
  | vdlReset slot d =>
    rcases execVdlReset_cases slot d s with ⟨f, hf, e⟩ | ⟨_, -, ⟨-, e⟩ | ⟨-, e⟩⟩ <;> cases e.symm.trans h
    · exact State.raise_slotCheck_ne_tickLost hf k
    · exact nofun
    · exact hs
  | dlIsNow slot =>
    rcases execDlIsNow_cases slot s with
      ⟨f, hf, e⟩ | ⟨_, -, ⟨-, e⟩ | ⟨-, -, e⟩ | ⟨-, -, -, e⟩ | ⟨-, -, -, e⟩⟩ <;> cases e.symm.trans h
    · exact State.raise_slotCheck_ne_tickLost hf k
    · exact nofun
    · exact hs
    · exact hs
    · exact hs
  | txSend level d =>
    rcases execTxSend_cases level d s with ⟨-, e⟩ | ⟨-, -, e⟩ | ⟨-, -, -, e⟩ | ⟨-, -, -, e⟩ <;> cases e.symm.trans h
    · exact hs
    · exact nofun
    · exact hs
    · exact hs
  | atomicEnter m =>
    rcases execAtomicEnter_cases m s with ⟨-, e⟩ | ⟨-, e⟩ <;> cases e.symm.trans h
    · exact nofun
    · exact hs
  | atomicExit =>
    rcases execAtomicExit_cases s with ⟨-, e⟩ | ⟨_, _, -, e⟩ <;> cases e.symm.trans h
    · exact nofun
    · exact hs

/-! ### No step loses a tick -/

/-- Settles O57, by the agent that moves: the counter waits before it wraps on a pending overflow, the overflow service leaves
none pending, and no other agent moves the counter or the age. -/
theorem unmaskedOverflowLosesNoTick : Obligations.UnmaskedOverflowLosesNoTick := by
  intro s t hs hmask (hage : s.AgeIsRaw) hstep
  obtain ⟨-, hfault, turns, draws, -, hen, hcnt | hovf | hcmps | hpoll | hidle | hissue⟩ := step_cases hstep
  all_goals have hnone : ∀ k, s.fault ≠ some (.tickLost k) := by simp [hfault]
  · obtain ⟨hag, rfl⟩ := hcnt
    obtain ⟨hkept, hage'⟩ := (hs.withInputs turns draws s.hostCmds).counterStep_ageIsRaw hmask hage (hag ▸ hen)
    exact ⟨fun k => hkept.trans_ne (hnone k), hage'⟩
  · obtain ⟨-, rfl⟩ := hovf
    exact ⟨hnone, nofun⟩
  · obtain ⟨-, rfl⟩ := hcmps
    exact ⟨by simpa using hnone, hage.congr (by simp) (by simp)⟩
  · obtain ⟨-, -, rfl⟩ := hpoll
    exact ⟨by simpa using hnone, hage.congr (by simp) (by simp)⟩
  · obtain ⟨-, -, -, rfl⟩ := hidle
    exact ⟨hnone, hage⟩
  · obtain ⟨-, -, c, more, -, ⟨e, -, rfl⟩ | ⟨i, -, hexec⟩⟩ := hissue
    · exact ⟨nofun, hage⟩
    · exact ⟨fun k => exec_ne_tickLost hexec (hnone k), exec_ageIsRaw hexec hage⟩

end Sys2Proof.Machine
end
